-- ==== Sys2Proof/Word.lean ====
section
/-!
DEFINITION. The plain types of the TR3200 core: words, bytes and register names (00_scope R7, R9; 10_state R20, R21).
-/

namespace Sys2Proof

/-- A 32-bit value: a register, the pc, an address, an instruction word (00_scope R6, R9). -/
abbrev Word := BitVec 32

/-- One byte of the address space (20_memory R50). -/
abbrev Byte := BitVec 8

/-- A register name, 0 to 15 (10_state R20, 30_encoding R91). -/
abbrev Reg := Fin 16

/-- r0 receives the interrupt message (10_state R21). -/
abbrev Reg.r0 : Reg := 0
/-- r11 = Y: high product word, remainder (10_state R21). -/
abbrev Reg.y : Reg := 11
/-- r12 = BP, a frame pointer by convention only (10_state R21). -/
abbrev Reg.bp : Reg := 12
/-- r13 = SP, the stack pointer (10_state R21). -/
abbrev Reg.sp : Reg := 13
/-- r14 = IA, the base of the interrupt vector table (10_state R21, R30). -/
abbrev Reg.ia : Reg := 14
/-- r15 = FLAGS (10_state R21, R24). -/
abbrev Reg.flags : Reg := 15

end Sys2Proof
end

