-- ==== Sys2Proof/Syntax.lean ====
section
/-!
DEFINITION. The instructions of spec/opcode_table.json, one constructor per row (30_encoding R94), over one operand shape (30_encoding R92).
-/

namespace Sys2Proof

/-- The last operand of a P3, P2 or P1 instruction, `rn|lit` (30_encoding R89, R90, R92). -/
inductive Operand where
  /-- M = 0: register `rn`. -/
  | reg (rn : Reg)
  /-- M = 1, L = 0: an inline literal, held here as the 32-bit value after sign extension (R90, R93). -/
  | lit (v : Word)
  /-- M = L = 1: a big literal, the word after the instruction word, as it is (R90). -/
  | big (v : Word)
  deriving DecidableEq, Repr

/-- The 59 instructions (30_encoding R94). Operand order is the assembler's: P3 `rd, rs, rn|lit`; P2 `rd, rn|lit`; P1 `rn|lit` (R99). -/
inductive Instr where
  -- NP (46_np)
  | sleep
  | ret
  | rfi
  -- P1 (45_p1)
  | xchgb (o : Operand)
  | xchgw (o : Operand)
  | getpc (o : Operand)
  | pop (o : Operand)
  | push (o : Operand)
  | jmp (o : Operand)
  | call (o : Operand)
  | rjmp (o : Operand)
  | rcall (o : Operand)
  | int (o : Operand)
  -- P2 data (43_p2_data)
  | mov (rd : Reg) (o : Operand)
  | swp (rd : Reg) (o : Operand)
  | not (rd : Reg) (o : Operand)
  | sigxb (rd : Reg) (o : Operand)
  | sigxw (rd : Reg) (o : Operand)
  | load2 (rd : Reg) (o : Operand)
  | loadw2 (rd : Reg) (o : Operand)
  | loadb2 (rd : Reg) (o : Operand)
  | store2 (rd : Reg) (o : Operand)
  | storew2 (rd : Reg) (o : Operand)
  | storeb2 (rd : Reg) (o : Operand)
  -- P2 conditionals and jumps (44_p2_conditional_jump)
  | ifeq (rd : Reg) (o : Operand)
  | ifneq (rd : Reg) (o : Operand)
  | ifl (rd : Reg) (o : Operand)
  | ifsl (rd : Reg) (o : Operand)
  | ifle (rd : Reg) (o : Operand)
  | ifsle (rd : Reg) (o : Operand)
  | ifbits (rd : Reg) (o : Operand)
  | ifclear (rd : Reg) (o : Operand)
  | jmp2 (rd : Reg) (o : Operand)
  | call2 (rd : Reg) (o : Operand)
  -- P3 ALU (41_p3_alu)
  | and (rd rs : Reg) (o : Operand)
  | or (rd rs : Reg) (o : Operand)
  | xor (rd rs : Reg) (o : Operand)
  | bitc (rd rs : Reg) (o : Operand)
  | add (rd rs : Reg) (o : Operand)
  | addc (rd rs : Reg) (o : Operand)
  | sub (rd rs : Reg) (o : Operand)
  | subb (rd rs : Reg) (o : Operand)
  | rsb (rd rs : Reg) (o : Operand)
  | rsbb (rd rs : Reg) (o : Operand)
  | lls (rd rs : Reg) (o : Operand)
  | rls (rd rs : Reg) (o : Operand)
  | ars (rd rs : Reg) (o : Operand)
  | rotl (rd rs : Reg) (o : Operand)
  | rotr (rd rs : Reg) (o : Operand)
  | mul (rd rs : Reg) (o : Operand)
  | smul (rd rs : Reg) (o : Operand)
  | div (rd rs : Reg) (o : Operand)
  | sdiv (rd rs : Reg) (o : Operand)
  -- P3 loads and stores (42_p3_load_store)
  | load (rd rs : Reg) (o : Operand)
  | loadw (rd rs : Reg) (o : Operand)
  | loadb (rd rs : Reg) (o : Operand)
  | store (rd rs : Reg) (o : Operand)
  | storew (rd rs : Reg) (o : Operand)
  | storeb (rd rs : Reg) (o : Operand)
  deriving DecidableEq, Repr

end Sys2Proof
end

