-- ==== Sys2Proof/WellFormed.lean ====
section
/-!
DEFINITION. Which instruction terms have an encoding: an inline literal must fit the literal field of its class (30_encoding R93). Registers and big literals always fit.
-/

namespace Sys2Proof

/-- An inline literal lies in the signed range of an `n`-bit field (30_encoding R93). -/
def Operand.fits (n : Nat) : Operand → Bool
  | .reg _ => true
  | .lit v => decide (-(2 ^ (n - 1) : Int) ≤ v.toInt ∧ v.toInt < 2 ^ (n - 1))
  | .big _ => true

/-- Well-formed: the inline literal fits 22 bits in P1, 18 in P2, 14 in P3 (30_encoding R93). -/
def Instr.wf : Instr → Bool
  | .sleep | .ret | .rfi => true
  | .xchgb o | .xchgw o | .getpc o | .pop o | .push o
  | .jmp o | .call o | .rjmp o | .rcall o | .int o => o.fits 22
  | .mov _ o | .swp _ o | .not _ o | .sigxb _ o | .sigxw _ o
  | .load2 _ o | .loadw2 _ o | .loadb2 _ o | .store2 _ o | .storew2 _ o | .storeb2 _ o
  | .ifeq _ o | .ifneq _ o | .ifl _ o | .ifsl _ o | .ifle _ o | .ifsle _ o
  | .ifbits _ o | .ifclear _ o | .jmp2 _ o | .call2 _ o => o.fits 18
  | .and _ _ o | .or _ _ o | .xor _ _ o | .bitc _ _ o
  | .add _ _ o | .addc _ _ o | .sub _ _ o | .subb _ _ o | .rsb _ _ o | .rsbb _ _ o
  | .lls _ _ o | .rls _ _ o | .ars _ _ o | .rotl _ _ o | .rotr _ _ o
  | .mul _ _ o | .smul _ _ o | .div _ _ o | .sdiv _ _ o
  | .load _ _ o | .loadw _ _ o | .loadb _ _ o
  | .store _ _ o | .storew _ _ o | .storeb _ _ o => o.fits 14

end Sys2Proof
end

