-- ==== Sys2Proof/Decode.lean ====
section
/-!
DEFINITION. The decoder (30_encoding R80 to R96) and, after it, the encoder written from the same formats.
-/

namespace Sys2Proof

/-! ## Decoder -/

/-- The four instruction classes (30_encoding R81). -/
inductive Class where
  | np
  | p1
  | p2
  | p3
  deriving DecidableEq, Repr

/-- The class of a word, by its top bits (30_encoding R81). -/
def Class.ofWord (w : Word) : Class :=
  if w &&& 0x80000000#32 = 0x80000000#32 then .p3
  else if w &&& 0xC0000000#32 = 0x40000000#32 then .p2
  else if w &&& 0xE0000000#32 = 0x20000000#32 then .p1
  else .np

/-- The sign-extended inline literal of a class: 14, 18 or 22 bits; NP has none (30_encoding R84 to R87, R90). -/
def inlineLiteral (c : Class) (w : Word) : Word :=
  match c with
  | .np => 0#32
  | .p1 => (w.extractLsb' 0 22).signExtend 32
  | .p2 => (w.extractLsb' 0 18).signExtend 32
  | .p3 => (w.extractLsb' 0 14).signExtend 32

/-- What the first word alone says (30_encoding R82, R83, R88, R89, R91). -/
structure Header where
  cls : Class
  op : BitVec 8
  rd : Reg
  rs : Reg
  rn : Reg
  imm : Bool
  big : Bool
  inl : Word
  deriving DecidableEq, Repr

/-- The fields of an instruction word (30_encoding R81, R83, R89, R90, R91). -/
def header (w : Word) : Header :=
  let c := Class.ofWord w
  let imm := decide (c ≠ .np) && w.getLsbD 23
  { cls := c
    op := w.extractLsb' 24 8
    rd := (w.extractLsb' 18 4).toFin
    rs := (w.extractLsb' 14 4).toFin
    rn := (w.extractLsb' 0 4).toFin
    imm := imm
    big := imm && w.getLsbD 22
    inl := inlineLiteral c w }

/-- The length in bytes: 8 with a big literal, else 4 (30_encoding R80). -/
def Header.length (h : Header) : Nat := if h.big then 8 else 4

/-- `IsIFxx`: a P2 opcode 0x4B to 0x52 (30_encoding R95). -/
def Header.isIFxx (h : Header) : Bool :=
  decide (h.cls = .p2) && decide (0x4B#8 ≤ h.op) && decide (h.op ≤ 0x52#8)

/-- The last operand, given the word after the instruction word (30_encoding R89, R90, R92). -/
def Header.operand (h : Header) (litWord : Word) : Operand :=
  if h.imm then (if h.big then .big litWord else .lit h.inl) else .reg h.rn

/-- The opcode map (30_encoding R94); an opcode absent from it is `none` (R96). -/
def instrOf (op : BitVec 8) (rd rs : Reg) (o : Operand) : Option Instr :=
  match op with
  -- NP
  | 0x00#8 => some .sleep
  | 0x01#8 => some .ret
  | 0x02#8 => some .rfi
  -- P1
  | 0x20#8 => some (.xchgb o)
  | 0x21#8 => some (.xchgw o)
  | 0x22#8 => some (.getpc o)
  | 0x23#8 => some (.pop o)
  | 0x24#8 => some (.push o)
  | 0x25#8 => some (.jmp o)
  | 0x26#8 => some (.call o)
  | 0x27#8 => some (.rjmp o)
  | 0x28#8 => some (.rcall o)
  | 0x29#8 => some (.int o)
  -- P2
  | 0x40#8 => some (.mov rd o)
  | 0x41#8 => some (.swp rd o)
  | 0x42#8 => some (.not rd o)
  | 0x43#8 => some (.sigxb rd o)
  | 0x44#8 => some (.sigxw rd o)
  | 0x45#8 => some (.load2 rd o)
  | 0x46#8 => some (.loadw2 rd o)
  | 0x47#8 => some (.loadb2 rd o)
  | 0x48#8 => some (.store2 rd o)
  | 0x49#8 => some (.storew2 rd o)
  | 0x4A#8 => some (.storeb2 rd o)
  | 0x4B#8 => some (.ifeq rd o)
  | 0x4C#8 => some (.ifneq rd o)
  | 0x4D#8 => some (.ifl rd o)
  | 0x4E#8 => some (.ifsl rd o)
  | 0x4F#8 => some (.ifle rd o)
  | 0x50#8 => some (.ifsle rd o)
  | 0x51#8 => some (.ifbits rd o)
  | 0x52#8 => some (.ifclear rd o)
  | 0x53#8 => some (.jmp2 rd o)
  | 0x54#8 => some (.call2 rd o)
  -- P3
  | 0x80#8 => some (.and rd rs o)
  | 0x81#8 => some (.or rd rs o)
  | 0x82#8 => some (.xor rd rs o)
  | 0x83#8 => some (.bitc rd rs o)
  | 0x84#8 => some (.add rd rs o)
  | 0x85#8 => some (.addc rd rs o)
  | 0x86#8 => some (.sub rd rs o)
  | 0x87#8 => some (.subb rd rs o)
  | 0x88#8 => some (.rsb rd rs o)
  | 0x89#8 => some (.rsbb rd rs o)
  | 0x8A#8 => some (.lls rd rs o)
  | 0x8B#8 => some (.rls rd rs o)
  | 0x8C#8 => some (.ars rd rs o)
  | 0x8D#8 => some (.rotl rd rs o)
  | 0x8E#8 => some (.rotr rd rs o)
  | 0x8F#8 => some (.mul rd rs o)
  | 0x90#8 => some (.smul rd rs o)
  | 0x91#8 => some (.div rd rs o)
  | 0x92#8 => some (.sdiv rd rs o)
  | 0x93#8 => some (.load rd rs o)
  | 0x94#8 => some (.loadw rd rs o)
  | 0x95#8 => some (.loadb rd rs o)
  | 0x96#8 => some (.store rd rs o)
  | 0x97#8 => some (.storew rd rs o)
  | 0x98#8 => some (.storeb rd rs o)
  | _ => none

/-- The instruction of a word and the word after it (30_encoding R88). `none`: an unassigned opcode, which the
step engine runs as a no-op (R96; notes/assumptions/17.md). -/
def decodeWords (w litWord : Word) : Option Instr :=
  let h := header w
  instrOf h.op h.rd h.rs (h.operand litWord)

/-- A little-endian word from its bytes, lowest address first (20_memory R53, R54). -/
def wordOfBytes (b0 b1 b2 b3 : Byte) : Word := b3 ++ b2 ++ b1 ++ b0

/-- A word's bytes, lowest address first (20_memory R53, R54). -/
def bytesOfWord (w : Word) : List Byte :=
  [w.extractLsb' 0 8, w.extractLsb' 8 8, w.extractLsb' 16 8, w.extractLsb' 24 8]

/-- Why bytes do not decode to an instruction of the opcode table. -/
inductive DecodeError where
  /-- Fewer bytes than the instruction is long (30_encoding R80). -/
  | truncated
  /-- An opcode of its class that the map does not assign: a no-op to the step engine (30_encoding R96). -/
  | unassigned (c : Class) (op : BitVec 8)
  deriving DecidableEq, Repr

/-- The instruction of a first word whose literal word is known, or its rejection by name (30_encoding R96). -/
def decodeOrReject (w litWord : Word) : Except DecodeError Instr :=
  match decodeWords w litWord with
  | some i => .ok i
  | none => .error (.unassigned (header w).cls (header w).op)

/-- Decoding bytes: the instruction and the bytes after it. The literal word is read only when `big` (30_encoding R80, R101). -/
def decodeBytes (bs : List Byte) : Except DecodeError (Instr × List Byte) :=
  match bs with
  | b0 :: b1 :: b2 :: b3 :: rest =>
    let w := wordOfBytes b0 b1 b2 b3
    if (header w).big then
      match rest with
      | c0 :: c1 :: c2 :: c3 :: rest' =>
        (decodeOrReject w (wordOfBytes c0 c1 c2 c3)).map fun i => (i, rest')
      | _ => .error .truncated
    else
      (decodeOrReject w 0#32).map fun i => (i, rest)
  | _ => .error .truncated

/-- The eight bytes, lowest address first, of an instruction numbered as spec/opcode_table.json numbers its bits:
the low 32 bits are the first word, the next 32 the literal word; bits from `nbits` on are 0. -/
def tableBytes (nbits w : Nat) : List Byte :=
  bytesOfWord (BitVec.ofNat 32 (w % 2 ^ nbits)) ++ bytesOfWord (BitVec.ofNat 32 ((w % 2 ^ nbits) / 2 ^ 32))

/-- The instruction the decoder reads from an opcode-table word; `none` where it rejects. -/
def decodeTableWord (nbits w : Nat) : Option Instr :=
  match decodeBytes (tableBytes nbits w) with
  | .ok (i, _) => some i
  | .error _ => none

/-! ## Encoder -/

/-- Bits M and L of an operand (30_encoding R83, R89). -/
def Operand.ml : Operand → BitVec 2
  | .reg _ => 0b00#2
  | .lit _ => 0b10#2
  | .big _ => 0b11#2

/-- The low `n` bits: `rn`, the inline literal's low bits, or zeros (30_encoding R84 to R86). Ignored bits are
written as zeros (R97; notes/assumptions/20.md). -/
def Operand.low (n : Nat) : Operand → BitVec n
  | .reg r => BitVec.ofNat n r.val
  | .lit v => v.setWidth n
  | .big _ => 0#n

/-- The literal word that follows, if any (30_encoding R80). -/
def Operand.literalWord : Operand → List Word
  | .big v => [v]
  | _ => []

/-- NP format (30_encoding R87). -/
def encodeNP (op : BitVec 8) : List Word := [op ++ 0#24]

/-- P1 format (30_encoding R86). -/
def encodeP1 (op : BitVec 8) (o : Operand) : List Word :=
  (op ++ o.ml ++ o.low 22) :: o.literalWord

/-- P2 format (30_encoding R85). -/
def encodeP2 (op : BitVec 8) (rd : Reg) (o : Operand) : List Word :=
  (op ++ o.ml ++ BitVec.ofNat 4 rd.val ++ o.low 18) :: o.literalWord

/-- P3 format (30_encoding R84). -/
def encodeP3 (op : BitVec 8) (rd rs : Reg) (o : Operand) : List Word :=
  (op ++ o.ml ++ BitVec.ofNat 4 rd.val ++ BitVec.ofNat 4 rs.val ++ o.low 14) :: o.literalWord

/-- The words of an instruction, in the order of their addresses (30_encoding R80, R84 to R87, R94). -/
def encode (i : Instr) : List Word :=
  match i with
  | .sleep => encodeNP 0x00
  | .ret => encodeNP 0x01
  | .rfi => encodeNP 0x02
  | .xchgb o => encodeP1 0x20 o
  | .xchgw o => encodeP1 0x21 o
  | .getpc o => encodeP1 0x22 o
  | .pop o => encodeP1 0x23 o
  | .push o => encodeP1 0x24 o
  | .jmp o => encodeP1 0x25 o
  | .call o => encodeP1 0x26 o
  | .rjmp o => encodeP1 0x27 o
  | .rcall o => encodeP1 0x28 o
  | .int o => encodeP1 0x29 o
  | .mov rd o => encodeP2 0x40 rd o
  | .swp rd o => encodeP2 0x41 rd o
  | .not rd o => encodeP2 0x42 rd o
  | .sigxb rd o => encodeP2 0x43 rd o
  | .sigxw rd o => encodeP2 0x44 rd o
  | .load2 rd o => encodeP2 0x45 rd o
  | .loadw2 rd o => encodeP2 0x46 rd o
  | .loadb2 rd o => encodeP2 0x47 rd o
  | .store2 rd o => encodeP2 0x48 rd o
  | .storew2 rd o => encodeP2 0x49 rd o
  | .storeb2 rd o => encodeP2 0x4A rd o
  | .ifeq rd o => encodeP2 0x4B rd o
  | .ifneq rd o => encodeP2 0x4C rd o
  | .ifl rd o => encodeP2 0x4D rd o
  | .ifsl rd o => encodeP2 0x4E rd o
  | .ifle rd o => encodeP2 0x4F rd o
  | .ifsle rd o => encodeP2 0x50 rd o
  | .ifbits rd o => encodeP2 0x51 rd o
  | .ifclear rd o => encodeP2 0x52 rd o
  | .jmp2 rd o => encodeP2 0x53 rd o
  | .call2 rd o => encodeP2 0x54 rd o
  | .and rd rs o => encodeP3 0x80 rd rs o
  | .or rd rs o => encodeP3 0x81 rd rs o
  | .xor rd rs o => encodeP3 0x82 rd rs o
  | .bitc rd rs o => encodeP3 0x83 rd rs o
  | .add rd rs o => encodeP3 0x84 rd rs o
  | .addc rd rs o => encodeP3 0x85 rd rs o
  | .sub rd rs o => encodeP3 0x86 rd rs o
  | .subb rd rs o => encodeP3 0x87 rd rs o
  | .rsb rd rs o => encodeP3 0x88 rd rs o
  | .rsbb rd rs o => encodeP3 0x89 rd rs o
  | .lls rd rs o => encodeP3 0x8A rd rs o
  | .rls rd rs o => encodeP3 0x8B rd rs o
  | .ars rd rs o => encodeP3 0x8C rd rs o
  | .rotl rd rs o => encodeP3 0x8D rd rs o
  | .rotr rd rs o => encodeP3 0x8E rd rs o
  | .mul rd rs o => encodeP3 0x8F rd rs o
  | .smul rd rs o => encodeP3 0x90 rd rs o
  | .div rd rs o => encodeP3 0x91 rd rs o
  | .sdiv rd rs o => encodeP3 0x92 rd rs o
  | .load rd rs o => encodeP3 0x93 rd rs o
  | .loadw rd rs o => encodeP3 0x94 rd rs o
  | .loadb rd rs o => encodeP3 0x95 rd rs o
  | .store rd rs o => encodeP3 0x96 rd rs o
  | .storew rd rs o => encodeP3 0x97 rd rs o
  | .storeb rd rs o => encodeP3 0x98 rd rs o

/-- The bytes of an instruction, lowest address first (20_memory R54). -/
def encodeBytes (i : Instr) : List Byte := (encode i).flatMap bytesOfWord

/-- The operand an assembler writes for a value in an `n`-bit literal field: inline if it fits, else the big form
(30_encoding R93, R100). -/
def Operand.ofValue (n : Nat) (v : Word) : Operand :=
  if (Operand.lit v).fits n then .lit v else .big v

end Sys2Proof
end

