-- ==== Sys2Proof/Config.lean ====
section
/-!
DEFINITION. What an implementation or a platform fixes and the spec leaves open (00_scope R6): the devices' answers, the cycle costs and the clock rate. An opaque constant has no body: no proof can use its value.
-/

namespace Sys2Proof

/-- The byte a device answers on the bus: a free value for each bus call (its index in the run) and address
(20_memory R61 "a bus answer it does not constrain"; 93 I13 `any value`). notes/assumptions/2.md. -/
opaque Config.deviceAnswer : Nat → Word → Byte

/-- `COST[op] - 1` for each opcode byte. The source gives no value; every entry of COST is at least 1
(40_step_engine R136, 92 D29). notes/assumptions/9.md. -/
opaque Config.costLessOne : BitVec 8 → Nat

/-- `CLOCK`, the clock-rate value given at construction; no rule reads it (70 R389). notes/assumptions/13.md. -/
opaque Config.clockRate : Nat

/-- The two cost parameters of the cycle count (00_scope R6, 40_step_engine R136). -/
structure Timing where
  /-- `COST[op]`. -/
  cost : BitVec 8 → Nat
  /-- `SKIP_COST`. -/
  skipCost : Nat

/-- `COST[op] >= 1` for every opcode byte and `SKIP_COST >= 1` (40_step_engine R136). -/
def Timing.Positive (t : Timing) : Prop := (∀ op, 1 ≤ t.cost op) ∧ 1 ≤ t.skipCost

/-- The machine's own costs: an open table, and `SKIP_COST` at its default 1 (92 D8, D29). -/
def Config.timing : Timing where
  cost op := Config.costLessOne op + 1
  skipCost := 1

end Sys2Proof
end

