-- ==== Sys2Proof/Machine/Flags.lean ====
section
/-!
DEFINITION. The bits of FLAGS (10_state R24) and every result and flag computation of the ALU (41_p3_alu R160 to R183), as functions of words.
-/

namespace Sys2Proof.Machine

/-! ## FLAGS bits -/

/-- CF, carry or borrow (10_state R24). -/
abbrev bitCF : Nat := 0
/-- OF, signed overflow (10_state R24). -/
abbrev bitOF : Nat := 1
/-- DE, sticky divide error (10_state R24). -/
abbrev bitDE : Nat := 2
/-- IF, inside a handler (10_state R24). -/
abbrev bitIF : Nat := 3
/-- EI, interrupts enabled (10_state R24). -/
abbrev bitEI : Nat := 8
/-- ESS, reserved, no effect (10_state R24). -/
abbrev bitESS : Nat := 9

/-- A word with one bit set to `b`, the others as they were (10_state R25, 41_p3_alu R180). -/
def writeBit (v : Word) (i : Nat) (b : Bool) : Word :=
  if b then v ||| (1#32 <<< i) else v &&& ~~~(1#32 <<< i)

/-! ## Results with their flags -/

/-- What an ALU operation computes: the result for rd, CF and OF. -/
structure AluOut where
  result : Word
  cf : Bool
  of : Bool
  deriving DecidableEq, Repr

/-- A result with CF and OF forced to 0 (10_state R24; R160 to R163). -/
def plainOut (r : Word) : AluOut := ⟨r, false, false⟩

/-- `a + b + cin`, CF = bit 32 of the exact sum, OF = signed overflow (41_p3_alu R181). -/
def addOut (a b : Word) (cin : Bool) : AluOut :=
  let t : BitVec 64 := a.setWidth 64 + b.setWidth 64 + (BitVec.ofBool cin).setWidth 64
  let r : Word := t.extractLsb' 0 32
  { result := r
    cf := t.getLsbD 32
    of := (a.getLsbD 31 == b.getLsbD 31) && (r.getLsbD 31 != a.getLsbD 31) }

/-- `m - s - bin`, CF = borrow, OF = signed overflow (41_p3_alu R182). -/
def subOut (m s : Word) (bin : Bool) : AluOut :=
  let r : Word := m - s - (BitVec.ofBool bin).setWidth 32
  { result := r
    cf := decide (m.toNat < s.toNat + bin.toNat)
    of := (m.getLsbD 31 != s.getLsbD 31) && (r.getLsbD 31 != m.getLsbD 31) }

/-- The shift amount `b[4:0]` (41_p3_alu R183). -/
def shiftAmount (b : Word) : Nat := (b.extractLsb' 0 5).toNat

/-- CF of a left shift or rotate: `a[32-n]`, 0 for n = 0 (41_p3_alu R170, R173, R183). -/
def leftCarry (a : Word) (n : Nat) : Bool := if n = 0 then false else a.getLsbD (32 - n)

/-- CF of a right shift or rotate: `a[n-1]`, 0 for n = 0 (41_p3_alu R171, R172, R174, R183). -/
def rightCarry (a : Word) (n : Nat) : Bool := if n = 0 then false else a.getLsbD (n - 1)

/-- LLS (41_p3_alu R170). -/
def llsOut (a b : Word) : AluOut :=
  let n := shiftAmount b
  ⟨a <<< n, leftCarry a n, false⟩

/-- RLS (41_p3_alu R171). -/
def rlsOut (a b : Word) : AluOut :=
  let n := shiftAmount b
  ⟨a >>> n, rightCarry a n, false⟩

/-- ARS (41_p3_alu R172). -/
def arsOut (a b : Word) : AluOut :=
  let n := shiftAmount b
  ⟨a.sshiftRight n, rightCarry a n, false⟩

/-- ROTL (41_p3_alu R173). -/
def rotlOut (a b : Word) : AluOut :=
  let n := shiftAmount b
  ⟨if n = 0 then a else (a <<< n) ||| (a >>> (32 - n)), leftCarry a n, false⟩

/-- ROTR (41_p3_alu R174). -/
def rotrOut (a b : Word) : AluOut :=
  let n := shiftAmount b
  ⟨if n = 0 then a else (a >>> n) ||| (a <<< (32 - n)), rightCarry a n, false⟩

/-! ## Multiply and divide -/

/-- What a multiplication or division computes: the values for rd and for Y. -/
structure YOut where
  result : Word
  y : Word
  deriving DecidableEq, Repr

/-- The halves of a 64-bit product: low for rd, high for Y (41_p3_alu R175, R176). -/
def productOut (p : BitVec 64) : YOut := ⟨p.extractLsb' 0 32, p.extractLsb' 32 32⟩

/-- MUL: the exact unsigned product (41_p3_alu R175). -/
def mulOut (a b : Word) : YOut := productOut (BitVec.ofNat 64 (a.toNat * b.toNat))

/-- SMUL: the exact signed product (41_p3_alu R176). -/
def smulOut (a b : Word) : YOut := productOut (BitVec.ofInt 64 (a.toInt * b.toInt))

/-- DIV by a non-zero divisor: floor quotient and remainder (41_p3_alu R177). -/
def divOut (a b : Word) : YOut :=
  ⟨BitVec.ofNat 32 (a.toNat / b.toNat), BitVec.ofNat 32 (a.toNat % b.toNat)⟩

/-- SDIV by a non-zero divisor: the quotient rounded toward zero and the rest; `ovf` answers
0x80000000 / 0xFFFFFFFF (41_p3_alu R178). -/
def sdivOut (ovf : YOut) (a b : Word) : YOut :=
  if a = 0x80000000#32 ∧ b = 0xFFFFFFFF#32 then ovf
  else
    let q := a.toInt.tdiv b.toInt
    ⟨BitVec.ofInt 32 q, BitVec.ofInt 32 (a.toInt - q * b.toInt)⟩

end Sys2Proof.Machine
end

