-- ==== Sys2Proof/Machine/State.lean ====
section
/-!
DEFINITION. The state of the core and of the bus as the core sees it, as plain data; the ways a step can stop; the state after reset.
-/

namespace Sys2Proof.Machine

/-- The three widths of a bus call: `B`, `W` and `DW` (20_memory R51, R56). -/
inductive Width where
  | byte
  | word
  | dword
  deriving DecidableEq, Repr

/-- One call of the core to the bus (20_memory R51); a write carries the value written. -/
inductive BusCall where
  | read (w : Width) (a : Word)
  | write (w : Width) (a : Word) (v : Word)
  deriving DecidableEq, Repr

/-- An address window behind which a device answers (20_memory R50, R58). `size` counts bytes from `base`, modulo 2^32. -/
structure Window where
  base : Word
  size : Nat
  deriving DecidableEq, Repr

/-- The bus's optional debug probes (40_step_engine R122): `isHalted()` and the addresses at which `isBreakPoint` is true. -/
structure Probes where
  halted : Bool
  breakPoints : List Word
  deriving DecidableEq, Repr

/-- The parameters to which the spec gives a default (00_scope R6); notes/assumptions/8.md. -/
structure Params where
  /-- `STEP_INT_MSG` (40_step_engine R127). -/
  stepIntMsg : BitVec 8
  /-- The quotient of `SDIV_OVF` (41_p3_alu R178). -/
  sdivOvfQuotient : Word
  /-- The remainder of `SDIV_OVF` (41_p3_alu R178). -/
  sdivOvfRemainder : Word
  deriving DecidableEq, Repr

/-- Plain memory: (address, byte) pairs, addresses strictly rising, no byte 0 listed (20_memory R52; `Memory.wf`). -/
abbrev Memory := List Host.Cell

/-- The machine. The first eight fields are the core (10_state R20, R26, R31; 70 R387: "all mutable core state"); the rest is the
bus and the platform (10_state R35), which no reset of the core touches (70 R380). -/
structure State where
  /-- r0..r15 (10_state R20, R21). -/
  regs : Vector Word 16
  /-- The program counter (10_state R26). -/
  pc : Word
  /-- `wait_cycles` (10_state R31). -/
  waitCycles : BitVec 32
  /-- `int_msg` (10_state R31). -/
  intMsg : BitVec 8
  /-- `interrupt`: an interrupt is pending (10_state R31). -/
  interrupt : Bool
  /-- `step_mode` (10_state R31). -/
  stepMode : Bool
  /-- `skiping`: in a skip chain (10_state R31). -/
  skiping : Bool
  /-- `sleeping`: waiting for an interrupt (10_state R31). -/
  sleeping : Bool
  /-- Plain memory (20_memory R52, R53). -/
  mem : Memory
  /-- The bus calls made so far, in order: the model's own field (20_memory R51, R57, R58; notes/assumptions/5.md). -/
  busLog : List BusCall
  /-- Whether a bus is attached (00_scope R13). -/
  busAttached : Bool
  /-- The bus's debug probes, if it has any (40_step_engine R122). -/
  busProbes : Option Probes
  /-- Where devices answer instead of plain memory (20_memory R52, R58; 93 I13). -/
  devices : List Window
  /-- The parameters with a default (00_scope R6). -/
  params : Params
  deriving DecidableEq, Repr

/-- No fault exists: "The core raises no synchronous exception" (60_exceptions R330), and no condition is surfaced as an
error during execution. Nothing raises one, so the type has no constructor (safe; notes/assumptions/21.md). -/
inductive Fault where
  deriving DecidableEq, Repr

/-- Why a step has no meaning. -/
inductive Refusal where
  /-- An arm of `exec` without a meaning; none is left. Raised by nothing (safe). -/
  | notModelled (mnemonic : String)
  /-- `Step` or `Tick` with no bus attached: "A model gives such a call no step: it refuses it" (00_scope R13, 60 R330, 92 D44).
  Raised by `stepCycles` and `tick`, by no instruction (safe). -/
  | noBus
  deriving DecidableEq, Repr

/-- What an instruction or a step answers. -/
abbrev Result := Host.Outcome State Fault Refusal

/-- The defaults of the parameters (00_scope R6; 92 D10, D19). -/
def Params.default : Params where
  stepIntMsg := 0#8
  sdivOvfQuotient := 0x80000000#32
  sdivOvfRemainder := 0#32

/-- The machine right after reset (10_state R36, 70 R380, R381), on a bus of plain memory with nothing written, no probe and
no device (notes/assumptions/1.md, 2.md, 5.md, 6.md, 7.md, 8.md). -/
def State.reset : State where
  regs := Vector.replicate 16 0#32
  pc := 0x00100000#32
  waitCycles := 0#32
  intMsg := 0#8
  interrupt := false
  stepMode := false
  skiping := false
  sleeping := false
  mem := []
  busLog := []
  busAttached := true
  busProbes := none
  devices := []
  params := Params.default

end Sys2Proof.Machine
end

