-- ==== Sys2Proof/Machine/Memory.lean ====
section
/-!
DEFINITION. Plain memory in one canonical form (20_memory R52): what an unlisted address reads as, reading and writing one byte.
-/

namespace Sys2Proof.Machine

/-- What an unlisted address reads as. DESIGN CHOICE: the spec leaves initial contents to the platform (20_memory R52, R59);
notes/assumptions/1.md. -/
def Memory.unwritten : Byte := 0#8

/-- The byte at an address. -/
def Memory.read : Memory → Nat → Byte
  | [], _ => Memory.unwritten
  | (k, v) :: m, a => if a = k then v else Memory.read m a

/-- The listing without an address. -/
def Memory.erase (m : Memory) (a : Nat) : Memory := m.filter fun c => c.1 != a

/-- The listing with an address set to a byte, in address order. -/
def Memory.insert : Memory → Nat → Byte → Memory
  | [], a, b => [(a, b)]
  | (k, v) :: m, a, b =>
    if a < k then (a, b) :: (k, v) :: m
    else if a = k then (a, b) :: m
    else (k, v) :: Memory.insert m a b

/-- Writing one byte. The value an unlisted address reads as is not listed. -/
def Memory.write (m : Memory) (a : Nat) (b : Byte) : Memory :=
  if b = Memory.unwritten then m.erase a else m.insert a b

/-- The canonical form from an address on: addresses rising, below 2^32, no byte that an unlisted address reads as. -/
def Memory.wfFrom : Nat → Memory → Bool
  | _, [] => true
  | lo, (k, v) :: m => decide (lo ≤ k) && decide (k < 2 ^ 32) && decide (v ≠ Memory.unwritten) && Memory.wfFrom (k + 1) m

/-- The canonical form: equal memories are equal lists. -/
def Memory.wf (m : Memory) : Bool := Memory.wfFrom 0 m

end Sys2Proof.Machine
end

