-- ==== Sys2Proof/Machine/Ops.lean ====
section
/-!
DEFINITION. The named operations over registers, FLAGS, the bus and the stack, and the interrupt controller: latching, taking and returning from an interrupt.
-/

namespace Sys2Proof.Machine

/-! ## Registers and sequencer bits -/

/-- `x[r]` (00_scope R8, 10_state R22). -/
def State.reg (s : State) (r : Reg) : Word := s.regs[r.val]

/-- `x[r] <- v` (00_scope R8, 10_state R22). -/
def State.setReg (s : State) (r : Reg) (v : Word) : State := { s with regs := s.regs.set r.val v }

/-- `pc <- t`, unmasked (00_scope R8). -/
def State.setPc (s : State) (t : Word) : State := { s with pc := t }

/-- `wait_cycles <- n` (40_step_engine R135). -/
def State.setWaitCycles (s : State) (n : BitVec 32) : State := { s with waitCycles := n }

/-- `int_msg <- m` (60 R332). -/
def State.setIntMsg (s : State) (m : BitVec 8) : State := { s with intMsg := m }

/-- `interrupt <- b` (60 R332, R333). -/
def State.setInterrupt (s : State) (b : Bool) : State := { s with interrupt := b }

/-- `skiping <- b` (40_step_engine R130, R131). -/
def State.setSkiping (s : State) (b : Bool) : State := { s with skiping := b }

/-- `sleeping <- b` (46_np R310, 60 R336). -/
def State.setSleeping (s : State) (b : Bool) : State := { s with sleeping := b }

/-! ## FLAGS -/

/-- Bit `i` of r15 (10_state R24). -/
def State.flag (s : State) (i : Nat) : Bool := (s.reg .flags).getLsbD i

/-- Sets bit `i` of r15, every other bit kept (10_state R25, 41_p3_alu R180). -/
def State.setFlag (s : State) (i : Nat) (b : Bool) : State := s.setReg .flags (writeBit (s.reg .flags) i b)

/-- The end of an ALU instruction: rd, then CF and OF (41_p3_alu R179). -/
def State.writeAlu (s : State) (rd : Reg) (o : AluOut) : State :=
  ((s.setReg rd o.result).setFlag bitCF o.cf).setFlag bitOF o.of

/-- The end of a multiplication or division: rd, then Y, then CF = OF = 0 (41_p3_alu R179). -/
def State.writeAluY (s : State) (rd : Reg) (o : YOut) : State :=
  (((s.setReg rd o.result).setReg .y o.y).setFlag bitCF false).setFlag bitOF false

/-- A division by zero: DE set, CF = OF = 0, no result written (41_p3_alu R177, R178, R179). -/
def State.divideError (s : State) : State :=
  ((s.setFlag bitDE true).setFlag bitCF false).setFlag bitOF false

/-! ## The bus -/

/-- Whether a window covers an address. -/
def Window.covers (d : Window) (a : Word) : Bool := decide ((a - d.base).toNat < d.size)

/-- Whether a device answers at an address (20_memory R58; notes/assumptions/2.md). -/
def State.isDevice (s : State) (a : Word) : Bool := s.devices.any fun d => d.covers a

/-- The byte of plain memory at an address. -/
def State.peek (s : State) (a : Word) : Byte := s.mem.read a.toNat

/-- Bytes moved by a call of a width (20_memory R56). -/
def Width.bytes : Width → Nat
  | .byte => 1
  | .word => 2
  | .dword => 4

/-- The low 8n bits of a value, zero-extended (00_scope R8). -/
def Width.trunc : Width → Word → Word
  | .byte, v => (v.setWidth 8).setWidth 32
  | .word, v => (v.setWidth 16).setWidth 32
  | .dword, v => v

/-- The byte of a bus answer at `a + k` modulo 2^32: plain memory's, or, where a device answers, a free one
(20_memory R52, R55, R61; notes/assumptions/2.md, 3.md). -/
def State.answer (s : State) (a : Word) (k : Nat) : Byte :=
  let at_ := a + BitVec.ofNat 32 k
  if s.isDevice at_ then Config.deviceAnswer s.busLog.length at_ else s.peek at_

/-- The value a bus read answers, little-endian, zero-extended to 32 bits (20_memory R51, R53). -/
def State.readValue (s : State) (w : Width) (a : Word) : Word :=
  match w with
  | .byte => (s.answer a 0).setWidth 32
  | .word => (s.answer a 1 ++ s.answer a 0).setWidth 32
  | .dword => s.answer a 3 ++ s.answer a 2 ++ s.answer a 1 ++ s.answer a 0

/-- Notes a bus call (notes/assumptions/5.md). -/
def State.logCall (s : State) (c : BusCall) : State := { s with busLog := s.busLog ++ [c] }

/-- `MemRead`: one bus read call (20_memory R51). -/
def State.busRead (s : State) (w : Width) (a : Word) : Word × State :=
  (s.readValue w a, s.logCall (.read w a))

/-- Writes one byte of plain memory; a device's byte is the device's (20_memory R58; notes/assumptions/4.md). -/
def State.poke (s : State) (a : Word) (b : Byte) : State :=
  if s.isDevice a then s else { s with mem := s.mem.write a.toNat b }

/-- Writes the low `n` bytes of a value at `a`, `a+1`, ..., little-endian, addresses modulo 2^32 (20_memory R53, R55). DESIGN
CHOICE: of a write that straddles a device window, which R55 leaves to the bus, each byte outside the window reaches plain memory
and each byte inside it does not (notes/assumptions/3.md, 4.md). -/
def State.pokeBytes (s : State) (a v : Word) (n : Nat) : State :=
  (List.range n).foldl (fun t k => t.poke (a + BitVec.ofNat 32 k) (v.extractLsb' (8 * k) 8)) s

/-- `MemWrite`: one bus write call of the low bits of `v` (20_memory R51). -/
def State.busWrite (s : State) (w : Width) (a v : Word) : State :=
  (s.logCall (.write w a (w.trunc v))).pokeBytes a v w.bytes

/-! ## Stack and jumps -/

/-- One byte of a push: SP down by 1, then byte `k` of `v` written there (40_step_engine R140). -/
def State.pushByte (v : Word) (s : State) (k : Nat) : State :=
  let s := s.setReg .sp (s.reg .sp - 1#32)
  s.busWrite .byte (s.reg .sp) ((v.extractLsb' (8 * k) 8).setWidth 32)

/-- `Push32`: four byte writes, most significant byte first, each after a pre-decrement (40_step_engine R138, R140). -/
def State.push32 (s : State) (v : Word) : State := [3, 2, 1, 0].foldl (State.pushByte v) s

/-- `Pop32`: one read at SP, then SP up by 4 (40_step_engine R141). -/
def State.pop32 (s : State) : Word × State :=
  let (v, s) := s.busRead .dword (s.reg .sp)
  (v, s.setReg .sp (s.reg .sp + 4#32))

/-- `Jump`: the masked transfer (40_step_engine R142). -/
def State.jump (s : State) (t : Word) : State := s.setPc (t &&& 0xFFFFFFFC#32)

/-- A call: the return address pushed, then the masked transfer to a target computed before (45_p1 R286, 44 R259). -/
def State.call (s : State) (t : Word) : State := (s.push32 s.pc).jump t

/-! ## The interrupt controller -/

/-- `SendInterrupt(msg)`: latches `msg[7:0]` if EI, and says whether it did (60 R332). -/
def State.sendInterrupt (s : State) (msg : Word) : Bool × State :=
  if s.flag bitEI then (true, (s.setInterrupt true).setIntMsg (msg.setWidth 8)) else (false, s)

/-- The address of the vector of the pending message: `x[14] + 4 * int_msg` modulo 2^32 (60 R335). -/
def State.vectorAddress (s : State) : Word := s.reg .ia + (s.intMsg.setWidth 32 <<< 2)

/-- Taking an interrupt through a non-zero vector: r0 pushed, pc pushed, r0 := message, pc := vector unmasked, IF set, the
pending bit and `sleeping` cleared, in this order (60 R336). -/
def State.enterInterrupt (s : State) (vec : Word) : State :=
  let s := s.push32 (s.reg .r0)
  let s := s.push32 s.pc
  let s := s.setReg .r0 (s.intMsg.setWidth 32)
  let s := s.setPc vec
  let s := s.setFlag bitIF true
  let s := s.setInterrupt false
  s.setSleeping false

/-- When a pending interrupt is accepted: EI, pending, not skipping; IF is not consulted (60 R334). -/
def State.accepts (s : State) : Bool := s.flag bitEI && s.interrupt && !s.skiping

/-- `ProcessInterrupt()`: the vector read, then entry, or only the pending bit cleared for a null vector (60 R333, R337). -/
def State.processInterrupt (s : State) : State :=
  if s.accepts then
    let (vec, s) := s.busRead .dword s.vectorAddress
    if vec = 0#32 then s.setInterrupt false else s.enterInterrupt vec
  else s

/-- The return from an interrupt: pc popped unmasked, r0 popped, IF cleared, a pending interrupt discarded (46_np R312, 60 R341). -/
def State.returnFromInterrupt (s : State) : State :=
  let (pc, s) := s.pop32
  let s := s.setPc pc
  let (r0, s) := s.pop32
  let s := s.setReg .r0 r0
  let s := s.setFlag bitIF false
  s.setInterrupt false

end Sys2Proof.Machine
end

