-- ==== Sys2Proof/Machine/Operands.lean ====
section
/-!
DEFINITION. Operand forms: the value of `rn|lit`, the register it names if any, effective addresses and jump targets.
-/

namespace Sys2Proof.Machine

/-- `op2`: the register's value or the literal (30_encoding R92). -/
def State.op2 (s : State) : Operand → Word
  | .reg r => s.reg r
  | .lit v => v
  | .big v => v

/-- The effect of an instruction that works on the register its operand names; its literal forms, big literal included,
write nothing (30_encoding R98, 45_p1 R290, 43 R221). -/
def State.onRegister (s : State) (o : Operand) (f : Reg → State) : State :=
  match o with
  | .reg r => f r
  | .lit _ => s
  | .big _ => s

/-- The P3 effective address `x[rs] + op2` modulo 2^32 (42 R206). -/
def State.ea3 (s : State) (rs : Reg) (o : Operand) : Word := s.reg rs + s.op2 o

/-- The P2 effective address `op2` (43 R232). -/
def State.ea2 (s : State) (o : Operand) : Word := s.op2 o

/-- The target of JMP2 and CALL2 before masking: `x[rd] + op2` (44 R261). -/
def State.target2 (s : State) (rd : Reg) (o : Operand) : Word := s.reg rd + s.op2 o

/-- The target of RJMP and RCALL before masking: `npc + op2` (45_p1 R291). -/
def State.targetRel (s : State) (o : Operand) : Word := s.pc + s.op2 o

/-- A load: one bus read of a width at `ea`, zero-extended into rd (42 R207). -/
def State.loadTo (s : State) (w : Width) (rd : Reg) (ea : Word) : State :=
  let (v, s) := s.busRead w ea
  s.setReg rd v

/-- A store: one bus write of a width at `ea` from the low bits of rd (42 R207). -/
def State.storeFrom (s : State) (w : Width) (rd : Reg) (ea : Word) : State := s.busWrite w ea (s.reg rd)

/-- The end of a conditional: a false condition starts a skip (40_step_engine R130, 44 R260). -/
def State.skipUnless (s : State) (cond : Bool) : State := if cond then s else s.setSkiping true

end Sys2Proof.Machine
end

