-- ==== Sys2Proof/Machine/NP.lean ====
section
/-!
DEFINITION. The NP instructions (46_np).
-/

namespace Sys2Proof.Machine

/-- SLEEP: sleep until an interrupt is accepted (46_np R310). -/
def execSleep (s : State) : Host.Outcome State Fault Refusal :=
  .next (s.setSleeping true)

/-- RET: pop the return address and jump, masked (46_np R311). -/
def execRet (s : State) : Host.Outcome State Fault Refusal :=
  let (t, s) := s.pop32
  .next (s.jump t)

/-- RFI: return from interrupt (46_np R312). -/
def execRfi (s : State) : Host.Outcome State Fault Refusal :=
  .next s.returnFromInterrupt

end Sys2Proof.Machine
end

