-- ==== Sys2Proof/Machine/P1.lean ====
section
/-!
DEFINITION. The P1 instructions (45_p1). `s.pc` is `npc`, the address after the instruction (40_step_engine R123).
-/

namespace Sys2Proof.Machine

/-- XCHGB: exchange the two low bytes of a register; the literal form writes nothing (45_p1 R280). -/
def execXchgb (o : Operand) (s : State) : Host.Outcome State Fault Refusal :=
  .next (s.onRegister o fun rn =>
    let v := s.reg rn
    s.setReg rn (v.extractLsb' 16 16 ++ v.extractLsb' 0 8 ++ v.extractLsb' 8 8))

/-- XCHGW: exchange the halves of a register; the literal form writes nothing (45_p1 R281). -/
def execXchgw (o : Operand) (s : State) : Host.Outcome State Fault Refusal :=
  .next (s.onRegister o fun rn =>
    let v := s.reg rn
    s.setReg rn (v.extractLsb' 0 16 ++ v.extractLsb' 16 16))

/-- GETPC: the address after the instruction; the literal form writes nothing (45_p1 R282). -/
def execGetpc (o : Operand) (s : State) : Host.Outcome State Fault Refusal :=
  .next (s.onRegister o fun rn => s.setReg rn s.pc)

/-- POP: the word at SP to rn, then SP up by 4 (`POP %sp` leaves the word plus 4); the literal form reads and writes nothing (45_p1 R283). -/
def execPop (o : Operand) (s : State) : Host.Outcome State Fault Refusal :=
  .next (s.onRegister o fun rn =>
    let (v, s) := s.busRead .dword (s.reg .sp)
    let s := s.setReg rn v
    s.setReg .sp (s.reg .sp + 4#32))

/-- PUSH: push a value, SP read before the push (45_p1 R284). -/
def execPush (o : Operand) (s : State) : Host.Outcome State Fault Refusal :=
  .next (s.push32 (s.op2 o))

/-- JMP: absolute jump (45_p1 R285). -/
def execJmp (o : Operand) (s : State) : Host.Outcome State Fault Refusal :=
  .next (s.jump (s.op2 o))

/-- CALL: absolute call, target read before the push (45_p1 R286). -/
def execCall (o : Operand) (s : State) : Host.Outcome State Fault Refusal :=
  .next (s.call (s.op2 o))

/-- RJMP: relative jump (45_p1 R287). -/
def execRjmp (o : Operand) (s : State) : Host.Outcome State Fault Refusal :=
  .next (s.jump (s.targetRel o))

/-- RCALL: relative call (45_p1 R288). -/
def execRcall (o : Operand) (s : State) : Host.Outcome State Fault Refusal :=
  .next (s.call (s.targetRel o))

/-- INT: latches an interrupt if EI; it is taken at the end of the same step (45_p1 R289). -/
def execInt (o : Operand) (s : State) : Host.Outcome State Fault Refusal :=
  .next ((s.sendInterrupt (s.op2 o)).2)

end Sys2Proof.Machine
end

