-- ==== Sys2Proof/Machine/P2Data.lean ====
section
/-!
DEFINITION. The P2 data instructions (43_p2_data). None writes a FLAGS bit but by naming r15 (R231).
-/

namespace Sys2Proof.Machine

/-- MOV: copy (43 R220). -/
def execMov (rd : Reg) (o : Operand) (s : State) : Host.Outcome State Fault Refusal :=
  .next (s.setReg rd (s.op2 o))

/-- SWP: exchange two registers; the literal form writes nothing (43 R221). -/
def execSwp (rd : Reg) (o : Operand) (s : State) : Host.Outcome State Fault Refusal :=
  .next (s.onRegister o fun rn => (s.setReg rd (s.reg rn)).setReg rn (s.reg rd))

/-- NOT: bitwise complement (43 R222). -/
def execNot (rd : Reg) (o : Operand) (s : State) : Host.Outcome State Fault Refusal :=
  .next (s.setReg rd (~~~(s.op2 o)))

/-- SIGXB: sign-extend a byte (43 R223). -/
def execSigxb (rd : Reg) (o : Operand) (s : State) : Host.Outcome State Fault Refusal :=
  .next (s.setReg rd (((s.op2 o).setWidth 8).signExtend 32))

/-- SIGXW: sign-extend a 16-bit word (43 R224). -/
def execSigxw (rd : Reg) (o : Operand) (s : State) : Host.Outcome State Fault Refusal :=
  .next (s.setReg rd (((s.op2 o).setWidth 16).signExtend 32))

/-- LOAD2: load 32 bits from an absolute address (43 R225). -/
def execLoad2 (rd : Reg) (o : Operand) (s : State) : Host.Outcome State Fault Refusal :=
  .next (s.loadTo .dword rd (s.ea2 o))

/-- LOADW2: load 16 bits, zero-extended (43 R226). -/
def execLoadw2 (rd : Reg) (o : Operand) (s : State) : Host.Outcome State Fault Refusal :=
  .next (s.loadTo .word rd (s.ea2 o))

/-- LOADB2: load 8 bits, zero-extended (43 R227). -/
def execLoadb2 (rd : Reg) (o : Operand) (s : State) : Host.Outcome State Fault Refusal :=
  .next (s.loadTo .byte rd (s.ea2 o))

/-- STORE2: store 32 bits to an absolute address (43 R228). -/
def execStore2 (rd : Reg) (o : Operand) (s : State) : Host.Outcome State Fault Refusal :=
  .next (s.storeFrom .dword rd (s.ea2 o))

/-- STOREW2: store the low 16 bits (43 R229). -/
def execStorew2 (rd : Reg) (o : Operand) (s : State) : Host.Outcome State Fault Refusal :=
  .next (s.storeFrom .word rd (s.ea2 o))

/-- STOREB2: store the low 8 bits (43 R230). -/
def execStoreb2 (rd : Reg) (o : Operand) (s : State) : Host.Outcome State Fault Refusal :=
  .next (s.storeFrom .byte rd (s.ea2 o))

end Sys2Proof.Machine
end

