-- ==== Sys2Proof/Machine/P2Jump.lean ====
section
/-!
DEFINITION. The P2 conditionals and register-relative jumps (44_p2_conditional_jump).
-/

namespace Sys2Proof.Machine

/-- IFEQ: the next instruction runs if equal (44 R250). -/
def execIfeq (rd : Reg) (o : Operand) (s : State) : Host.Outcome State Fault Refusal :=
  .next (s.skipUnless (decide (s.reg rd = s.op2 o)))

/-- IFNEQ: if not equal (44 R251). -/
def execIfneq (rd : Reg) (o : Operand) (s : State) : Host.Outcome State Fault Refusal :=
  .next (s.skipUnless (decide (s.reg rd ≠ s.op2 o)))

/-- IFL: if lower, unsigned (44 R252). -/
def execIfl (rd : Reg) (o : Operand) (s : State) : Host.Outcome State Fault Refusal :=
  .next (s.skipUnless (decide ((s.reg rd).toNat < (s.op2 o).toNat)))

/-- IFSL: if lower, signed (44 R253). -/
def execIfsl (rd : Reg) (o : Operand) (s : State) : Host.Outcome State Fault Refusal :=
  .next (s.skipUnless (decide ((s.reg rd).toInt < (s.op2 o).toInt)))

/-- IFLE: if lower or equal, unsigned (44 R254). -/
def execIfle (rd : Reg) (o : Operand) (s : State) : Host.Outcome State Fault Refusal :=
  .next (s.skipUnless (decide ((s.reg rd).toNat ≤ (s.op2 o).toNat)))

/-- IFSLE: if lower or equal, signed (44 R255). -/
def execIfsle (rd : Reg) (o : Operand) (s : State) : Host.Outcome State Fault Refusal :=
  .next (s.skipUnless (decide ((s.reg rd).toInt ≤ (s.op2 o).toInt)))

/-- IFBITS: if any bit of b is set in a (44 R256). -/
def execIfbits (rd : Reg) (o : Operand) (s : State) : Host.Outcome State Fault Refusal :=
  .next (s.skipUnless (decide (s.reg rd &&& s.op2 o ≠ 0#32)))

/-- IFCLEAR: if every bit of b is clear in a (44 R257). -/
def execIfclear (rd : Reg) (o : Operand) (s : State) : Host.Outcome State Fault Refusal :=
  .next (s.skipUnless (decide (s.reg rd &&& s.op2 o = 0#32)))

/-- JMP2: jump to register plus offset (44 R258). -/
def execJmp2 (rd : Reg) (o : Operand) (s : State) : Host.Outcome State Fault Refusal :=
  .next (s.jump (s.target2 rd o))

/-- CALL2: call register plus offset, target computed before the push (44 R259). -/
def execCall2 (rd : Reg) (o : Operand) (s : State) : Host.Outcome State Fault Refusal :=
  .next (s.call (s.target2 rd o))

end Sys2Proof.Machine
end

