-- ==== Sys2Proof/Machine/P3Alu.lean ====
section
/-!
DEFINITION. The P3 ALU instructions (41_p3_alu). Operands are read from the state before any write (10_state R23).
-/

namespace Sys2Proof.Machine

/-- AND: bitwise AND (41_p3_alu R160). -/
def execAnd (rd rs : Reg) (o : Operand) (s : State) : Host.Outcome State Fault Refusal :=
  .next (s.writeAlu rd (plainOut (s.reg rs &&& s.op2 o)))

/-- OR: bitwise inclusive OR (41_p3_alu R161). -/
def execOr (rd rs : Reg) (o : Operand) (s : State) : Host.Outcome State Fault Refusal :=
  .next (s.writeAlu rd (plainOut (s.reg rs ||| s.op2 o)))

/-- XOR: bitwise exclusive OR (41_p3_alu R162). -/
def execXor (rd rs : Reg) (o : Operand) (s : State) : Host.Outcome State Fault Refusal :=
  .next (s.writeAlu rd (plainOut (s.reg rs ^^^ s.op2 o)))

/-- BITC: bit clear, `rs & ~rn` (41_p3_alu R163). -/
def execBitc (rd rs : Reg) (o : Operand) (s : State) : Host.Outcome State Fault Refusal :=
  .next (s.writeAlu rd (plainOut (s.reg rs &&& ~~~(s.op2 o))))

/-- ADD: addition (41_p3_alu R164). -/
def execAdd (rd rs : Reg) (o : Operand) (s : State) : Host.Outcome State Fault Refusal :=
  .next (s.writeAlu rd (addOut (s.reg rs) (s.op2 o) false))

/-- ADDC: addition with the incoming CF (41_p3_alu R165). -/
def execAddc (rd rs : Reg) (o : Operand) (s : State) : Host.Outcome State Fault Refusal :=
  .next (s.writeAlu rd (addOut (s.reg rs) (s.op2 o) (s.flag bitCF)))

/-- SUB: `rs - rn` (41_p3_alu R166). -/
def execSub (rd rs : Reg) (o : Operand) (s : State) : Host.Outcome State Fault Refusal :=
  .next (s.writeAlu rd (subOut (s.reg rs) (s.op2 o) false))

/-- SUBB: `rs - rn - CF` (41_p3_alu R167). -/
def execSubb (rd rs : Reg) (o : Operand) (s : State) : Host.Outcome State Fault Refusal :=
  .next (s.writeAlu rd (subOut (s.reg rs) (s.op2 o) (s.flag bitCF)))

/-- RSB: `rn - rs` (41_p3_alu R168). -/
def execRsb (rd rs : Reg) (o : Operand) (s : State) : Host.Outcome State Fault Refusal :=
  .next (s.writeAlu rd (subOut (s.op2 o) (s.reg rs) false))

/-- RSBB: `rn - rs - CF` (41_p3_alu R169). -/
def execRsbb (rd rs : Reg) (o : Operand) (s : State) : Host.Outcome State Fault Refusal :=
  .next (s.writeAlu rd (subOut (s.op2 o) (s.reg rs) (s.flag bitCF)))

/-- LLS: logical left shift (41_p3_alu R170). -/
def execLls (rd rs : Reg) (o : Operand) (s : State) : Host.Outcome State Fault Refusal :=
  .next (s.writeAlu rd (llsOut (s.reg rs) (s.op2 o)))

/-- RLS: logical right shift (41_p3_alu R171). -/
def execRls (rd rs : Reg) (o : Operand) (s : State) : Host.Outcome State Fault Refusal :=
  .next (s.writeAlu rd (rlsOut (s.reg rs) (s.op2 o)))

/-- ARS: arithmetic right shift (41_p3_alu R172). -/
def execArs (rd rs : Reg) (o : Operand) (s : State) : Host.Outcome State Fault Refusal :=
  .next (s.writeAlu rd (arsOut (s.reg rs) (s.op2 o)))

/-- ROTL: rotate left (41_p3_alu R173). -/
def execRotl (rd rs : Reg) (o : Operand) (s : State) : Host.Outcome State Fault Refusal :=
  .next (s.writeAlu rd (rotlOut (s.reg rs) (s.op2 o)))

/-- ROTR: rotate right (41_p3_alu R174). -/
def execRotr (rd rs : Reg) (o : Operand) (s : State) : Host.Outcome State Fault Refusal :=
  .next (s.writeAlu rd (rotrOut (s.reg rs) (s.op2 o)))

/-- MUL: unsigned product, high word to Y (41_p3_alu R175). -/
def execMul (rd rs : Reg) (o : Operand) (s : State) : Host.Outcome State Fault Refusal :=
  .next (s.writeAluY rd (mulOut (s.reg rs) (s.op2 o)))

/-- SMUL: signed product, high word to Y (41_p3_alu R176). -/
def execSmul (rd rs : Reg) (o : Operand) (s : State) : Host.Outcome State Fault Refusal :=
  .next (s.writeAluY rd (smulOut (s.reg rs) (s.op2 o)))

/-- DIV: unsigned division, remainder to Y; a zero divisor sets DE and writes no result (41_p3_alu R177). -/
def execDiv (rd rs : Reg) (o : Operand) (s : State) : Host.Outcome State Fault Refusal :=
  .next (if s.op2 o = 0#32 then s.divideError else s.writeAluY rd (divOut (s.reg rs) (s.op2 o)))

/-- SDIV: signed division toward zero, remainder to Y; a zero divisor sets DE and writes no result (41_p3_alu R178). -/
def execSdiv (rd rs : Reg) (o : Operand) (s : State) : Host.Outcome State Fault Refusal :=
  .next (if s.op2 o = 0#32 then s.divideError
    else s.writeAluY rd (sdivOut ⟨s.params.sdivOvfQuotient, s.params.sdivOvfRemainder⟩ (s.reg rs) (s.op2 o)))

end Sys2Proof.Machine
end

