-- ==== Sys2Proof/Machine/P3LoadStore.lean ====
section
/-!
DEFINITION. The P3 loads and stores (42_p3_load_store).
-/

namespace Sys2Proof.Machine

/-- LOAD: load 32 bits (42 R200). -/
def execLoad (rd rs : Reg) (o : Operand) (s : State) : Host.Outcome State Fault Refusal :=
  .next (s.loadTo .dword rd (s.ea3 rs o))

/-- LOADW: load 16 bits, zero-extended (42 R201). -/
def execLoadw (rd rs : Reg) (o : Operand) (s : State) : Host.Outcome State Fault Refusal :=
  .next (s.loadTo .word rd (s.ea3 rs o))

/-- LOADB: load 8 bits, zero-extended (42 R202). -/
def execLoadb (rd rs : Reg) (o : Operand) (s : State) : Host.Outcome State Fault Refusal :=
  .next (s.loadTo .byte rd (s.ea3 rs o))

/-- STORE: store 32 bits (42 R203). -/
def execStore (rd rs : Reg) (o : Operand) (s : State) : Host.Outcome State Fault Refusal :=
  .next (s.storeFrom .dword rd (s.ea3 rs o))

/-- STOREW: store the low 16 bits (42 R204). -/
def execStorew (rd rs : Reg) (o : Operand) (s : State) : Host.Outcome State Fault Refusal :=
  .next (s.storeFrom .word rd (s.ea3 rs o))

/-- STOREB: store the low 8 bits (42 R205). -/
def execStoreb (rd rs : Reg) (o : Operand) (s : State) : Host.Outcome State Fault Refusal :=
  .next (s.storeFrom .byte rd (s.ea3 rs o))

end Sys2Proof.Machine
end

