-- ==== Sys2Proof/Machine/Dispatch.lean ====
section
/-!
DEFINITION. `Execute(d)` of 40_step_engine R123, R126: the meaning of each instruction, run with the pc already past it (10_state R27).
-/

namespace Sys2Proof.Machine

/-- The effect of an instruction on a state whose pc is `npc` (40_step_engine R123, R126). -/
def exec (i : Instr) (s : State) : Host.Outcome State Fault Refusal :=
  match i with
  | .sleep => Sys2Proof.Machine.execSleep s
  | .ret => Sys2Proof.Machine.execRet s
  | .rfi => Sys2Proof.Machine.execRfi s
  | .xchgb o => Sys2Proof.Machine.execXchgb o s
  | .xchgw o => Sys2Proof.Machine.execXchgw o s
  | .getpc o => Sys2Proof.Machine.execGetpc o s
  | .pop o => Sys2Proof.Machine.execPop o s
  | .push o => Sys2Proof.Machine.execPush o s
  | .jmp o => Sys2Proof.Machine.execJmp o s
  | .call o => Sys2Proof.Machine.execCall o s
  | .rjmp o => Sys2Proof.Machine.execRjmp o s
  | .rcall o => Sys2Proof.Machine.execRcall o s
  | .int o => Sys2Proof.Machine.execInt o s
  | .mov rd o => Sys2Proof.Machine.execMov rd o s
  | .swp rd o => Sys2Proof.Machine.execSwp rd o s
  | .not rd o => Sys2Proof.Machine.execNot rd o s
  | .sigxb rd o => Sys2Proof.Machine.execSigxb rd o s
  | .sigxw rd o => Sys2Proof.Machine.execSigxw rd o s
  | .load2 rd o => Sys2Proof.Machine.execLoad2 rd o s
  | .loadw2 rd o => Sys2Proof.Machine.execLoadw2 rd o s
  | .loadb2 rd o => Sys2Proof.Machine.execLoadb2 rd o s
  | .store2 rd o => Sys2Proof.Machine.execStore2 rd o s
  | .storew2 rd o => Sys2Proof.Machine.execStorew2 rd o s
  | .storeb2 rd o => Sys2Proof.Machine.execStoreb2 rd o s
  | .ifeq rd o => Sys2Proof.Machine.execIfeq rd o s
  | .ifneq rd o => Sys2Proof.Machine.execIfneq rd o s
  | .ifl rd o => Sys2Proof.Machine.execIfl rd o s
  | .ifsl rd o => Sys2Proof.Machine.execIfsl rd o s
  | .ifle rd o => Sys2Proof.Machine.execIfle rd o s
  | .ifsle rd o => Sys2Proof.Machine.execIfsle rd o s
  | .ifbits rd o => Sys2Proof.Machine.execIfbits rd o s
  | .ifclear rd o => Sys2Proof.Machine.execIfclear rd o s
  | .jmp2 rd o => Sys2Proof.Machine.execJmp2 rd o s
  | .call2 rd o => Sys2Proof.Machine.execCall2 rd o s
  | .and rd rs o => Sys2Proof.Machine.execAnd rd rs o s
  | .or rd rs o => Sys2Proof.Machine.execOr rd rs o s
  | .xor rd rs o => Sys2Proof.Machine.execXor rd rs o s
  | .bitc rd rs o => Sys2Proof.Machine.execBitc rd rs o s
  | .add rd rs o => Sys2Proof.Machine.execAdd rd rs o s
  | .addc rd rs o => Sys2Proof.Machine.execAddc rd rs o s
  | .sub rd rs o => Sys2Proof.Machine.execSub rd rs o s
  | .subb rd rs o => Sys2Proof.Machine.execSubb rd rs o s
  | .rsb rd rs o => Sys2Proof.Machine.execRsb rd rs o s
  | .rsbb rd rs o => Sys2Proof.Machine.execRsbb rd rs o s
  | .lls rd rs o => Sys2Proof.Machine.execLls rd rs o s
  | .rls rd rs o => Sys2Proof.Machine.execRls rd rs o s
  | .ars rd rs o => Sys2Proof.Machine.execArs rd rs o s
  | .rotl rd rs o => Sys2Proof.Machine.execRotl rd rs o s
  | .rotr rd rs o => Sys2Proof.Machine.execRotr rd rs o s
  | .mul rd rs o => Sys2Proof.Machine.execMul rd rs o s
  | .smul rd rs o => Sys2Proof.Machine.execSmul rd rs o s
  | .div rd rs o => Sys2Proof.Machine.execDiv rd rs o s
  | .sdiv rd rs o => Sys2Proof.Machine.execSdiv rd rs o s
  | .load rd rs o => Sys2Proof.Machine.execLoad rd rs o s
  | .loadw rd rs o => Sys2Proof.Machine.execLoadw rd rs o s
  | .loadb rd rs o => Sys2Proof.Machine.execLoadb rd rs o s
  | .store rd rs o => Sys2Proof.Machine.execStore rd rs o s
  | .storew rd rs o => Sys2Proof.Machine.execStorew rd rs o s
  | .storeb rd rs o => Sys2Proof.Machine.execStoreb rd rs o s

end Sys2Proof.Machine
end

