-- ==== Sys2Proof/Machine/Sequencer.lean ====
section
/-!
DEFINITION. The step engine (40_step_engine): fetch, decode, skip, dispatch, the step-mode interrupt, the interrupt check and the cycle count; `Step` and `Tick`.
-/

namespace Sys2Proof.Machine

/-- `isHalted() or isBreakPoint(pc)`; a bus without probes answers false to both (40_step_engine R122). -/
def State.debugAbort (s : State) : Bool :=
  match s.busProbes with
  | none => false
  | some p => p.halted || p.breakPoints.contains s.pc

/-- The fetch: one `ReadDW` at pc, then pc up by 4 (40_step_engine R124). -/
def State.fetchWord (s : State) : Word × State :=
  let (w, s) := s.busRead .dword s.pc
  (w, s.setPc (s.pc + 4#32))

/-- The literal fetch of an executed big-literal instruction; otherwise nothing is read (40_step_engine R125). -/
def State.fetchLiteral (s : State) (h : Header) : Word × State :=
  if h.big then s.fetchWord else (0#32, s)

/-- Stepping over an instruction: its whole length, the literal word unread; the skip goes on exactly over an IFxx
(40_step_engine R131, R133). -/
def State.skipOver (s : State) (h : Header) : State :=
  (if h.big then s.setPc (s.pc + 4#32) else s).setSkiping h.isIFxx

/-- `Execute(d)`: the instruction's rule, or the no-op of an unassigned opcode (40_step_engine R126, 30_encoding R96). -/
def execDecoded (i : Option Instr) (s : State) : Host.Outcome State Fault Refusal :=
  match i with
  | some i => exec i s
  | none => .next s

/-- The step-mode self-interrupt, `if0` being IF before the instruction (40_step_engine R127). -/
def State.stepModeInterrupt (s : State) (if0 : Bool) : State :=
  if s.stepMode && !if0 then (s.sendInterrupt (s.params.stepIntMsg.setWidth 32)).2 else s

/-- What follows an executed instruction (40_step_engine R123, R127, R128). -/
def State.endOfStep (s : State) (if0 : Bool) : State := (s.stepModeInterrupt if0).processInterrupt

/-- The cycles of an executed instruction, `s` being the state it left: +1 for a big literal, +1 for a false IFxx, which is what
leaves `skiping` set (40_step_engine R129, R130). -/
def cyclesOf (t : Timing) (h : Header) (s : State) : Nat :=
  t.cost h.op + (if h.big then 1 else 0) + (if s.skiping then 1 else 0)

/-- `RealStep` of a fetched word that is executed, not skipped (40_step_engine R123). -/
def State.executeWord (s : State) (t : Timing) (w : Word) : Host.Outcome (State × Nat) Fault Refusal :=
  let h := header w
  let (litWord, s) := s.fetchLiteral h
  match execDecoded (decodeWords w litWord) s with
  | .next s' => .next (s'.endOfStep (s.flag bitIF), cyclesOf t h s')
  | .fault r => .fault r
  | .refused r => .refused r

/-- `RealStep() -> cycles` (40_step_engine R121 to R129). -/
def State.realStep (s : State) (t : Timing) : Host.Outcome (State × Nat) Fault Refusal :=
  if s.debugAbort then .next (s, 0)
  else
    let (w, s) := s.fetchWord
    if s.skiping then .next ((s.skipOver (header w)).processInterrupt, t.skipCost)
    else s.executeWord t w

/-- `Step() -> cycles` (40_step_engine R134); without a bus it is refused (00_scope R13). -/
def State.stepCycles (s : State) (t : Timing) : Host.Outcome (State × Nat) Fault Refusal :=
  if s.busAttached then
    if s.sleeping then .next (s.processInterrupt, 1) else s.realStep t
  else .refused .noBus

/-- An outcome without its cycle count. -/
def dropCycles (r : Host.Outcome (State × Nat) Fault Refusal) : Host.Outcome State Fault Refusal :=
  match r with
  | .next (s, _) => .next s
  | .fault r => .fault r
  | .refused r => .refused r

/-- `Step()` as a transition of the state (notes/assumptions/14.md). -/
def State.hostStep (s : State) : Host.Outcome State Fault Refusal := dropCycles (s.stepCycles Config.timing)

/-- One cycle of `Tick` (40_step_engine R135). -/
def State.tickCycle (s : State) (t : Timing) : Host.Outcome State Fault Refusal :=
  if s.sleeping then .next s.processInterrupt
  else if s.waitCycles = 0#32 then
    match s.realStep t with
    | .next (s', c) => .next (if 0 < c then s'.setWaitCycles (BitVec.ofNat 32 (c - 1)) else s')
    | .fault r => .fault r
    | .refused r => .refused r
  else .next (s.setWaitCycles (s.waitCycles - 1#32))

/-- The `n` cycles of `Tick(n)` (40_step_engine R135). -/
def State.tickCycles (s : State) (t : Timing) : Nat → Host.Outcome State Fault Refusal
  | 0 => .next s
  | n + 1 =>
    match s.tickCycle t with
    | .next s' => s'.tickCycles t n
    | .fault r => .fault r
    | .refused r => .refused r

/-- `Tick(n)` (40_step_engine R135); without a bus it is refused (00_scope R13). -/
def State.tick (s : State) (t : Timing) (n : Nat) : Host.Outcome State Fault Refusal :=
  if s.busAttached then s.tickCycles t n else .refused .noBus

/-- Bytes placed in plain memory from an address on. -/
def State.placeBytes (s : State) (a : Word) : List Byte → State
  | [] => s
  | b :: bs => State.placeBytes { s with mem := s.mem.write a.toNat b } (a + 1#32) bs

/-- Bytes placed where the next step fetches, on a core that fetches and runs: awake, not skipping, a bus attached, no probe,
and no device at the eight bytes an instruction can take. Nothing else changes. -/
def State.placeInstruction (s : State) (bs : List Byte) : State :=
  let free := fun d : Window => (List.range 8).all fun k => !d.covers (s.pc + BitVec.ofNat 32 k)
  State.placeBytes
    { s with
      sleeping := false
      skiping := false
      busAttached := true
      busProbes := none
      devices := s.devices.filter free }
    s.pc bs

end Sys2Proof.Machine
end

