-- ==== Sys2Proof/Machine/Step.lean ====
section
/-!
DEFINITION. The step of the model, `Step()` of 40_step_engine R134, and the placing of an instruction where it fetches.
-/

namespace Sys2Proof.Machine

/-- `Step()` (40_step_engine R134; notes/assumptions/14.md). -/
def step (s : State) : Host.Outcome State Fault Refusal := s.hostStep

/-- The state with an instruction, numbered as spec/opcode_table.json numbers its bits, stored where the next step fetches
(notes/assumptions/16.md). -/
def State.withFetchWord (s : State) (nbits w : Nat) : State := s.placeInstruction (tableBytes nbits w)

end Sys2Proof.Machine
end

