-- ==== Sys2Proof/Machine/HostOps.lean ====
section
/-!
DEFINITION. The host interface (70_reset_and_hazards R384): `Reset`, the snapshot, `Clock`, and every host operation as one transition.
-/

namespace Sys2Proof.Machine

/-- `Reset()`: every piece of core state at its reset value; the bus and the platform untouched (70 R380). -/
def State.hostReset (s : State) : State :=
  { State.reset with
    mem := s.mem
    busLog := s.busLog
    busAttached := s.busAttached
    busProbes := s.busProbes
    devices := s.devices
    params := s.params }

/-- `SNAP_LEN` of the layout chosen here (70 R387, 93 I7; notes/assumptions/11.md). -/
def snapLen : Nat := 74

/-- The four bits of a snapshot in one byte: `interrupt`, `step_mode`, `skiping`, `sleeping` from bit 0 up. -/
def State.snapshotBits (s : State) : Byte :=
  (0#4 ++ BitVec.ofBool s.sleeping ++ BitVec.ofBool s.skiping ++ BitVec.ofBool s.stepMode ++ BitVec.ofBool s.interrupt)

/-- The snapshot: x[0..15], pc, wait_cycles, int_msg and the four bits (70 R387). -/
def State.snapshot (s : State) : List Byte :=
  s.regs.toList.flatMap bytesOfWord ++ bytesOfWord s.pc ++ bytesOfWord s.waitCycles ++ [s.intMsg, s.snapshotBits]

/-- The little-endian word at an offset of a snapshot. -/
def snapshotWord (bs : List Byte) (i : Nat) : Word :=
  wordOfBytes (bs.getD i 0#8) (bs.getD (i + 1) 0#8) (bs.getD (i + 2) 0#8) (bs.getD (i + 3) 0#8)

/-- The state with every field of 70 R387 loaded from a snapshot, none of it validated (70 R386). -/
def State.loadSnapshot (s : State) (bs : List Byte) : State :=
  let bits := bs.getD 73 0#8
  { s with
    regs := Vector.ofFn fun r : Fin 16 => snapshotWord bs (4 * r.val)
    pc := snapshotWord bs 64
    waitCycles := snapshotWord bs 68
    intMsg := bs.getD 72 0#8
    interrupt := bits.getLsbD 0
    stepMode := bits.getLsbD 1
    skiping := bits.getLsbD 2
    sleeping := bits.getLsbD 3 }

/-- `GetState(buf, size)`: the buffer after it and the size it sets; the size given is the buffer's length, null is `none`
(70 R385; notes/assumptions/12.md). -/
def State.getState (s : State) (buf : Option (List Byte)) : Option (List Byte) × Nat :=
  match buf with
  | none => (none, 0)
  | some bs => if snapLen ≤ bs.length then (some (s.snapshot ++ bs.drop snapLen), snapLen) else (some bs, 0)

/-- `SetState(buf, size)`: whether the snapshot was loaded, and the state after it (70 R386). -/
def State.setState (s : State) (buf : Option (List Byte)) : Bool × State :=
  match buf with
  | none => (false, s)
  | some bs => if snapLen ≤ bs.length then (true, s.loadSnapshot bs) else (false, s)

/-- `Clock()` (70 R389). -/
def clock : Nat := Config.clockRate

/-- What the outside does to the machine, one operation at a time (00_scope R12, 70 R384). -/
inductive HostOp where
  | reset
  | step
  | tick (n : Nat)
  | sendInterrupt (msg : Word)
  | getState (buf : Option (List Byte))
  | setState (buf : Option (List Byte))
  | clock
  /-- The bus changes between core operations (00_scope R12, 20_memory R61, 70 R384). -/
  | changeBus (mem : Memory) (devices : List Window) (probes : Option Probes) (attached : Bool)
  deriving DecidableEq, Repr

/-- The state after a host operation (70 R384); costs only matter to `Tick`. -/
def State.hostOp (s : State) (t : Timing) (op : HostOp) : Host.Outcome State Fault Refusal :=
  match op with
  | .reset => .next s.hostReset
  | .step => dropCycles (s.stepCycles t)
  | .tick n => s.tick t n
  | .sendInterrupt msg => .next (s.sendInterrupt msg).2
  | .getState _ => .next s
  | .setState buf => .next (s.setState buf).2
  | .clock => .next s
  | .changeBus mem devices probes attached =>
    .next { s with mem := mem, devices := devices, busProbes := probes, busAttached := attached }

/-- A sequence of host operations: a run (70 R396). -/
def State.hostRun (s : State) (t : Timing) : List HostOp → Host.Outcome State Fault Refusal
  | [] => .next s
  | op :: ops =>
    match s.hostOp t op with
    | .next s' => s'.hostRun t ops
    | .fault r => .fault r
    | .refused r => .refused r

end Sys2Proof.Machine
end

