-- ==== Sys2Proof/Safety.lean ====
section
/-!
DEFINITION. What claims are stated in: the observation points and the invariant of a run, what an operation keeps, and the effects of the instruction families as relations between the state before and after.
-/

namespace Sys2Proof.Machine

/-! ## Observation points and the invariant -/

/-- Asleep with interrupts disabled: no `Step` or `Tick` changes anything (70 R396). -/
def State.Quiescent (s : State) : Prop := s.sleeping = true ∧ s.flag bitEI = false

/-- Asleep with interrupts enabled (70 R396). -/
def State.Asleep (s : State) : Prop := s.sleeping = true ∧ s.flag bitEI = true

/-- The bus's `isHalted()` is true (70 R396). -/
def State.Aborted (s : State) : Prop := ∃ p, s.busProbes = some p ∧ p.halted = true

/-- What holds in every state reached from reset by instructions, `Step`, `Tick` and `SendInterrupt`: memory in canonical form
(the model's choice, notes/assumptions/1.md), and never both asleep and skipping (10_state R33). -/
def State.Inv (s : State) : Prop := s.mem.wf = true ∧ ¬(s.sleeping = true ∧ s.skiping = true)

/-- A state in which `Step` fetches and executes an instruction: bus attached, awake, not skipping, no debug abort
(40_step_engine R121 to R123, R134). -/
def State.Ready (s : State) : Prop :=
  s.busAttached = true ∧ s.sleeping = false ∧ s.skiping = false ∧ s.debugAbort = false

/-! ## Addresses and plain memory -/

/-- The address `k` bytes above `a`, modulo 2^32 (20_memory R55). -/
abbrev above (a : Word) (k : Nat) : Word := a + BitVec.ofNat 32 k

/-- `x` is one of the `n` bytes from `a` on, modulo 2^32. -/
def InBytes (a : Word) (n : Nat) (x : Word) : Prop := (x - a).toNat < n

/-- No device answers at the `n` bytes from `a` on. -/
def State.PlainAt (s : State) (a : Word) (n : Nat) : Prop := ∀ k, k < n → s.isDevice (above a k) = false

/-- The little-endian word that plain memory holds at `a` (20_memory R53). -/
def State.peekWord (s : State) (a : Word) : Word :=
  wordOfBytes (s.peek a) (s.peek (above a 1)) (s.peek (above a 2)) (s.peek (above a 3))

/-- Byte `k` of a word, byte 0 the least significant. -/
abbrev byteOf (v : Word) (k : Nat) : Byte := v.extractLsb' (8 * k) 8

/-! ## What an operation keeps -/

/-- Every register but those listed. -/
def KeepsRegsBut (ds : List Reg) (s t : State) : Prop := ∀ q, q ∉ ds → t.reg q = s.reg q

/-- The six sequencer items (10_state R31). -/
def KeepsSequencer (s t : State) : Prop :=
  t.waitCycles = s.waitCycles ∧ t.intMsg = s.intMsg ∧ t.interrupt = s.interrupt ∧ t.stepMode = s.stepMode ∧
    t.skiping = s.skiping ∧ t.sleeping = s.sleeping

/-- What belongs to the platform and the bus beside memory. -/
def KeepsPlatform (s t : State) : Prop :=
  t.busAttached = s.busAttached ∧ t.busProbes = s.busProbes ∧ t.devices = s.devices ∧ t.params = s.params

/-- Every byte of memory. -/
def KeepsMemory (s t : State) : Prop := ∀ x, t.peek x = s.peek x

/-- Memory kept and no bus call made. -/
def NoBusCall (s t : State) : Prop := KeepsMemory s t ∧ t.busLog = s.busLog

/-- Everything but registers: pc, sequencer, memory, bus. -/
def OnlyRegs (s t : State) : Prop := t.pc = s.pc ∧ NoBusCall s t ∧ KeepsSequencer s t ∧ KeepsPlatform s t

/-! ## Effects of the instruction families -/

/-- Only registers change, and of them only `rd`, which becomes `v`: whole, if it is r15 (43 R231). -/
def RegEffect (s t : State) (rd : Reg) (v : Word) : Prop := t.reg rd = v ∧ KeepsRegsBut [rd] s t ∧ OnlyRegs s t

/-- An ALU result: rd becomes `r` and then bits CF and OF of r15 become `c` and `o`; with rd = 15 the other bits of the result
stay, else r15's other bits are kept (41_p3_alu R179, R180). -/
def AluEffect (s t : State) (rd : Reg) (r : Word) (c o : Bool) : Prop :=
  (rd ≠ .flags → t.reg rd = r) ∧
  (∀ k, t.flag k = if k = bitCF then c else if k = bitOF then o else ((if rd = .flags then r else s.reg .flags).getLsbD k)) ∧
  KeepsRegsBut [rd, .flags] s t ∧ OnlyRegs s t

/-- A product or quotient: rd becomes `lo`, then Y becomes `hi` (so rd = 11 ends with `hi`), then CF = OF = 0
(41_p3_alu R179). -/
def YEffect (s t : State) (rd : Reg) (lo hi : Word) : Prop :=
  (rd ≠ .y → rd ≠ .flags → t.reg rd = lo) ∧ t.reg .y = hi ∧
  (∀ k, t.flag k =
    if k = bitCF then false else if k = bitOF then false else ((if rd = .flags then lo else s.reg .flags).getLsbD k)) ∧
  KeepsRegsBut [rd, .y, .flags] s t ∧ OnlyRegs s t

/-- A division by zero: DE = 1, CF = OF = 0, every other bit and register kept (41_p3_alu R177, R179). -/
def DivideErrorEffect (s t : State) : Prop :=
  (∀ k, t.flag k = if k = bitDE then true else if k = bitCF then false else if k = bitOF then false else s.flag k) ∧
  KeepsRegsBut [.flags] s t ∧ OnlyRegs s t

/-- A load: rd gets the little-endian bytes at `ea`, zero-extended; one bus read; nothing else (42 R206, R207). What a device's
byte holds is not said (20_memory R61). That a read straddling a window (R55) has memory's bytes outside it is the model's choice
(notes/assumptions/3.md). -/
def LoadEffect (s t : State) (w : Width) (rd : Reg) (ea : Word) : Prop :=
  (∀ k, k < w.bytes → s.isDevice (above ea k) = false → byteOf (t.reg rd) k = s.peek (above ea k)) ∧
  (∀ j, 8 * w.bytes ≤ j → (t.reg rd).getLsbD j = false) ∧
  KeepsRegsBut [rd] s t ∧ t.pc = s.pc ∧ KeepsMemory s t ∧ t.busLog = s.busLog ++ [.read w ea] ∧
  KeepsSequencer s t ∧ KeepsPlatform s t

/-- Memory after bus writes of `n` bytes of `v` from `a` on: each plain byte holds its byte of `v`; every byte outside, and
every byte behind a device, is as before (20_memory R53, R55, R58). That a write straddling a window stores its plain bytes, and
that memory behind a device is kept, is the model's choice (notes/assumptions/3.md, 4.md). -/
def StoresBytes (s t : State) (a v : Word) (n : Nat) : Prop :=
  (∀ k, k < n → s.isDevice (above a k) = false → t.peek (above a k) = byteOf v k) ∧
  (∀ x, ¬ InBytes a n x → t.peek x = s.peek x) ∧ (∀ x, s.isDevice x = true → t.peek x = s.peek x)

/-- A store: the low bytes of rd to `ea`, in one bus write; no register changes (42 R206, R207). -/
def StoreEffect (s t : State) (w : Width) (rd : Reg) (ea : Word) : Prop :=
  StoresBytes s t ea (s.reg rd) w.bytes ∧ t.busLog = s.busLog ++ [.write w ea (w.trunc (s.reg rd))] ∧
  KeepsRegsBut [] s t ∧ t.pc = s.pc ∧ KeepsSequencer s t ∧ KeepsPlatform s t

/-- The four byte writes of a push whose SP before it is `sp`: most significant byte first (40_step_engine R140). -/
def pushCalls (sp v : Word) : List BusCall :=
  [.write .byte (sp - 1#32) ((byteOf v 3).setWidth 32), .write .byte (sp - 2#32) ((byteOf v 2).setWidth 32),
   .write .byte (sp - 3#32) ((byteOf v 1).setWidth 32), .write .byte (sp - 4#32) ((byteOf v 0).setWidth 32)]

/-- A push: SP down by 4, `v` little-endian at the new SP, four byte writes; the pc becomes `pc` (40_step_engine R140). -/
def PushEffect (s t : State) (v pc : Word) : Prop :=
  t.reg .sp = s.reg .sp - 4#32 ∧ KeepsRegsBut [.sp] s t ∧ StoresBytes s t (s.reg .sp - 4#32) v 4 ∧
  t.busLog = s.busLog ++ pushCalls (s.reg .sp) v ∧ t.pc = pc ∧ KeepsSequencer s t ∧ KeepsPlatform s t

/-- Interrupt entry through the vector `vec` (60 R336): r0 and the pc pushed, r0 = message, pc = vector unmasked, IF set, the
pending bit and `sleeping` cleared; every other register, FLAGS bit and sequencer item, and every other byte, kept. -/
def EntryEffect (s t : State) (vec : Word) : Prop :=
  t.reg .r0 = s.intMsg.setWidth 32 ∧ t.reg .sp = s.reg .sp - 8#32 ∧ t.pc = vec ∧
  (∀ k, t.flag k = if k = bitIF then true else s.flag k) ∧ KeepsRegsBut [.r0, .sp, .flags] s t ∧
  t.interrupt = false ∧ t.sleeping = false ∧ t.waitCycles = s.waitCycles ∧ t.intMsg = s.intMsg ∧ t.stepMode = s.stepMode ∧
  t.skiping = s.skiping ∧ KeepsPlatform s t ∧
  (∀ k, k < 4 → s.isDevice (above (s.reg .sp - 4#32) k) = false →
    t.peek (above (s.reg .sp - 4#32) k) = byteOf (s.reg .r0) k) ∧
  (∀ k, k < 4 → s.isDevice (above (s.reg .sp - 8#32) k) = false → t.peek (above (s.reg .sp - 8#32) k) = byteOf s.pc k) ∧
  (∀ x, ¬ InBytes (s.reg .sp - 8#32) 8 x → t.peek x = s.peek x) ∧ (∀ x, s.isDevice x = true → t.peek x = s.peek x) ∧
  t.busLog = s.busLog ++ [.read .dword s.vectorAddress] ++ pushCalls (s.reg .sp) (s.reg .r0) ++
    pushCalls (s.reg .sp - 4#32) s.pc

/-- A sum `a + b + cin`: the low 32 bits to rd, CF the carry out of bit 31, OF by the signs (41_p3_alu R181). -/
def SumEffect (s t : State) (rd : Reg) (a b : Word) (cin : Bool) : Prop :=
  let r : Word := BitVec.ofNat 32 (a.toNat + b.toNat + cin.toNat)
  AluEffect s t rd r (decide (2 ^ 32 ≤ a.toNat + b.toNat + cin.toNat))
    (decide (a.getLsbD 31 = b.getLsbD 31) && decide (r.getLsbD 31 ≠ a.getLsbD 31))

/-- A difference `m - u - bin`: modulo 2^32 to rd, CF the borrow, OF by the signs (41_p3_alu R182). -/
def DifferenceEffect (s t : State) (rd : Reg) (m u : Word) (bin : Bool) : Prop :=
  let r : Word := BitVec.ofInt 32 ((m.toNat : Int) - u.toNat - bin.toNat)
  AluEffect s t rd r (decide (m.toNat < u.toNat + bin.toNat))
    (decide (m.getLsbD 31 ≠ u.getLsbD 31) && decide (r.getLsbD 31 ≠ m.getLsbD 31))

/-- OF says that an exact signed result is outside the 32-bit signed range. -/
def OverflowSays (t : State) (exact : Int) : Prop := t.flag bitOF = decide (exact < -2 ^ 31 ∨ 2 ^ 31 ≤ exact)

/-- A jump: the pc becomes a multiple of 4, nothing else changes and no bus call is made (40_step_engine R142). -/
def JumpEffect (s t : State) (target : Word) : Prop :=
  t.pc = target &&& 0xFFFFFFFC#32 ∧ t.pc.toNat % 4 = 0 ∧ KeepsRegsBut [] s t ∧ NoBusCall s t ∧ KeepsSequencer s t ∧
    KeepsPlatform s t

/-- A conditional: nothing changes if `c` holds, only `skiping` becomes true if it does not (44 R260). -/
def CondEffect (s t : State) (c : Prop) : Prop := (c → t = s) ∧ (¬c → t = { s with skiping := true })

/-- The IFxx instructions (30_encoding R95). -/
def IsConditional : Instr → Prop
  | .ifeq _ _ | .ifneq _ _ | .ifl _ _ | .ifsl _ _ | .ifle _ _ | .ifsle _ _ | .ifbits _ _ | .ifclear _ _ => True
  | .sleep | .ret | .rfi | .xchgb _ | .xchgw _ | .getpc _ | .pop _ | .push _ | .jmp _ | .call _ | .rjmp _ | .rcall _
  | .int _ | .mov _ _ | .swp _ _ | .not _ _ | .sigxb _ _ | .sigxw _ _ | .load2 _ _ | .loadw2 _ _ | .loadb2 _ _
  | .store2 _ _ | .storew2 _ _ | .storeb2 _ _ | .jmp2 _ _ | .call2 _ _
  | .and _ _ _ | .or _ _ _ | .xor _ _ _ | .bitc _ _ _ | .add _ _ _ | .addc _ _ _ | .sub _ _ _ | .subb _ _ _
  | .rsb _ _ _ | .rsbb _ _ _ | .lls _ _ _ | .rls _ _ _ | .ars _ _ _ | .rotl _ _ _ | .rotr _ _ _
  | .mul _ _ _ | .smul _ _ _ | .div _ _ _ | .sdiv _ _ _ | .load _ _ _ | .loadw _ _ _ | .loadb _ _ _
  | .store _ _ _ | .storew _ _ _ | .storeb _ _ _ => False

/-- A host operation that keeps the invariant of a run: not `SetState`, whose content is not validated (70 R386), and a bus
change only to a memory in canonical form. -/
def HostOp.Ordinary : HostOp → Prop
  | .setState _ => False
  | .changeBus mem _ _ _ => mem.wf = true
  | .reset | .step | .tick _ | .sendInterrupt _ | .getState _ | .clock => True

/-! ## What an instruction names -/

/-- The register an operand names, if it is one. -/
def operandRegs : Operand → List Reg
  | .reg r => [r]
  | .lit _ => []
  | .big _ => []

/-- The registers an instruction names as its destination (the rules R160 to R312); none for a literal form that writes
nothing (30_encoding R98). -/
def destinations : Instr → List Reg
  | .xchgb o | .xchgw o | .getpc o | .pop o => operandRegs o
  | .swp rd (.reg rn) => [rd, rn]
  | .mov rd _ | .not rd _ | .sigxb rd _ | .sigxw rd _ | .load2 rd _ | .loadw2 rd _ | .loadb2 rd _ => [rd]
  | .and rd _ _ | .or rd _ _ | .xor rd _ _ | .bitc rd _ _ | .add rd _ _ | .addc rd _ _ | .sub rd _ _ | .subb rd _ _
  | .rsb rd _ _ | .rsbb rd _ _ | .lls rd _ _ | .rls rd _ _ | .ars rd _ _ | .rotl rd _ _ | .rotr rd _ _
  | .mul rd _ _ | .smul rd _ _ | .div rd _ _ | .sdiv rd _ _ | .load rd _ _ | .loadw rd _ _ | .loadb rd _ _ => [rd]
  | .swp _ (.lit _) | .swp _ (.big _) => []
  | .sleep | .ret | .rfi | .push _ | .jmp _ | .call _ | .rjmp _ | .rcall _ | .int _
  | .store2 _ _ | .storew2 _ _ | .storeb2 _ _ | .ifeq _ _ | .ifneq _ _ | .ifl _ _ | .ifsl _ _ | .ifle _ _ | .ifsle _ _
  | .ifbits _ _ | .ifclear _ _ | .jmp2 _ _ | .call2 _ _ | .store _ _ _ | .storew _ _ _ | .storeb _ _ _ => []

/-- The registers the hardware writes beside them (10_state R21): SP by the stack instructions, Y by multiplication and
division, FLAGS by the ALU and RFI, r0 by RFI. -/
def implicitWrites : Instr → List Reg
  | .pop (.reg _) | .push _ | .call _ | .rcall _ | .call2 _ _ | .ret => [.sp]
  | .rfi => [.sp, .r0, .flags]
  | .mul _ _ _ | .smul _ _ _ | .div _ _ _ | .sdiv _ _ _ => [.y, .flags]
  | .and _ _ _ | .or _ _ _ | .xor _ _ _ | .bitc _ _ _ | .add _ _ _ | .addc _ _ _ | .sub _ _ _ | .subb _ _ _
  | .rsb _ _ _ | .rsbb _ _ _ | .lls _ _ _ | .rls _ _ _ | .ars _ _ _ | .rotl _ _ _ | .rotr _ _ _ => [.flags]
  | .pop (.lit _) | .pop (.big _) => []
  | .sleep | .xchgb _ | .xchgw _ | .getpc _ | .jmp _ | .rjmp _ | .int _
  | .mov _ _ | .swp _ _ | .not _ _ | .sigxb _ _ | .sigxw _ _ | .load2 _ _ | .loadw2 _ _ | .loadb2 _ _
  | .store2 _ _ | .storew2 _ _ | .storeb2 _ _ | .ifeq _ _ | .ifneq _ _ | .ifl _ _ | .ifsl _ _ | .ifle _ _ | .ifsle _ _
  | .ifbits _ _ | .ifclear _ _ | .jmp2 _ _
  | .load _ _ _ | .loadw _ _ _ | .loadb _ _ _ | .store _ _ _ | .storew _ _ _ | .storeb _ _ _ => []

/-- Whether an instruction writes memory: the stores, PUSH and the calls (20_memory R56). -/
def writesMemory : Instr → Bool
  | .store2 _ _ | .storew2 _ _ | .storeb2 _ _ | .store _ _ _ | .storew _ _ _ | .storeb _ _ _
  | .push _ | .call _ | .rcall _ | .call2 _ _ => true
  | .sleep | .ret | .rfi | .xchgb _ | .xchgw _ | .getpc _ | .pop _ | .jmp _ | .rjmp _ | .int _
  | .mov _ _ | .swp _ _ | .not _ _ | .sigxb _ _ | .sigxw _ _ | .load2 _ _ | .loadw2 _ _ | .loadb2 _ _
  | .ifeq _ _ | .ifneq _ _ | .ifl _ _ | .ifsl _ _ | .ifle _ _ | .ifsle _ _ | .ifbits _ _ | .ifclear _ _ | .jmp2 _ _
  | .and _ _ _ | .or _ _ _ | .xor _ _ _ | .bitc _ _ _ | .add _ _ _ | .addc _ _ _ | .sub _ _ _ | .subb _ _ _
  | .rsb _ _ _ | .rsbb _ _ _ | .lls _ _ _ | .rls _ _ _ | .ars _ _ _ | .rotl _ _ _ | .rotr _ _ _
  | .mul _ _ _ | .smul _ _ _ | .div _ _ _ | .sdiv _ _ _ | .load _ _ _ | .loadw _ _ _ | .loadb _ _ _ => false

/-! ## Code in memory -/

/-- The words of instructions lie one after the other from `a` on, in plain memory (20_memory R54, 30_encoding R80). -/
def State.CodeAt (s : State) (a : Word) : List Word → Prop
  | [] => True
  | w :: ws => s.PlainAt a 4 ∧ s.peekWord a = w ∧ s.CodeAt (above a (header w).length) ws

/-- The bytes that a list of instructions takes. -/
def codeLength (ws : List Word) : Nat := (ws.map fun w => (header w).length).sum

end Sys2Proof.Machine
end

