-- ==== Sys2Proof/Certificates/Slice0/Obligations.lean ====
section
/-!
DEFINITION. The statements for the provers. Each docstring names the rules of spec/ it formalises.
-/

open Sys2Proof Sys2Proof.Machine

/-! ## Encoding -/

/-- 30_encoding R80 to R94: every well-formed instruction is read back from its bytes, whatever follows them. -/
def Obligations.DecodingUndoesEncoding : Prop :=
  ∀ (i : Instr) (rest : List Byte), i.wf = true → decodeBytes (encodeBytes i ++ rest) = .ok (i, rest)

/-- 30_encoding R90, R93: whatever the words, a decoded instruction is well-formed: its inline literal fits its field. -/
def Obligations.DecodedInstructionIsWellFormed : Prop :=
  ∀ (w litWord : Word) (i : Instr), decodeWords w litWord = some i → i.wf = true

/-- 95_test_vectors SRC-2, SRC-9, SRC-11, P1-14, LS-7, JMP-1, DEC-2: words of the spec decode to the instructions they stand for. -/
def Obligations.SpecWordsDecode : Prop :=
  decodeWords 0x4080002A#32 0#32 = some (.mov 0 (.lit 0x2A#32)) ∧
  decodeWords 0x84004002#32 0#32 = some (.add 0 1 (.reg 2)) ∧
  decodeWords 0x40C40000#32 0x12345678#32 = some (.mov 1 (.big 0x12345678#32)) ∧
  decodeWords 0x25BFFFFC#32 0#32 = some (.jmp (.lit 0xFFFFFFFC#32)) ∧
  decodeWords 0x9584BFFF#32 0#32 = some (.loadb 1 2 (.lit 0xFFFFFFFF#32)) ∧
  decodeWords 0x53880040#32 0#32 = some (.jmp2 2 (.lit 0x40#32)) ∧
  decodeWords 0x01C00000#32 0x7#32 = some .ret

/-- 30_encoding R81: the class of every word by its top bits, and the opcode range of each class. -/
def Obligations.EachWordHasOneClass : Prop :=
  ∀ w : Word,
    (Class.ofWord w = .p3 ↔ w &&& 0x80000000#32 = 0x80000000#32) ∧
    (Class.ofWord w = .p2 ↔ w &&& 0xC0000000#32 = 0x40000000#32) ∧
    (Class.ofWord w = .p1 ↔ w &&& 0xE0000000#32 = 0x20000000#32) ∧
    (Class.ofWord w = .np ↔ w &&& 0xE0000000#32 = 0x00000000#32) ∧
    (Class.ofWord w = .p3 ↔ 0x80 ≤ (header w).op.toNat) ∧
    (Class.ofWord w = .p2 ↔ 0x40 ≤ (header w).op.toNat ∧ (header w).op.toNat ≤ 0x7F) ∧
    (Class.ofWord w = .p1 ↔ 0x20 ≤ (header w).op.toNat ∧ (header w).op.toNat ≤ 0x3F) ∧
    (Class.ofWord w = .np ↔ (header w).op.toNat ≤ 0x1F)

/-- 30_encoding R94, R96: a word has no instruction exactly when its opcode is one of the unassigned ones. -/
def Obligations.UnassignedOpcodes : Prop :=
  ∀ w litWord : Word, decodeWords w litWord = none ↔
    let op := (w.extractLsb' 24 8).toNat
    (0x03 ≤ op ∧ op ≤ 0x1F) ∨ (0x2A ≤ op ∧ op ≤ 0x3F) ∨ (0x55 ≤ op ∧ op ≤ 0x7F) ∨ 0x99 ≤ op

/-- 30_encoding R84 to R87, R97: two words that agree on all bits but the ignored ones decode to the same instruction: NP bits
23:0; with M = 0, bit 22 and bits 13:4 (P3), 17:4 (P2), 21:4 (P1), and the next word; with M = 1 and L = 0, the next word;
with M = L = 1, bits 13:0, 17:0, 21:0. -/
def Obligations.IgnoredBitsChangeNothing : Prop :=
  ∀ w v l k : Word,
    (Class.ofWord w = .np → w &&& 0xFF000000#32 = v &&& 0xFF000000#32 → decodeWords w l = decodeWords v k) ∧
    (w.getLsbD 23 = false →
      (Class.ofWord w = .p3 → w &&& 0xFFBFC00F#32 = v &&& 0xFFBFC00F#32 → decodeWords w l = decodeWords v k) ∧
      (Class.ofWord w = .p2 → w &&& 0xFFBC000F#32 = v &&& 0xFFBC000F#32 → decodeWords w l = decodeWords v k) ∧
      (Class.ofWord w = .p1 → w &&& 0xFF80000F#32 = v &&& 0xFF80000F#32 → decodeWords w l = decodeWords v k)) ∧
    (w.getLsbD 23 = true → w.getLsbD 22 = false → decodeWords w l = decodeWords w k) ∧
    (w.getLsbD 23 = true → w.getLsbD 22 = true →
      (Class.ofWord w = .p3 → w &&& 0xFFFFC000#32 = v &&& 0xFFFFC000#32 → decodeWords w l = decodeWords v l) ∧
      (Class.ofWord w = .p2 → w &&& 0xFFFC0000#32 = v &&& 0xFFFC0000#32 → decodeWords w l = decodeWords v l) ∧
      (Class.ofWord w = .p1 → w &&& 0xFFC00000#32 = v &&& 0xFFC00000#32 → decodeWords w l = decodeWords v l))

/-- 30_encoding R80: the first word alone tells the length, 8 exactly with M = L = 1 outside NP; an encoded instruction is that long. -/
def Obligations.FirstWordTellsLength : Prop :=
  (∀ w : Word, (header w).length =
    if Class.ofWord w ≠ .np ∧ w.getLsbD 23 = true ∧ w.getLsbD 22 = true then 8 else 4) ∧
  (∀ i : Instr, ∃ w rest, encode i = w :: rest ∧ (encodeBytes i).length = (header w).length)

/-- 30_encoding R90, R93: the values an inline literal can have in each class are exactly the signed ranges of its field. -/
def Obligations.InlineLiteralRanges : Prop :=
  ∀ v : Word,
    ((∃ w, Class.ofWord w = .p3 ∧ inlineLiteral .p3 w = v) ↔ -8192 ≤ v.toInt ∧ v.toInt ≤ 8191) ∧
    ((∃ w, Class.ofWord w = .p2 ∧ inlineLiteral .p2 w = v) ↔ -131072 ≤ v.toInt ∧ v.toInt ≤ 131071) ∧
    ((∃ w, Class.ofWord w = .p1 ∧ inlineLiteral .p1 w = v) ↔ -2097152 ≤ v.toInt ∧ v.toInt ≤ 2097151)

/-! ## The step engine -/

/-- 40_step_engine R123 to R128: a step of a ready state runs `exec` of the decoded instruction on the fetched state, then the
end of the step. The fetched state differs only in the pc, past the instruction, and in the bus calls of the fetch; the words
decoded are those of plain memory where no device answers. -/
def Obligations.StepRunsTheDecodedInstruction : Prop :=
  ∀ (s : State) (i : Instr), s.Ready →
    let w := s.fetchWord.1
    let h := header w
    let litWord := (s.fetchWord.2.fetchLiteral h).1
    let u := (s.fetchWord.2.fetchLiteral h).2
    decodeWords w litWord = some i →
    step s = (match exec i u with
      | .next t => .next (t.endOfStep (s.flag bitIF))
      | .fault r => .fault r
      | .refused r => .refused r) ∧
    u.pc = above s.pc h.length ∧ KeepsRegsBut [] s u ∧ KeepsMemory s u ∧ KeepsSequencer s u ∧ KeepsPlatform s u ∧
    u.busLog = s.busLog ++ (if h.big then [.read .dword s.pc, .read .dword (above s.pc 4)] else [.read .dword s.pc]) ∧
    (s.PlainAt s.pc 4 → w = s.peekWord s.pc) ∧
    (h.big = true → s.PlainAt (above s.pc 4) 4 → litWord = s.peekWord (above s.pc 4))

/-- 30_encoding R96, 40_step_engine R123: an unassigned opcode that is executed reads its word and its literal word if it has
one, moves the pc past them, changes nothing else before the end of the step, and costs COST[op], plus 1 for a big literal. -/
def Obligations.UnassignedOpcodeRunsAsNoOp : Prop :=
  ∀ (s : State) (c : Timing), s.Ready →
    let w := s.fetchWord.1
    let h := header w
    let litWord := (s.fetchWord.2.fetchLiteral h).1
    decodeWords w litWord = none →
    ∃ u, s.stepCycles c = .next (u.endOfStep (s.flag bitIF), c.cost h.op + (if h.big then 1 else 0)) ∧
      u.pc = above s.pc h.length ∧ KeepsRegsBut [] s u ∧ KeepsMemory s u ∧ KeepsSequencer s u ∧ KeepsPlatform s u ∧
      u.busLog = s.busLog ++ (if h.big then [.read .dword s.pc, .read .dword (above s.pc 4)] else [.read .dword s.pc])

/-- 40_step_engine R131: a skipping step moves the pc past the whole instruction, reads only its first word, keeps skipping
exactly over an IFxx, changes nothing else, and ends with the interrupt check, which accepts nothing while the skip goes on. -/
def Obligations.SkippedInstructionIsSteppedOver : Prop :=
  ∀ s : State, s.busAttached = true → s.sleeping = false → s.skiping = true → s.debugAbort = false →
    let h := header (s.readValue .dword s.pc)
    ∃ u, step s = .next u.processInterrupt ∧ (h.isIFxx = true → step s = .next u) ∧
      u.pc = above s.pc h.length ∧ u.skiping = h.isIFxx ∧ KeepsRegsBut [] s u ∧ KeepsMemory s u ∧
      u.busLog = s.busLog ++ [.read .dword s.pc] ∧ u.waitCycles = s.waitCycles ∧ u.intMsg = s.intMsg ∧
      u.interrupt = s.interrupt ∧ u.stepMode = s.stepMode ∧ u.sleeping = s.sleeping ∧ KeepsPlatform s u

/-- 40_step_engine R130 to R133: while skipping, a chain of any number of IFxx and the one other instruction after it are all
stepped over, one step each, big literals included; then the skip is over and no register or memory byte has changed. -/
def Obligations.SkipChainStepsOverOneInstruction : Prop :=
  ∀ (s : State) (conds : List Word) (x : Word),
    s.busAttached = true → s.sleeping = false → s.skiping = true → s.busProbes = none → s.interrupt = false →
    (∀ c ∈ conds, (header c).isIFxx = true) → (header x).isIFxx = false → s.CodeAt s.pc (conds ++ [x]) →
    ∃ t, Sys2Proof.core.run (conds.length + 1) s = .next t ∧ t.skiping = false ∧
      t.pc = above s.pc (codeLength (conds ++ [x])) ∧ KeepsRegsBut [] s t ∧ KeepsMemory s t

/-- 40_step_engine R122: a true probe aborts the step: no change, 0 cycles; without probes there is no abort. -/
def Obligations.DebugAbortChangesNothing : Prop :=
  ∀ (s : State) (c : Timing), s.busAttached = true → s.sleeping = false →
    (∀ p, s.busProbes = some p → (p.halted = true ∨ s.pc ∈ p.breakPoints) → s.stepCycles c = .next (s, 0) ∧ step s = .next s) ∧
    (∀ p, s.busProbes = some p → p.halted = false → s.pc ∉ p.breakPoints → s.debugAbort = false) ∧
    (s.busProbes = none → s.debugAbort = false)

/-- 00_scope R13: without a bus every `Step` and `Tick` is refused. -/
def Obligations.NoBusNoStep : Prop :=
  ∀ (s : State) (c : Timing) (n : Nat), s.busAttached = false →
    step s = .refused .noBus ∧ s.stepCycles c = .refused .noBus ∧ s.tick c n = .refused .noBus

/-- 60_exceptions R330, 30_encoding R97: no instruction faults or is refused in any state, and with a bus no step and no tick is. -/
def Obligations.NothingFaults : Prop :=
  (∀ (i : Instr) (s : State), ∃ t, exec i s = .next t) ∧
  (∀ s : State, s.busAttached = true → ∃ t, step s = .next t) ∧
  (∀ (s : State) (c : Timing) (n : Nat), s.busAttached = true → ∃ t, s.tick c n = .next t)

/-! ## P3 ALU -/

/-- 41_p3_alu R160 to R163. -/
def Obligations.BitwiseResults : Prop :=
  ∀ (rd rs : Reg) (o : Operand) (s : State),
    (∃ t, exec (.and rd rs o) s = .next t ∧ AluEffect s t rd (s.reg rs &&& s.op2 o) false false) ∧
    (∃ t, exec (.or rd rs o) s = .next t ∧ AluEffect s t rd (s.reg rs ||| s.op2 o) false false) ∧
    (∃ t, exec (.xor rd rs o) s = .next t ∧ AluEffect s t rd (s.reg rs ^^^ s.op2 o) false false) ∧
    (∃ t, exec (.bitc rd rs o) s = .next t ∧ AluEffect s t rd (s.reg rs &&& ~~~(s.op2 o)) false false)

/-- 41_p3_alu R164, R165, R181. -/
def Obligations.AdditionResults : Prop :=
  ∀ (rd rs : Reg) (o : Operand) (s : State),
    (∃ t, exec (.add rd rs o) s = .next t ∧ SumEffect s t rd (s.reg rs) (s.op2 o) false) ∧
    (∃ t, exec (.addc rd rs o) s = .next t ∧ SumEffect s t rd (s.reg rs) (s.op2 o) (s.flag bitCF))

/-- 41_p3_alu R166 to R169, R182. -/
def Obligations.SubtractionResults : Prop :=
  ∀ (rd rs : Reg) (o : Operand) (s : State),
    (∃ t, exec (.sub rd rs o) s = .next t ∧ DifferenceEffect s t rd (s.reg rs) (s.op2 o) false) ∧
    (∃ t, exec (.subb rd rs o) s = .next t ∧ DifferenceEffect s t rd (s.reg rs) (s.op2 o) (s.flag bitCF)) ∧
    (∃ t, exec (.rsb rd rs o) s = .next t ∧ DifferenceEffect s t rd (s.op2 o) (s.reg rs) false) ∧
    (∃ t, exec (.rsbb rd rs o) s = .next t ∧ DifferenceEffect s t rd (s.op2 o) (s.reg rs) (s.flag bitCF))

/-- 41_p3_alu R181, R182 with 10_state R24 ("signed overflow"): OF is set exactly when the exact signed sum or difference,
carry or borrow included, does not fit 32 signed bits. -/
def Obligations.OverflowFlagIsExact : Prop :=
  ∀ (rd rs : Reg) (o : Operand) (s : State),
    let a := (s.reg rs).toInt
    let b := (s.op2 o).toInt
    let c : Int := if s.flag bitCF then 1 else 0
    (∃ t, exec (.add rd rs o) s = .next t ∧ OverflowSays t (a + b)) ∧
    (∃ t, exec (.addc rd rs o) s = .next t ∧ OverflowSays t (a + b + c)) ∧
    (∃ t, exec (.sub rd rs o) s = .next t ∧ OverflowSays t (a - b)) ∧
    (∃ t, exec (.subb rd rs o) s = .next t ∧ OverflowSays t (a - b - c)) ∧
    (∃ t, exec (.rsb rd rs o) s = .next t ∧ OverflowSays t (b - a)) ∧
    (∃ t, exec (.rsbb rd rs o) s = .next t ∧ OverflowSays t (b - a - c))

/-- 41_p3_alu R170 to R174, R183: each bit of a shift or rotate by `n = u(b) mod 32`, CF the last bit out (0 for n = 0), OF 0. -/
def Obligations.ShiftAndRotateResults : Prop :=
  ∀ (rd rs : Reg) (o : Operand) (s : State),
    let a := s.reg rs
    let n := (s.op2 o).toNat % 32
    let left := decide (n ≠ 0) && a.getLsbD (32 - n)
    let right := decide (n ≠ 0) && a.getLsbD (n - 1)
    (∃ t r, exec (.lls rd rs o) s = .next t ∧ AluEffect s t rd r left false ∧
      ∀ k, k < 32 → r.getLsbD k = (decide (n ≤ k) && a.getLsbD (k - n))) ∧
    (∃ t r, exec (.rls rd rs o) s = .next t ∧ AluEffect s t rd r right false ∧
      ∀ k, k < 32 → r.getLsbD k = (decide (k + n < 32) && a.getLsbD (k + n))) ∧
    (∃ t r, exec (.ars rd rs o) s = .next t ∧ AluEffect s t rd r right false ∧
      ∀ k, k < 32 → r.getLsbD k = a.getLsbD (min (k + n) 31)) ∧
    (∃ t r, exec (.rotl rd rs o) s = .next t ∧ AluEffect s t rd r left false ∧
      ∀ k, k < 32 → r.getLsbD k = a.getLsbD ((k + 32 - n) % 32)) ∧
    (∃ t r, exec (.rotr rd rs o) s = .next t ∧ AluEffect s t rd r right false ∧
      ∀ k, k < 32 → r.getLsbD k = a.getLsbD ((k + n) % 32))

/-- 41_p3_alu R175, R176: rd and Y together are the exact 64-bit product, unsigned or signed. -/
def Obligations.ProductResults : Prop :=
  ∀ (rd rs : Reg) (o : Operand) (s : State),
    (∃ t lo hi, exec (.mul rd rs o) s = .next t ∧ YEffect s t rd lo hi ∧
      hi.toNat * 2 ^ 32 + lo.toNat = (s.reg rs).toNat * (s.op2 o).toNat) ∧
    (∃ t lo hi, exec (.smul rd rs o) s = .next t ∧ YEffect s t rd lo hi ∧
      hi.toInt * 2 ^ 32 + (lo.toNat : Int) = (s.reg rs).toInt * (s.op2 o).toInt)

/-- 41_p3_alu R177: DIV. -/
def Obligations.UnsignedDivision : Prop :=
  ∀ (rd rs : Reg) (o : Operand) (s : State),
    (s.op2 o = 0#32 → ∃ t, exec (.div rd rs o) s = .next t ∧ DivideErrorEffect s t) ∧
    (s.op2 o ≠ 0#32 → ∃ t q r, exec (.div rd rs o) s = .next t ∧ YEffect s t rd q r ∧
      q.toNat = (s.reg rs).toNat / (s.op2 o).toNat ∧ r.toNat = (s.reg rs).toNat % (s.op2 o).toNat)

/-- 41_p3_alu R178: SDIV. The quotient is rounded toward zero; the remainder has the sign of the dividend;
0x80000000 / 0xFFFFFFFF gives the parameter SDIV_OVF, whose default is 0x80000000 and 0. -/
def Obligations.SignedDivision : Prop :=
  (∀ (rd rs : Reg) (o : Operand) (s : State),
    let a := s.reg rs
    let b := s.op2 o
    (b = 0#32 → ∃ t, exec (.sdiv rd rs o) s = .next t ∧ DivideErrorEffect s t) ∧
    (a = 0x80000000#32 → b = 0xFFFFFFFF#32 → ∃ t, exec (.sdiv rd rs o) s = .next t ∧
      YEffect s t rd s.params.sdivOvfQuotient s.params.sdivOvfRemainder) ∧
    (b ≠ 0#32 → ¬(a = 0x80000000#32 ∧ b = 0xFFFFFFFF#32) → ∃ t q r, exec (.sdiv rd rs o) s = .next t ∧ YEffect s t rd q r ∧
      q.toInt = a.toInt.tdiv b.toInt ∧ r.toInt = a.toInt - q.toInt * b.toInt ∧
      (0 ≤ a.toInt → 0 ≤ r.toInt) ∧ (a.toInt ≤ 0 → r.toInt ≤ 0) ∧ r.toInt.natAbs < b.toInt.natAbs)) ∧
  State.reset.params.sdivOvfQuotient = 0x80000000#32 ∧ State.reset.params.sdivOvfRemainder = 0#32

/-! ## Loads, stores, moves -/

/-- 42 R200 to R202, 43 R225 to R227: the six loads. The model's choice, where a read meets a device window (20_memory R55): the bytes
outside the window are memory's, and no byte of memory changes (notes/assumptions/3.md, 4.md). -/
def Obligations.LoadResults : Prop :=
  ∀ (rd rs : Reg) (o : Operand) (s : State),
    s.ea3 rs o = s.reg rs + s.op2 o ∧ s.ea2 o = s.op2 o ∧
    (∃ t, exec (.load rd rs o) s = .next t ∧ LoadEffect s t .dword rd (s.ea3 rs o)) ∧
    (∃ t, exec (.loadw rd rs o) s = .next t ∧ LoadEffect s t .word rd (s.ea3 rs o)) ∧
    (∃ t, exec (.loadb rd rs o) s = .next t ∧ LoadEffect s t .byte rd (s.ea3 rs o)) ∧
    (∃ t, exec (.load2 rd o) s = .next t ∧ LoadEffect s t .dword rd (s.ea2 o)) ∧
    (∃ t, exec (.loadw2 rd o) s = .next t ∧ LoadEffect s t .word rd (s.ea2 o)) ∧
    (∃ t, exec (.loadb2 rd o) s = .next t ∧ LoadEffect s t .byte rd (s.ea2 o))

/-- 42 R203 to R205, 43 R228 to R230: the six stores. The model's choice, where a write meets a device window (20_memory R55, R58): the
bytes outside the window are stored, and memory behind it is kept (notes/assumptions/3.md, 4.md). -/
def Obligations.StoreResults : Prop :=
  ∀ (rd rs : Reg) (o : Operand) (s : State),
    s.ea3 rs o = s.reg rs + s.op2 o ∧ s.ea2 o = s.op2 o ∧
    (∃ t, exec (.store rd rs o) s = .next t ∧ StoreEffect s t .dword rd (s.ea3 rs o)) ∧
    (∃ t, exec (.storew rd rs o) s = .next t ∧ StoreEffect s t .word rd (s.ea3 rs o)) ∧
    (∃ t, exec (.storeb rd rs o) s = .next t ∧ StoreEffect s t .byte rd (s.ea3 rs o)) ∧
    (∃ t, exec (.store2 rd o) s = .next t ∧ StoreEffect s t .dword rd (s.ea2 o)) ∧
    (∃ t, exec (.storew2 rd o) s = .next t ∧ StoreEffect s t .word rd (s.ea2 o)) ∧
    (∃ t, exec (.storeb2 rd o) s = .next t ∧ StoreEffect s t .byte rd (s.ea2 o))

/-- 43 R220, R222, R223, R224: MOV, NOT and the sign extensions, the latter as signed values. -/
def Obligations.MoveResults : Prop :=
  ∀ (rd : Reg) (o : Operand) (s : State),
    (∃ t, exec (.mov rd o) s = .next t ∧ RegEffect s t rd (s.op2 o)) ∧
    (∃ t, exec (.not rd o) s = .next t ∧ RegEffect s t rd (~~~(s.op2 o))) ∧
    (∃ t v, exec (.sigxb rd o) s = .next t ∧ RegEffect s t rd v ∧ v.toInt = ((s.op2 o).extractLsb' 0 8).toInt) ∧
    (∃ t v, exec (.sigxw rd o) s = .next t ∧ RegEffect s t rd v ∧ v.toInt = ((s.op2 o).extractLsb' 0 16).toInt)

/-- 43 R221, 45_p1 R280 to R282: SWP, XCHGB, XCHGW and GETPC; their literal forms change nothing. -/
def Obligations.ExchangeResults : Prop :=
  ∀ (rd rn : Reg) (s : State),
    (∃ t, exec (.swp rd (.reg rn)) s = .next t ∧ t.reg rd = s.reg rn ∧ t.reg rn = s.reg rd ∧
      KeepsRegsBut [rd, rn] s t ∧ OnlyRegs s t) ∧
    (∃ t v, exec (.xchgb (.reg rn)) s = .next t ∧ RegEffect s t rn v ∧ byteOf v 0 = byteOf (s.reg rn) 1 ∧
      byteOf v 1 = byteOf (s.reg rn) 0 ∧ byteOf v 2 = byteOf (s.reg rn) 2 ∧ byteOf v 3 = byteOf (s.reg rn) 3) ∧
    (∃ t v, exec (.xchgw (.reg rn)) s = .next t ∧ RegEffect s t rn v ∧ byteOf v 0 = byteOf (s.reg rn) 2 ∧
      byteOf v 1 = byteOf (s.reg rn) 3 ∧ byteOf v 2 = byteOf (s.reg rn) 0 ∧ byteOf v 3 = byteOf (s.reg rn) 1) ∧
    (∃ t, exec (.getpc (.reg rn)) s = .next t ∧ RegEffect s t rn s.pc) ∧
    (∀ v : Word, exec (.swp rd (.lit v)) s = .next s ∧ exec (.swp rd (.big v)) s = .next s ∧
      exec (.xchgb (.lit v)) s = .next s ∧ exec (.xchgb (.big v)) s = .next s ∧
      exec (.xchgw (.lit v)) s = .next s ∧ exec (.xchgw (.big v)) s = .next s ∧
      exec (.getpc (.lit v)) s = .next s ∧ exec (.getpc (.big v)) s = .next s)

/-! ## Stack and control transfer -/

/-- 45_p1 R283: POP, `POP %sp` and the literal forms. -/
def Obligations.PopResults : Prop :=
  ∀ (rn : Reg) (s : State),
    (∃ t v, exec (.pop (.reg rn)) s = .next t ∧
      t.reg .sp = (if rn = .sp then v + 4#32 else s.reg .sp + 4#32) ∧ (rn ≠ .sp → t.reg rn = v) ∧
      (s.PlainAt (s.reg .sp) 4 → v = s.peekWord (s.reg .sp)) ∧ KeepsRegsBut [rn, .sp] s t ∧ t.pc = s.pc ∧
      KeepsMemory s t ∧ t.busLog = s.busLog ++ [.read .dword (s.reg .sp)] ∧ KeepsSequencer s t ∧ KeepsPlatform s t) ∧
    (∀ v : Word, exec (.pop (.lit v)) s = .next s ∧ exec (.pop (.big v)) s = .next s)

/-- 45_p1 R284, 40_step_engine R140: PUSH. That a byte written to a device (20_memory R58) changes no byte of memory is the model's
choice (notes/assumptions/4.md). -/
def Obligations.PushResults : Prop :=
  ∀ (o : Operand) (s : State), ∃ t, exec (.push o) s = .next t ∧ PushEffect s t (s.op2 o) s.pc

/-- 45_p1 R285, R287, 44 R258, 40_step_engine R142: JMP, RJMP and JMP2. -/
def Obligations.JumpResults : Prop :=
  ∀ (rd : Reg) (o : Operand) (s : State),
    (∃ t, exec (.jmp o) s = .next t ∧ JumpEffect s t (s.op2 o)) ∧
    (∃ t, exec (.rjmp o) s = .next t ∧ JumpEffect s t (s.pc + s.op2 o)) ∧
    (∃ t, exec (.jmp2 rd o) s = .next t ∧ JumpEffect s t (s.reg rd + s.op2 o))

/-- 45_p1 R286, R288, 44 R259: CALL, RCALL and CALL2 push the return address and jump to a target read before the push.
That a byte pushed to a device (20_memory R58) changes no byte of memory is the model's choice (notes/assumptions/4.md). -/
def Obligations.CallResults : Prop :=
  ∀ (rd : Reg) (o : Operand) (s : State),
    (∃ t, exec (.call o) s = .next t ∧ PushEffect s t s.pc (s.op2 o &&& 0xFFFFFFFC#32)) ∧
    (∃ t, exec (.rcall o) s = .next t ∧ PushEffect s t s.pc ((s.pc + s.op2 o) &&& 0xFFFFFFFC#32)) ∧
    (∃ t, exec (.call2 rd o) s = .next t ∧ PushEffect s t s.pc ((s.reg rd + s.op2 o) &&& 0xFFFFFFFC#32))

/-- 46_np R311: RET. -/
def Obligations.ReturnResults : Prop :=
  ∀ s : State, ∃ t v, exec .ret s = .next t ∧ t.pc = v &&& 0xFFFFFFFC#32 ∧ t.pc.toNat % 4 = 0 ∧
    (s.PlainAt (s.reg .sp) 4 → v = s.peekWord (s.reg .sp)) ∧ t.reg .sp = s.reg .sp + 4#32 ∧ KeepsRegsBut [.sp] s t ∧
    KeepsMemory s t ∧ t.busLog = s.busLog ++ [.read .dword (s.reg .sp)] ∧ KeepsSequencer s t ∧ KeepsPlatform s t

/-- 46_np R312, 60 R341: RFI. -/
def Obligations.ReturnFromInterruptResults : Prop :=
  ∀ s : State, ∃ t p r, exec .rfi s = .next t ∧ t.pc = p ∧ t.reg .r0 = r ∧ t.reg .sp = s.reg .sp + 8#32 ∧
    (s.PlainAt (s.reg .sp) 4 → p = s.peekWord (s.reg .sp)) ∧
    (s.PlainAt (above (s.reg .sp) 4) 4 → r = s.peekWord (above (s.reg .sp) 4)) ∧
    (∀ k, t.flag k = if k = bitIF then false else s.flag k) ∧ KeepsRegsBut [.r0, .sp, .flags] s t ∧
    t.interrupt = false ∧ t.intMsg = s.intMsg ∧ t.waitCycles = s.waitCycles ∧ t.stepMode = s.stepMode ∧
    t.skiping = s.skiping ∧ t.sleeping = s.sleeping ∧ KeepsMemory s t ∧ KeepsPlatform s t ∧
    t.busLog = s.busLog ++ [.read .dword (s.reg .sp), .read .dword (above (s.reg .sp) 4)]

/-- 46_np R310: SLEEP changes only `sleeping`. -/
def Obligations.SleepResult : Prop :=
  ∀ s : State, exec .sleep s = .next { s with sleeping := true }

/-- 45_p1 R289: INT latches the low byte of its operand if EI is set, and changes nothing if it is not. -/
def Obligations.SoftwareInterruptResult : Prop :=
  ∀ (o : Operand) (s : State),
    (s.flag bitEI = true →
      exec (.int o) s = .next { s with interrupt := true, intMsg := (s.op2 o).extractLsb' 0 8 }) ∧
    (s.flag bitEI = false → exec (.int o) s = .next s)

/-- 44 R250 to R257, R260: the eight conditionals. -/
def Obligations.ConditionalResults : Prop :=
  ∀ (rd : Reg) (o : Operand) (s : State),
    let a := s.reg rd
    let b := s.op2 o
    (∃ t, exec (.ifeq rd o) s = .next t ∧ CondEffect s t (a = b)) ∧
    (∃ t, exec (.ifneq rd o) s = .next t ∧ CondEffect s t (a ≠ b)) ∧
    (∃ t, exec (.ifl rd o) s = .next t ∧ CondEffect s t (a.toNat < b.toNat)) ∧
    (∃ t, exec (.ifsl rd o) s = .next t ∧ CondEffect s t (a.toInt < b.toInt)) ∧
    (∃ t, exec (.ifle rd o) s = .next t ∧ CondEffect s t (a.toNat ≤ b.toNat)) ∧
    (∃ t, exec (.ifsle rd o) s = .next t ∧ CondEffect s t (a.toInt ≤ b.toInt)) ∧
    (∃ t, exec (.ifbits rd o) s = .next t ∧ CondEffect s t (∃ k, a.getLsbD k = true ∧ b.getLsbD k = true)) ∧
    (∃ t, exec (.ifclear rd o) s = .next t ∧ CondEffect s t (∀ k, b.getLsbD k = true → a.getLsbD k = false))

/-- 40_step_engine R138 to R142, 45_p1 R286, R288, 44 R259 (95 SRC-6): on plain memory POP takes back what PUSH pushed, and RET
returns to the address after a CALL, RCALL or CALL2, masked, with every register as before. -/
def Obligations.StackRoundTrips : Prop :=
  ∀ s : State, s.PlainAt (s.reg .sp - 4#32) 4 →
    (∀ (o : Operand) (rn : Reg), ∃ t u, exec (.push o) s = .next t ∧ exec (.pop (.reg rn)) t = .next u ∧
      u.reg rn = (if rn = .sp then s.op2 o + 4#32 else s.op2 o) ∧ KeepsRegsBut [rn] s u) ∧
    (∀ (rd : Reg) (o : Operand) (i : Instr), i ∈ [.call o, .rcall o, .call2 rd o] →
      ∃ t u, exec i s = .next t ∧ exec .ret t = .next u ∧ u.pc = s.pc &&& 0xFFFFFFFC#32 ∧ KeepsRegsBut [] s u)

/-! ## Interrupts -/

/-- 60 R332: `SendInterrupt`. -/
def Obligations.SendInterruptLatches : Prop :=
  ∀ (s : State) (msg : Word),
    (s.flag bitEI = true → s.sendInterrupt msg = (true, { s with interrupt := true, intMsg := msg.extractLsb' 0 8 })) ∧
    (s.flag bitEI = false → s.sendInterrupt msg = (false, s))

/-- 60 R333 to R337: `ProcessInterrupt` enters through a non-zero vector, only clears the latch for a null vector, and changes
nothing unless EI is set, an interrupt is pending and no skip is in progress. That a byte pushed to a device (20_memory R58) changes
no byte of memory is the model's choice (notes/assumptions/4.md). -/
def Obligations.InterruptIsProcessed : Prop :=
  ∀ s : State,
    let va := s.reg .ia + BitVec.ofNat 32 (4 * s.intMsg.toNat)
    let vec := s.readValue .dword va
    (s.PlainAt va 4 → vec = s.peekWord va) ∧
    (s.flag bitEI = true → s.interrupt = true → s.skiping = false → vec ≠ 0#32 → EntryEffect s s.processInterrupt vec) ∧
    (s.flag bitEI = true → s.interrupt = true → s.skiping = false → vec = 0#32 →
      s.processInterrupt = { s with interrupt := false, busLog := s.busLog ++ [.read .dword va] }) ∧
    (¬(s.flag bitEI = true ∧ s.interrupt = true ∧ s.skiping = false) → s.processInterrupt = s)

/-- 40_step_engine R127: the step-mode interrupt comes after an instruction that began with IF = 0, replaces the pending
message and is latched only if EI is set; otherwise the end of the step is the interrupt check alone. -/
def Obligations.StepModeInterrupts : Prop :=
  ∀ (s : State) (if0 : Bool),
    (s.stepMode = true → if0 = false → s.flag bitEI = true →
      s.endOfStep if0 = State.processInterrupt { s with interrupt := true, intMsg := s.params.stepIntMsg }) ∧
    (¬(s.stepMode = true ∧ if0 = false ∧ s.flag bitEI = true) → s.endOfStep if0 = s.processInterrupt)

/-- 60 R336, R341, 46_np R312: an RFI straight after an interrupt entry brings back the pc and every register, and every FLAGS
bit but IF, which is 0; nothing is left pending. -/
def Obligations.ReturnUndoesEntry : Prop :=
  ∀ s : State, s.flag bitEI = true → s.interrupt = true → s.skiping = false →
    s.readValue .dword s.vectorAddress ≠ 0#32 → s.PlainAt (s.reg .sp - 8#32) 8 →
    ∃ u, exec .rfi s.processInterrupt = .next u ∧ u.pc = s.pc ∧ KeepsRegsBut [.flags] s u ∧
      (∀ k, u.flag k = if k = bitIF then false else s.flag k) ∧ u.interrupt = false ∧ u.sleeping = false

/-- 40_step_engine R134, R135, 70 R396: asleep, a `Step` is the interrupt check and 1 cycle; in a quiescent state no `Step`
and no `Tick` changes anything. -/
def Obligations.SleepingCore : Prop :=
  ∀ (s : State) (c : Timing), s.busAttached = true →
    (s.sleeping = true → s.stepCycles c = .next (s.processInterrupt, 1)) ∧
    (s.Quiescent → step s = .next s ∧ ∀ n, s.tick c n = .next s)

/-! ## Reset, invariant, whole-machine rules -/

/-- 10_state R36: what `Reset` sets, and that it leaves memory and the rest of the bus as they are. -/
def Obligations.ResetValues : Prop :=
  (∀ s : State, (∀ r, s.hostReset.reg r = 0#32) ∧ s.hostReset.pc = 0x00100000#32 ∧ s.hostReset.sleeping = false ∧
    s.hostReset.skiping = false ∧ s.hostReset.interrupt = false ∧ s.hostReset.stepMode = false ∧
    s.hostReset.waitCycles = 0#32 ∧ s.hostReset.intMsg = 0#8 ∧ NoBusCall s s.hostReset ∧ KeepsPlatform s s.hostReset) ∧
  State.reset.hostReset = State.reset

/-- 10_state R33, 20_memory R52: the reset state has memory in canonical form (the model's choice, notes/assumptions/1.md) and is
not both asleep and skipping. -/
def Obligations.ResetHasInvariant : Prop := State.reset.Inv

/-- 10_state R33: every step keeps the invariant: memory in canonical form (the model's choice, notes/assumptions/1.md), never both
asleep and skipping. -/
def Obligations.StepKeepsInvariant : Prop :=
  ∀ s t : State, s.Inv → step s = .next t → t.Inv

/-- 10_state R33, 70 R384, R386: every sequence of host operations keeps the invariant, but for `SetState` and a bus change to a
memory that is not in canonical form. The canonical form, in the invariant and in that condition, is the model's choice
(notes/assumptions/1.md). -/
def Obligations.HostRunKeepsInvariant : Prop :=
  ∀ (c : Timing) (ops : List HostOp) (s t : State), s.Inv → (∀ op ∈ ops, op.Ordinary) → s.hostRun c ops = .next t → t.Inv

/-- 10_state R21, R23, 40_step_engine R126: an instruction changes no register but those it names as destination and those
the hardware writes with it; only the stores, PUSH and the calls change memory; the platform is never changed. -/
def Obligations.OnlyNamedRegistersChange : Prop :=
  ∀ (i : Instr) (s t : State), exec i s = .next t →
    KeepsRegsBut (destinations i ++ implicitWrites i) s t ∧ (writesMemory i = false → KeepsMemory s t) ∧ KeepsPlatform s t

/-- 10_state R24, R25: unless it names r15 as its destination, no instruction changes a FLAGS bit above DE but RFI, which
changes IF, none clears DE, and interrupt entry changes IF alone. -/
def Obligations.FlagsChangeOnlyAsNamed : Prop :=
  (∀ (i : Instr) (s t : State), Reg.flags ∉ destinations i → exec i s = .next t →
    (∀ k, bitIF < k → t.flag k = s.flag k) ∧ (i ≠ .rfi → t.flag bitIF = s.flag bitIF) ∧
    (s.flag bitDE = true → t.flag bitDE = true)) ∧
  (∀ (s : State) (k : Nat), k ≠ bitIF → s.processInterrupt.flag k = s.flag k)

/-- 10_state R32: an instruction changes no sequencer item, but SLEEP may change `sleeping`, INT the latch, RFI the pending bit,
and an IFxx `skiping`. -/
def Obligations.SequencerChangesOnlyAsNamed : Prop :=
  ∀ (i : Instr) (s t : State), exec i s = .next t →
    t.waitCycles = s.waitCycles ∧ t.stepMode = s.stepMode ∧ (t.sleeping ≠ s.sleeping → i = .sleep) ∧
    (t.skiping ≠ s.skiping → IsConditional i) ∧ (t.interrupt ≠ s.interrupt → i = .rfi ∨ ∃ o, i = .int o) ∧
    (t.intMsg ≠ s.intMsg → ∃ o, i = .int o)

/-! ## Cycles and ticks -/

/-- 40_step_engine R137: the state a step leaves does not depend on the costs. -/
def Obligations.CostsChangeNoState : Prop :=
  ∀ (s : State) (c d : Timing), dropCycles (s.stepCycles c) = dropCycles (s.stepCycles d) ∧ step s = dropCycles (s.stepCycles c)

/-- 40_step_engine R129: the cycles of a `RealStep`: aborted 0; skipped SKIP_COST; executed COST[op], +1 with a big literal,
+1 if it started a skip, which only an IFxx does. -/
def Obligations.CycleCounts : Prop :=
  ∀ (s t : State) (c : Timing) (n : Nat), s.realStep c = .next (t, n) →
    let h := header (s.readValue .dword s.pc)
    (s.debugAbort = true → n = 0) ∧ (s.debugAbort = false → s.skiping = true → n = c.skipCost) ∧
    (s.debugAbort = false → s.skiping = false →
      n = c.cost h.op + (if h.big then 1 else 0) + (if t.skiping then 1 else 0) ∧ (t.skiping = true → h.isIFxx = true))

/-- 40_step_engine R135: an instruction of cost n is issued in the first of its n cycles; after j of them its effects are
done and n - j cycles remain; the next `RealStep` comes n cycles later. -/
def Obligations.InstructionOccupiesItsCycles : Prop :=
  ∀ (s t : State) (c : Timing) (n j : Nat), s.busAttached = true → s.sleeping = false → s.waitCycles = 0#32 →
    s.realStep c = .next (t, n) → t.sleeping = false → n ≤ 2 ^ 32 → 1 ≤ j → j ≤ n →
    s.tick c j = .next { t with waitCycles := BitVec.ofNat 32 (n - j) }

/-- 40_step_engine R135 (95 section 3.2): ticks add up: m + n cycles in one call are m cycles and then n. -/
def Obligations.TicksAddUp : Prop :=
  ∀ (s t : State) (c : Timing) (m n : Nat), s.tick c m = .next t → s.tick c (m + n) = t.tick c n

/-! ## Memory and snapshot -/

/-- 20_memory R53, R54 (95 LS-6): little-endian at every address of plain memory: the bytes of a 16-bit or 32-bit write, and the
reads of every width at its own address and at the addresses inside it. -/
def Obligations.MemoryIsLittleEndian : Prop :=
  ∀ (s : State) (a v : Word),
    (s.PlainAt a 2 →
      let t := s.busWrite .word a v
      (∀ k, k < 2 → t.peek (above a k) = byteOf v k ∧ t.readValue .byte (above a k) = (byteOf v k).setWidth 32) ∧
      t.readValue .word a = (v.extractLsb' 0 16).setWidth 32) ∧
    (s.PlainAt a 4 →
      let t := s.busWrite .word a v
      t.readValue .word (above a 1) = (s.peek (above a 2) ++ byteOf v 1).setWidth 32 ∧
      t.readValue .dword a = s.peek (above a 3) ++ s.peek (above a 2) ++ v.extractLsb' 0 16) ∧
    (s.PlainAt a 4 →
      let t := s.busWrite .dword a v
      (∀ k, k < 4 → t.peek (above a k) = byteOf v k ∧ t.readValue .byte (above a k) = (byteOf v k).setWidth 32) ∧
      t.readValue .word a = (v.extractLsb' 0 16).setWidth 32 ∧ t.readValue .word (above a 1) = (v.extractLsb' 8 16).setWidth 32 ∧
      t.readValue .word (above a 2) = (v.extractLsb' 16 16).setWidth 32 ∧ t.readValue .dword a = v)

/-- The model's canonical form (notes/assumptions/1.md; 20_memory R52): memories that read alike are equal data. -/
def Obligations.MemoryFormIsCanonical : Prop :=
  ∀ m k : Memory, m.wf = true → k.wf = true → (∀ a, Memory.read m a = Memory.read k a) → m = k

/-- 70 R385, R386, R388: `SetState` of what `GetState` wrote restores the core exactly, into any core and any buffer long
enough; a short or null buffer is refused and nothing changes. -/
def Obligations.SnapshotRoundTrip : Prop :=
  (∀ (s u : State) (buf : List Byte), snapLen ≤ buf.length →
    ∃ bs, s.getState (some buf) = (some bs, snapLen) ∧ bs.length = buf.length ∧
      u.setState (some bs) =
        (true, { s with
          mem := u.mem, busLog := u.busLog, busAttached := u.busAttached, busProbes := u.busProbes,
          devices := u.devices, params := u.params })) ∧
  (∀ (u : State) (buf : List Byte), buf.length < snapLen →
    u.getState (some buf) = (some buf, 0) ∧ u.setState (some buf) = (false, u)) ∧
  (∀ u : State, u.getState none = (none, 0) ∧ u.setState none = (false, u))
end

