-- ==== Sys2Proof/Laws/Memory.lean ====
section
/-!
SUPPORT. Plain memory: reading after a write, and the canonical form, which every operation keeps.
-/

namespace Sys2Proof.Machine

/-- An address erased from a listing reads as unwritten; every other address reads as before. -/
theorem Memory.read_erase (m : Memory) (a x : Nat) :
    Memory.read (m.erase a) x = if x = a then Memory.unwritten else Memory.read m x := by
  induction m with
  | nil => simp [Memory.erase, Memory.read]
  | cons c m ih =>
    obtain ⟨k, v⟩ := c
    by_cases hk : k = a
    · have : Memory.erase ((k, v) :: m) a = Memory.erase m a := by simp [Memory.erase, hk]
      rw [this, ih]
      by_cases hx : x = a <;> simp [Memory.read, hx, hk]
    · have : Memory.erase ((k, v) :: m) a = (k, v) :: Memory.erase m a := by simp [Memory.erase, hk]
      rw [this]
      by_cases hxk : x = k
      · simp [Memory.read, hxk, hk]
      · simp [Memory.read, hxk, ih]

/-- An inserted byte is read back; every other address reads as before. -/
theorem Memory.read_insert (m : Memory) (a : Nat) (b : Byte) (x : Nat) :
    Memory.read (m.insert a b) x = if x = a then b else Memory.read m x := by
  induction m with
  | nil => simp [Memory.insert, Memory.read]
  | cons c m ih =>
    obtain ⟨k, v⟩ := c
    unfold Memory.insert
    split
    · simp [Memory.read]
    · split
      · rename_i h; subst h
        by_cases hx : x = a <;> simp [Memory.read, hx]
      · rename_i h
        by_cases hxk : x = k
        · have : x ≠ a := by omega
          simp [Memory.read, hxk, Ne.symm h]
        · simp [Memory.read, hxk, ih]

/-- Reading after a write, for every listing (20_memory R52). -/
@[simp] theorem Memory.read_write (m : Memory) (a : Nat) (b : Byte) (x : Nat) :
    Memory.read (m.write a b) x = if x = a then b else Memory.read m x := by
  unfold Memory.write
  split
  · rename_i h; rw [Memory.read_erase, h]
  · exact Memory.read_insert m a b x

/-- A listing in canonical form from a higher address on is in canonical form from a lower one on. -/
theorem Memory.wfFrom_mono {lo lo' : Nat} (h : lo' ≤ lo) {m : Memory} (hm : Memory.wfFrom lo m = true) :
    Memory.wfFrom lo' m = true := by
  cases m with
  | nil => rfl
  | cons c m =>
    simp only [Memory.wfFrom, Bool.and_eq_true, decide_eq_true_eq] at hm ⊢
    exact ⟨⟨⟨by omega, hm.1.1.2⟩, hm.1.2⟩, hm.2⟩

theorem Memory.wfFrom_erase (a : Nat) {lo : Nat} {m : Memory} (hm : Memory.wfFrom lo m = true) :
    Memory.wfFrom lo (m.erase a) = true := by
  induction m generalizing lo with
  | nil => rfl
  | cons c m ih =>
    obtain ⟨k, v⟩ := c
    simp only [Memory.wfFrom, Bool.and_eq_true, decide_eq_true_eq] at hm
    by_cases hk : k = a
    · have : Memory.erase ((k, v) :: m) a = Memory.erase m a := by simp [Memory.erase, hk]
      rw [this]
      exact ih (Memory.wfFrom_mono (by omega) hm.2)
    · have : Memory.erase ((k, v) :: m) a = (k, v) :: Memory.erase m a := by simp [Memory.erase, hk]
      rw [this]
      simp only [Memory.wfFrom, Bool.and_eq_true, decide_eq_true_eq]
      exact ⟨hm.1, ih hm.2⟩

theorem Memory.wfFrom_insert {a : Nat} (ha : a < 2 ^ 32) {b : Byte} (hb : b ≠ Memory.unwritten) {lo : Nat} (hlo : lo ≤ a)
    {m : Memory} (hm : Memory.wfFrom lo m = true) : Memory.wfFrom lo (m.insert a b) = true := by
  induction m generalizing lo with
  | nil =>
    simp only [Memory.insert, Memory.wfFrom, Bool.and_eq_true, decide_eq_true_eq]
    exact ⟨⟨⟨hlo, ha⟩, hb⟩, trivial⟩
  | cons c m ih =>
    obtain ⟨k, v⟩ := c
    simp only [Memory.wfFrom, Bool.and_eq_true, decide_eq_true_eq] at hm
    unfold Memory.insert
    split
    · rename_i h
      have h' : a + 1 ≤ k := h
      simp only [Memory.wfFrom, Bool.and_eq_true, decide_eq_true_eq]
      exact ⟨⟨⟨hlo, ha⟩, hb⟩, ⟨⟨h', hm.1.1.2⟩, hm.1.2⟩, hm.2⟩
    · split
      · rename_i h; subst h
        simp only [Memory.wfFrom, Bool.and_eq_true, decide_eq_true_eq]
        exact ⟨⟨⟨hlo, ha⟩, hb⟩, hm.2⟩
      · have h' : k + 1 ≤ a := by omega
        simp only [Memory.wfFrom, Bool.and_eq_true, decide_eq_true_eq]
        exact ⟨hm.1, ih h' hm.2⟩

/-- A write of a byte keeps the canonical form. -/
theorem Memory.wf_write {m : Memory} (hm : m.wf = true) {a : Nat} (ha : a < 2 ^ 32) (b : Byte) : (m.write a b).wf = true := by
  unfold Memory.write
  split
  · exact Memory.wfFrom_erase a hm
  · rename_i hb
    exact Memory.wfFrom_insert ha hb (Nat.zero_le a) hm

/-- The memory of the reset state is in canonical form. -/
theorem Memory.wf_reset : State.reset.mem.wf = true := rfl

end Sys2Proof.Machine
end

