-- ==== Sys2Proof/Laws/State.lean ====
section
/-!
SUPPORT. One lemma per field per update, so that no later proof unfolds a record update; register, FLAGS and memory reads through each update.
-/

namespace Sys2Proof.Machine

/-! ## Names -/

@[simp] theorem Reg.r0_ne_y : (Reg.r0 : Reg) ≠ Reg.y := by decide
@[simp] theorem Reg.r0_ne_bp : (Reg.r0 : Reg) ≠ Reg.bp := by decide
@[simp] theorem Reg.r0_ne_sp : (Reg.r0 : Reg) ≠ Reg.sp := by decide
@[simp] theorem Reg.r0_ne_ia : (Reg.r0 : Reg) ≠ Reg.ia := by decide
@[simp] theorem Reg.r0_ne_flags : (Reg.r0 : Reg) ≠ Reg.flags := by decide
@[simp] theorem Reg.y_ne_r0 : (Reg.y : Reg) ≠ Reg.r0 := by decide
@[simp] theorem Reg.y_ne_bp : (Reg.y : Reg) ≠ Reg.bp := by decide
@[simp] theorem Reg.y_ne_sp : (Reg.y : Reg) ≠ Reg.sp := by decide
@[simp] theorem Reg.y_ne_ia : (Reg.y : Reg) ≠ Reg.ia := by decide
@[simp] theorem Reg.y_ne_flags : (Reg.y : Reg) ≠ Reg.flags := by decide
@[simp] theorem Reg.bp_ne_r0 : (Reg.bp : Reg) ≠ Reg.r0 := by decide
@[simp] theorem Reg.bp_ne_y : (Reg.bp : Reg) ≠ Reg.y := by decide
@[simp] theorem Reg.bp_ne_sp : (Reg.bp : Reg) ≠ Reg.sp := by decide
@[simp] theorem Reg.bp_ne_ia : (Reg.bp : Reg) ≠ Reg.ia := by decide
@[simp] theorem Reg.bp_ne_flags : (Reg.bp : Reg) ≠ Reg.flags := by decide
@[simp] theorem Reg.sp_ne_r0 : (Reg.sp : Reg) ≠ Reg.r0 := by decide
@[simp] theorem Reg.sp_ne_y : (Reg.sp : Reg) ≠ Reg.y := by decide
@[simp] theorem Reg.sp_ne_bp : (Reg.sp : Reg) ≠ Reg.bp := by decide
@[simp] theorem Reg.sp_ne_ia : (Reg.sp : Reg) ≠ Reg.ia := by decide
@[simp] theorem Reg.sp_ne_flags : (Reg.sp : Reg) ≠ Reg.flags := by decide
@[simp] theorem Reg.ia_ne_r0 : (Reg.ia : Reg) ≠ Reg.r0 := by decide
@[simp] theorem Reg.ia_ne_y : (Reg.ia : Reg) ≠ Reg.y := by decide
@[simp] theorem Reg.ia_ne_bp : (Reg.ia : Reg) ≠ Reg.bp := by decide
@[simp] theorem Reg.ia_ne_sp : (Reg.ia : Reg) ≠ Reg.sp := by decide
@[simp] theorem Reg.ia_ne_flags : (Reg.ia : Reg) ≠ Reg.flags := by decide
@[simp] theorem Reg.flags_ne_r0 : (Reg.flags : Reg) ≠ Reg.r0 := by decide
@[simp] theorem Reg.flags_ne_y : (Reg.flags : Reg) ≠ Reg.y := by decide
@[simp] theorem Reg.flags_ne_bp : (Reg.flags : Reg) ≠ Reg.bp := by decide
@[simp] theorem Reg.flags_ne_sp : (Reg.flags : Reg) ≠ Reg.sp := by decide
@[simp] theorem Reg.flags_ne_ia : (Reg.flags : Reg) ≠ Reg.ia := by decide
@[simp] theorem bitCF_lt : bitCF < 32 := by decide
@[simp] theorem bitOF_lt : bitOF < 32 := by decide
@[simp] theorem bitDE_lt : bitDE < 32 := by decide
@[simp] theorem bitIF_lt : bitIF < 32 := by decide
@[simp] theorem bitEI_lt : bitEI < 32 := by decide
@[simp] theorem bitESS_lt : bitESS < 32 := by decide
@[simp] theorem bitCF_ne_bitOF : bitCF ≠ bitOF := by decide
@[simp] theorem bitCF_ne_bitDE : bitCF ≠ bitDE := by decide
@[simp] theorem bitCF_ne_bitIF : bitCF ≠ bitIF := by decide
@[simp] theorem bitCF_ne_bitEI : bitCF ≠ bitEI := by decide
@[simp] theorem bitCF_ne_bitESS : bitCF ≠ bitESS := by decide
@[simp] theorem bitOF_ne_bitCF : bitOF ≠ bitCF := by decide
@[simp] theorem bitOF_ne_bitDE : bitOF ≠ bitDE := by decide
@[simp] theorem bitOF_ne_bitIF : bitOF ≠ bitIF := by decide
@[simp] theorem bitOF_ne_bitEI : bitOF ≠ bitEI := by decide
@[simp] theorem bitOF_ne_bitESS : bitOF ≠ bitESS := by decide
@[simp] theorem bitDE_ne_bitCF : bitDE ≠ bitCF := by decide
@[simp] theorem bitDE_ne_bitOF : bitDE ≠ bitOF := by decide
@[simp] theorem bitDE_ne_bitIF : bitDE ≠ bitIF := by decide
@[simp] theorem bitDE_ne_bitEI : bitDE ≠ bitEI := by decide
@[simp] theorem bitDE_ne_bitESS : bitDE ≠ bitESS := by decide
@[simp] theorem bitIF_ne_bitCF : bitIF ≠ bitCF := by decide
@[simp] theorem bitIF_ne_bitOF : bitIF ≠ bitOF := by decide
@[simp] theorem bitIF_ne_bitDE : bitIF ≠ bitDE := by decide
@[simp] theorem bitIF_ne_bitEI : bitIF ≠ bitEI := by decide
@[simp] theorem bitIF_ne_bitESS : bitIF ≠ bitESS := by decide
@[simp] theorem bitEI_ne_bitCF : bitEI ≠ bitCF := by decide
@[simp] theorem bitEI_ne_bitOF : bitEI ≠ bitOF := by decide
@[simp] theorem bitEI_ne_bitDE : bitEI ≠ bitDE := by decide
@[simp] theorem bitEI_ne_bitIF : bitEI ≠ bitIF := by decide
@[simp] theorem bitEI_ne_bitESS : bitEI ≠ bitESS := by decide
@[simp] theorem bitESS_ne_bitCF : bitESS ≠ bitCF := by decide
@[simp] theorem bitESS_ne_bitOF : bitESS ≠ bitOF := by decide
@[simp] theorem bitESS_ne_bitDE : bitESS ≠ bitDE := by decide
@[simp] theorem bitESS_ne_bitIF : bitESS ≠ bitIF := by decide
@[simp] theorem bitESS_ne_bitEI : bitESS ≠ bitEI := by decide

variable (s : State)

/-! ## setReg -/

@[simp] theorem State.setReg_regs (r : Reg) (v : Word) : (s.setReg r v).regs = s.regs.set r.val v := rfl
@[simp] theorem State.setReg_pc (r : Reg) (v : Word) : (s.setReg r v).pc = s.pc := rfl
@[simp] theorem State.setReg_waitCycles (r : Reg) (v : Word) : (s.setReg r v).waitCycles = s.waitCycles := rfl
@[simp] theorem State.setReg_intMsg (r : Reg) (v : Word) : (s.setReg r v).intMsg = s.intMsg := rfl
@[simp] theorem State.setReg_interrupt (r : Reg) (v : Word) : (s.setReg r v).interrupt = s.interrupt := rfl
@[simp] theorem State.setReg_stepMode (r : Reg) (v : Word) : (s.setReg r v).stepMode = s.stepMode := rfl
@[simp] theorem State.setReg_skiping (r : Reg) (v : Word) : (s.setReg r v).skiping = s.skiping := rfl
@[simp] theorem State.setReg_sleeping (r : Reg) (v : Word) : (s.setReg r v).sleeping = s.sleeping := rfl
@[simp] theorem State.setReg_mem (r : Reg) (v : Word) : (s.setReg r v).mem = s.mem := rfl
@[simp] theorem State.setReg_busLog (r : Reg) (v : Word) : (s.setReg r v).busLog = s.busLog := rfl
@[simp] theorem State.setReg_busAttached (r : Reg) (v : Word) : (s.setReg r v).busAttached = s.busAttached := rfl
@[simp] theorem State.setReg_busProbes (r : Reg) (v : Word) : (s.setReg r v).busProbes = s.busProbes := rfl
@[simp] theorem State.setReg_devices (r : Reg) (v : Word) : (s.setReg r v).devices = s.devices := rfl
@[simp] theorem State.setReg_params (r : Reg) (v : Word) : (s.setReg r v).params = s.params := rfl
@[simp] theorem State.setReg_peek (r : Reg) (v : Word) (x : Word) : (s.setReg r v).peek x = s.peek x := rfl
@[simp] theorem State.setReg_isDevice (r : Reg) (v : Word) (x : Word) : (s.setReg r v).isDevice x = s.isDevice x := rfl

/-! ## setPc -/

@[simp] theorem State.setPc_regs (t : Word) : (s.setPc t).regs = s.regs := rfl
@[simp] theorem State.setPc_pc (t : Word) : (s.setPc t).pc = t := rfl
@[simp] theorem State.setPc_waitCycles (t : Word) : (s.setPc t).waitCycles = s.waitCycles := rfl
@[simp] theorem State.setPc_intMsg (t : Word) : (s.setPc t).intMsg = s.intMsg := rfl
@[simp] theorem State.setPc_interrupt (t : Word) : (s.setPc t).interrupt = s.interrupt := rfl
@[simp] theorem State.setPc_stepMode (t : Word) : (s.setPc t).stepMode = s.stepMode := rfl
@[simp] theorem State.setPc_skiping (t : Word) : (s.setPc t).skiping = s.skiping := rfl
@[simp] theorem State.setPc_sleeping (t : Word) : (s.setPc t).sleeping = s.sleeping := rfl
@[simp] theorem State.setPc_mem (t : Word) : (s.setPc t).mem = s.mem := rfl
@[simp] theorem State.setPc_busLog (t : Word) : (s.setPc t).busLog = s.busLog := rfl
@[simp] theorem State.setPc_busAttached (t : Word) : (s.setPc t).busAttached = s.busAttached := rfl
@[simp] theorem State.setPc_busProbes (t : Word) : (s.setPc t).busProbes = s.busProbes := rfl
@[simp] theorem State.setPc_devices (t : Word) : (s.setPc t).devices = s.devices := rfl
@[simp] theorem State.setPc_params (t : Word) : (s.setPc t).params = s.params := rfl
@[simp] theorem State.setPc_reg (t : Word) (q : Reg) : (s.setPc t).reg q = s.reg q := rfl
@[simp] theorem State.setPc_flag (t : Word) (i : Nat) : (s.setPc t).flag i = s.flag i := rfl
@[simp] theorem State.setPc_peek (t : Word) (x : Word) : (s.setPc t).peek x = s.peek x := rfl
@[simp] theorem State.setPc_isDevice (t : Word) (x : Word) : (s.setPc t).isDevice x = s.isDevice x := rfl

/-! ## setWaitCycles -/

@[simp] theorem State.setWaitCycles_regs (n : BitVec 32) : (s.setWaitCycles n).regs = s.regs := rfl
@[simp] theorem State.setWaitCycles_pc (n : BitVec 32) : (s.setWaitCycles n).pc = s.pc := rfl
@[simp] theorem State.setWaitCycles_waitCycles (n : BitVec 32) : (s.setWaitCycles n).waitCycles = n := rfl
@[simp] theorem State.setWaitCycles_intMsg (n : BitVec 32) : (s.setWaitCycles n).intMsg = s.intMsg := rfl
@[simp] theorem State.setWaitCycles_interrupt (n : BitVec 32) : (s.setWaitCycles n).interrupt = s.interrupt := rfl
@[simp] theorem State.setWaitCycles_stepMode (n : BitVec 32) : (s.setWaitCycles n).stepMode = s.stepMode := rfl
@[simp] theorem State.setWaitCycles_skiping (n : BitVec 32) : (s.setWaitCycles n).skiping = s.skiping := rfl
@[simp] theorem State.setWaitCycles_sleeping (n : BitVec 32) : (s.setWaitCycles n).sleeping = s.sleeping := rfl
@[simp] theorem State.setWaitCycles_mem (n : BitVec 32) : (s.setWaitCycles n).mem = s.mem := rfl
@[simp] theorem State.setWaitCycles_busLog (n : BitVec 32) : (s.setWaitCycles n).busLog = s.busLog := rfl
@[simp] theorem State.setWaitCycles_busAttached (n : BitVec 32) : (s.setWaitCycles n).busAttached = s.busAttached := rfl
@[simp] theorem State.setWaitCycles_busProbes (n : BitVec 32) : (s.setWaitCycles n).busProbes = s.busProbes := rfl
@[simp] theorem State.setWaitCycles_devices (n : BitVec 32) : (s.setWaitCycles n).devices = s.devices := rfl
@[simp] theorem State.setWaitCycles_params (n : BitVec 32) : (s.setWaitCycles n).params = s.params := rfl
@[simp] theorem State.setWaitCycles_reg (n : BitVec 32) (q : Reg) : (s.setWaitCycles n).reg q = s.reg q := rfl
@[simp] theorem State.setWaitCycles_flag (n : BitVec 32) (i : Nat) : (s.setWaitCycles n).flag i = s.flag i := rfl
@[simp] theorem State.setWaitCycles_peek (n : BitVec 32) (x : Word) : (s.setWaitCycles n).peek x = s.peek x := rfl
@[simp] theorem State.setWaitCycles_isDevice (n : BitVec 32) (x : Word) : (s.setWaitCycles n).isDevice x = s.isDevice x := rfl

/-! ## setIntMsg -/

@[simp] theorem State.setIntMsg_regs (m : BitVec 8) : (s.setIntMsg m).regs = s.regs := rfl
@[simp] theorem State.setIntMsg_pc (m : BitVec 8) : (s.setIntMsg m).pc = s.pc := rfl
@[simp] theorem State.setIntMsg_waitCycles (m : BitVec 8) : (s.setIntMsg m).waitCycles = s.waitCycles := rfl
@[simp] theorem State.setIntMsg_intMsg (m : BitVec 8) : (s.setIntMsg m).intMsg = m := rfl
@[simp] theorem State.setIntMsg_interrupt (m : BitVec 8) : (s.setIntMsg m).interrupt = s.interrupt := rfl
@[simp] theorem State.setIntMsg_stepMode (m : BitVec 8) : (s.setIntMsg m).stepMode = s.stepMode := rfl
@[simp] theorem State.setIntMsg_skiping (m : BitVec 8) : (s.setIntMsg m).skiping = s.skiping := rfl
@[simp] theorem State.setIntMsg_sleeping (m : BitVec 8) : (s.setIntMsg m).sleeping = s.sleeping := rfl
@[simp] theorem State.setIntMsg_mem (m : BitVec 8) : (s.setIntMsg m).mem = s.mem := rfl
@[simp] theorem State.setIntMsg_busLog (m : BitVec 8) : (s.setIntMsg m).busLog = s.busLog := rfl
@[simp] theorem State.setIntMsg_busAttached (m : BitVec 8) : (s.setIntMsg m).busAttached = s.busAttached := rfl
@[simp] theorem State.setIntMsg_busProbes (m : BitVec 8) : (s.setIntMsg m).busProbes = s.busProbes := rfl
@[simp] theorem State.setIntMsg_devices (m : BitVec 8) : (s.setIntMsg m).devices = s.devices := rfl
@[simp] theorem State.setIntMsg_params (m : BitVec 8) : (s.setIntMsg m).params = s.params := rfl
@[simp] theorem State.setIntMsg_reg (m : BitVec 8) (q : Reg) : (s.setIntMsg m).reg q = s.reg q := rfl
@[simp] theorem State.setIntMsg_flag (m : BitVec 8) (i : Nat) : (s.setIntMsg m).flag i = s.flag i := rfl
@[simp] theorem State.setIntMsg_peek (m : BitVec 8) (x : Word) : (s.setIntMsg m).peek x = s.peek x := rfl
@[simp] theorem State.setIntMsg_isDevice (m : BitVec 8) (x : Word) : (s.setIntMsg m).isDevice x = s.isDevice x := rfl

/-! ## setInterrupt -/

@[simp] theorem State.setInterrupt_regs (b : Bool) : (s.setInterrupt b).regs = s.regs := rfl
@[simp] theorem State.setInterrupt_pc (b : Bool) : (s.setInterrupt b).pc = s.pc := rfl
@[simp] theorem State.setInterrupt_waitCycles (b : Bool) : (s.setInterrupt b).waitCycles = s.waitCycles := rfl
@[simp] theorem State.setInterrupt_intMsg (b : Bool) : (s.setInterrupt b).intMsg = s.intMsg := rfl
@[simp] theorem State.setInterrupt_interrupt (b : Bool) : (s.setInterrupt b).interrupt = b := rfl
@[simp] theorem State.setInterrupt_stepMode (b : Bool) : (s.setInterrupt b).stepMode = s.stepMode := rfl
@[simp] theorem State.setInterrupt_skiping (b : Bool) : (s.setInterrupt b).skiping = s.skiping := rfl
@[simp] theorem State.setInterrupt_sleeping (b : Bool) : (s.setInterrupt b).sleeping = s.sleeping := rfl
@[simp] theorem State.setInterrupt_mem (b : Bool) : (s.setInterrupt b).mem = s.mem := rfl
@[simp] theorem State.setInterrupt_busLog (b : Bool) : (s.setInterrupt b).busLog = s.busLog := rfl
@[simp] theorem State.setInterrupt_busAttached (b : Bool) : (s.setInterrupt b).busAttached = s.busAttached := rfl
@[simp] theorem State.setInterrupt_busProbes (b : Bool) : (s.setInterrupt b).busProbes = s.busProbes := rfl
@[simp] theorem State.setInterrupt_devices (b : Bool) : (s.setInterrupt b).devices = s.devices := rfl
@[simp] theorem State.setInterrupt_params (b : Bool) : (s.setInterrupt b).params = s.params := rfl
@[simp] theorem State.setInterrupt_reg (b : Bool) (q : Reg) : (s.setInterrupt b).reg q = s.reg q := rfl
@[simp] theorem State.setInterrupt_flag (b : Bool) (i : Nat) : (s.setInterrupt b).flag i = s.flag i := rfl
@[simp] theorem State.setInterrupt_peek (b : Bool) (x : Word) : (s.setInterrupt b).peek x = s.peek x := rfl
@[simp] theorem State.setInterrupt_isDevice (b : Bool) (x : Word) : (s.setInterrupt b).isDevice x = s.isDevice x := rfl

/-! ## setSkiping -/

@[simp] theorem State.setSkiping_regs (b : Bool) : (s.setSkiping b).regs = s.regs := rfl
@[simp] theorem State.setSkiping_pc (b : Bool) : (s.setSkiping b).pc = s.pc := rfl
@[simp] theorem State.setSkiping_waitCycles (b : Bool) : (s.setSkiping b).waitCycles = s.waitCycles := rfl
@[simp] theorem State.setSkiping_intMsg (b : Bool) : (s.setSkiping b).intMsg = s.intMsg := rfl
@[simp] theorem State.setSkiping_interrupt (b : Bool) : (s.setSkiping b).interrupt = s.interrupt := rfl
@[simp] theorem State.setSkiping_stepMode (b : Bool) : (s.setSkiping b).stepMode = s.stepMode := rfl
@[simp] theorem State.setSkiping_skiping (b : Bool) : (s.setSkiping b).skiping = b := rfl
@[simp] theorem State.setSkiping_sleeping (b : Bool) : (s.setSkiping b).sleeping = s.sleeping := rfl
@[simp] theorem State.setSkiping_mem (b : Bool) : (s.setSkiping b).mem = s.mem := rfl
@[simp] theorem State.setSkiping_busLog (b : Bool) : (s.setSkiping b).busLog = s.busLog := rfl
@[simp] theorem State.setSkiping_busAttached (b : Bool) : (s.setSkiping b).busAttached = s.busAttached := rfl
@[simp] theorem State.setSkiping_busProbes (b : Bool) : (s.setSkiping b).busProbes = s.busProbes := rfl
@[simp] theorem State.setSkiping_devices (b : Bool) : (s.setSkiping b).devices = s.devices := rfl
@[simp] theorem State.setSkiping_params (b : Bool) : (s.setSkiping b).params = s.params := rfl
@[simp] theorem State.setSkiping_reg (b : Bool) (q : Reg) : (s.setSkiping b).reg q = s.reg q := rfl
@[simp] theorem State.setSkiping_flag (b : Bool) (i : Nat) : (s.setSkiping b).flag i = s.flag i := rfl
@[simp] theorem State.setSkiping_peek (b : Bool) (x : Word) : (s.setSkiping b).peek x = s.peek x := rfl
@[simp] theorem State.setSkiping_isDevice (b : Bool) (x : Word) : (s.setSkiping b).isDevice x = s.isDevice x := rfl

/-! ## setSleeping -/

@[simp] theorem State.setSleeping_regs (b : Bool) : (s.setSleeping b).regs = s.regs := rfl
@[simp] theorem State.setSleeping_pc (b : Bool) : (s.setSleeping b).pc = s.pc := rfl
@[simp] theorem State.setSleeping_waitCycles (b : Bool) : (s.setSleeping b).waitCycles = s.waitCycles := rfl
@[simp] theorem State.setSleeping_intMsg (b : Bool) : (s.setSleeping b).intMsg = s.intMsg := rfl
@[simp] theorem State.setSleeping_interrupt (b : Bool) : (s.setSleeping b).interrupt = s.interrupt := rfl
@[simp] theorem State.setSleeping_stepMode (b : Bool) : (s.setSleeping b).stepMode = s.stepMode := rfl
@[simp] theorem State.setSleeping_skiping (b : Bool) : (s.setSleeping b).skiping = s.skiping := rfl
@[simp] theorem State.setSleeping_sleeping (b : Bool) : (s.setSleeping b).sleeping = b := rfl
@[simp] theorem State.setSleeping_mem (b : Bool) : (s.setSleeping b).mem = s.mem := rfl
@[simp] theorem State.setSleeping_busLog (b : Bool) : (s.setSleeping b).busLog = s.busLog := rfl
@[simp] theorem State.setSleeping_busAttached (b : Bool) : (s.setSleeping b).busAttached = s.busAttached := rfl
@[simp] theorem State.setSleeping_busProbes (b : Bool) : (s.setSleeping b).busProbes = s.busProbes := rfl
@[simp] theorem State.setSleeping_devices (b : Bool) : (s.setSleeping b).devices = s.devices := rfl
@[simp] theorem State.setSleeping_params (b : Bool) : (s.setSleeping b).params = s.params := rfl
@[simp] theorem State.setSleeping_reg (b : Bool) (q : Reg) : (s.setSleeping b).reg q = s.reg q := rfl
@[simp] theorem State.setSleeping_flag (b : Bool) (i : Nat) : (s.setSleeping b).flag i = s.flag i := rfl
@[simp] theorem State.setSleeping_peek (b : Bool) (x : Word) : (s.setSleeping b).peek x = s.peek x := rfl
@[simp] theorem State.setSleeping_isDevice (b : Bool) (x : Word) : (s.setSleeping b).isDevice x = s.isDevice x := rfl

/-! ## logCall -/

@[simp] theorem State.logCall_regs (c : BusCall) : (s.logCall c).regs = s.regs := rfl
@[simp] theorem State.logCall_pc (c : BusCall) : (s.logCall c).pc = s.pc := rfl
@[simp] theorem State.logCall_waitCycles (c : BusCall) : (s.logCall c).waitCycles = s.waitCycles := rfl
@[simp] theorem State.logCall_intMsg (c : BusCall) : (s.logCall c).intMsg = s.intMsg := rfl
@[simp] theorem State.logCall_interrupt (c : BusCall) : (s.logCall c).interrupt = s.interrupt := rfl
@[simp] theorem State.logCall_stepMode (c : BusCall) : (s.logCall c).stepMode = s.stepMode := rfl
@[simp] theorem State.logCall_skiping (c : BusCall) : (s.logCall c).skiping = s.skiping := rfl
@[simp] theorem State.logCall_sleeping (c : BusCall) : (s.logCall c).sleeping = s.sleeping := rfl
@[simp] theorem State.logCall_mem (c : BusCall) : (s.logCall c).mem = s.mem := rfl
@[simp] theorem State.logCall_busLog (c : BusCall) : (s.logCall c).busLog = s.busLog ++ [c] := rfl
@[simp] theorem State.logCall_busAttached (c : BusCall) : (s.logCall c).busAttached = s.busAttached := rfl
@[simp] theorem State.logCall_busProbes (c : BusCall) : (s.logCall c).busProbes = s.busProbes := rfl
@[simp] theorem State.logCall_devices (c : BusCall) : (s.logCall c).devices = s.devices := rfl
@[simp] theorem State.logCall_params (c : BusCall) : (s.logCall c).params = s.params := rfl
@[simp] theorem State.logCall_reg (c : BusCall) (q : Reg) : (s.logCall c).reg q = s.reg q := rfl
@[simp] theorem State.logCall_flag (c : BusCall) (i : Nat) : (s.logCall c).flag i = s.flag i := rfl
@[simp] theorem State.logCall_peek (c : BusCall) (x : Word) : (s.logCall c).peek x = s.peek x := rfl
@[simp] theorem State.logCall_isDevice (c : BusCall) (x : Word) : (s.logCall c).isDevice x = s.isDevice x := rfl

/-! ## setFlag -/

@[simp] theorem State.setFlag_regs (i : Nat) (b : Bool) : (s.setFlag i b).regs = s.regs.set Reg.flags.val (writeBit (s.reg .flags) i b) := rfl
@[simp] theorem State.setFlag_pc (i : Nat) (b : Bool) : (s.setFlag i b).pc = s.pc := rfl
@[simp] theorem State.setFlag_waitCycles (i : Nat) (b : Bool) : (s.setFlag i b).waitCycles = s.waitCycles := rfl
@[simp] theorem State.setFlag_intMsg (i : Nat) (b : Bool) : (s.setFlag i b).intMsg = s.intMsg := rfl
@[simp] theorem State.setFlag_interrupt (i : Nat) (b : Bool) : (s.setFlag i b).interrupt = s.interrupt := rfl
@[simp] theorem State.setFlag_stepMode (i : Nat) (b : Bool) : (s.setFlag i b).stepMode = s.stepMode := rfl
@[simp] theorem State.setFlag_skiping (i : Nat) (b : Bool) : (s.setFlag i b).skiping = s.skiping := rfl
@[simp] theorem State.setFlag_sleeping (i : Nat) (b : Bool) : (s.setFlag i b).sleeping = s.sleeping := rfl
@[simp] theorem State.setFlag_mem (i : Nat) (b : Bool) : (s.setFlag i b).mem = s.mem := rfl
@[simp] theorem State.setFlag_busLog (i : Nat) (b : Bool) : (s.setFlag i b).busLog = s.busLog := rfl
@[simp] theorem State.setFlag_busAttached (i : Nat) (b : Bool) : (s.setFlag i b).busAttached = s.busAttached := rfl
@[simp] theorem State.setFlag_busProbes (i : Nat) (b : Bool) : (s.setFlag i b).busProbes = s.busProbes := rfl
@[simp] theorem State.setFlag_devices (i : Nat) (b : Bool) : (s.setFlag i b).devices = s.devices := rfl
@[simp] theorem State.setFlag_params (i : Nat) (b : Bool) : (s.setFlag i b).params = s.params := rfl
@[simp] theorem State.setFlag_peek (i : Nat) (b : Bool) (x : Word) : (s.setFlag i b).peek x = s.peek x := rfl
@[simp] theorem State.setFlag_isDevice (i : Nat) (b : Bool) (x : Word) : (s.setFlag i b).isDevice x = s.isDevice x := rfl

/-! ## Reading a register after a write -/

@[simp] theorem State.reg_setReg (r q : Reg) (v : Word) : (s.setReg r v).reg q = if q = r then v else s.reg q := by
  simp only [State.reg, State.setReg, Vector.getElem_set, Fin.ext_iff, eq_comm]

/-- A bit of a word after one bit of it is written (41_p3_alu R180). -/
@[simp] theorem getLsbD_writeBit (v : Word) (i : Nat) (b : Bool) (hi : i < 32) (k : Nat) :
    (writeBit v i b).getLsbD k = if k = i then b else v.getLsbD k := by
  have hb : (1#32 <<< i).getLsbD k = decide (k = i) := by
    by_cases h : k = i
    · simp [h, hi]
    · simp [h]; omega
  cases b with
  | true => by_cases h : k = i <;> simp only [writeBit, if_true, BitVec.getLsbD_or, hb] <;> simp [h]
  | false =>
    rw [writeBit, if_neg Bool.false_ne_true, BitVec.getLsbD_and, BitVec.getLsbD_not, hb]
    by_cases hk : k < 32
    · by_cases h : k = i <;> simp [h, hk]
    · have h : k ≠ i := by omega
      simp [h, BitVec.getLsbD_of_ge v k (Nat.le_of_not_lt hk)]

@[simp] theorem State.reg_setFlag (i : Nat) (b : Bool) (q : Reg) :
    (s.setFlag i b).reg q = if q = .flags then writeBit (s.reg .flags) i b else s.reg q := by
  simp [State.setFlag]

@[simp] theorem State.flag_setFlag (i : Nat) (b : Bool) (hi : i < 32) (k : Nat) :
    (s.setFlag i b).flag k = if k = i then b else s.flag k := by
  simp [State.flag, hi]

@[simp] theorem State.flag_setReg (r : Reg) (v : Word) (k : Nat) :
    (s.setReg r v).flag k = if r = .flags then v.getLsbD k else s.flag k := by
  by_cases h : r = .flags <;> simp [State.flag, h, eq_comm]

/-! ## Two states -/

/-- Two states are equal if all their parts are. -/
theorem State.ext_parts (s t : State) (h1 : ∀ r, s.reg r = t.reg r) (h2 : s.pc = t.pc) (h3 : s.waitCycles = t.waitCycles)
    (h4 : s.intMsg = t.intMsg) (h5 : s.interrupt = t.interrupt) (h6 : s.stepMode = t.stepMode) (h7 : s.skiping = t.skiping)
    (h8 : s.sleeping = t.sleeping) (h9 : s.mem = t.mem) (h10 : s.busLog = t.busLog) (h11 : s.busAttached = t.busAttached)
    (h12 : s.busProbes = t.busProbes) (h13 : s.devices = t.devices) (h14 : s.params = t.params) : s = t := by
  have h : s.regs = t.regs := by
    refine Vector.ext fun i hi => ?_
    exact h1 ⟨i, hi⟩
  cases s; cases t; simp_all

end Sys2Proof.Machine
end

