-- ==== Sys2Proof/Laws/Bus.lean ====
section
/-!
SUPPORT. What the bus operations can do: each field, each byte of memory, the value a read answers.
-/

namespace Sys2Proof.Machine

variable (s : State)

/-! ## poke: only plain memory, only one byte -/

@[simp] theorem State.poke_regs (a : Word) (b : Byte) : (s.poke a b).regs = s.regs := by
  unfold State.poke; split <;> rfl

@[simp] theorem State.poke_pc (a : Word) (b : Byte) : (s.poke a b).pc = s.pc := by
  unfold State.poke; split <;> rfl

@[simp] theorem State.poke_waitCycles (a : Word) (b : Byte) : (s.poke a b).waitCycles = s.waitCycles := by
  unfold State.poke; split <;> rfl

@[simp] theorem State.poke_intMsg (a : Word) (b : Byte) : (s.poke a b).intMsg = s.intMsg := by
  unfold State.poke; split <;> rfl

@[simp] theorem State.poke_interrupt (a : Word) (b : Byte) : (s.poke a b).interrupt = s.interrupt := by
  unfold State.poke; split <;> rfl

@[simp] theorem State.poke_stepMode (a : Word) (b : Byte) : (s.poke a b).stepMode = s.stepMode := by
  unfold State.poke; split <;> rfl

@[simp] theorem State.poke_skiping (a : Word) (b : Byte) : (s.poke a b).skiping = s.skiping := by
  unfold State.poke; split <;> rfl

@[simp] theorem State.poke_sleeping (a : Word) (b : Byte) : (s.poke a b).sleeping = s.sleeping := by
  unfold State.poke; split <;> rfl

@[simp] theorem State.poke_busLog (a : Word) (b : Byte) : (s.poke a b).busLog = s.busLog := by
  unfold State.poke; split <;> rfl

@[simp] theorem State.poke_busAttached (a : Word) (b : Byte) : (s.poke a b).busAttached = s.busAttached := by
  unfold State.poke; split <;> rfl

@[simp] theorem State.poke_busProbes (a : Word) (b : Byte) : (s.poke a b).busProbes = s.busProbes := by
  unfold State.poke; split <;> rfl

@[simp] theorem State.poke_devices (a : Word) (b : Byte) : (s.poke a b).devices = s.devices := by
  unfold State.poke; split <;> rfl

@[simp] theorem State.poke_params (a : Word) (b : Byte) : (s.poke a b).params = s.params := by
  unfold State.poke; split <;> rfl

@[simp] theorem State.poke_reg (a : Word) (b : Byte) (q : Reg) : (s.poke a b).reg q = s.reg q := by
  unfold State.poke; split <;> rfl

@[simp] theorem State.poke_isDevice (a : Word) (b : Byte) (x : Word) : (s.poke a b).isDevice x = s.isDevice x := by
  unfold State.poke; split <;> rfl

/-- A byte written to plain memory is read back; a device's byte and every other byte are as before. -/
theorem State.poke_peek (a : Word) (b : Byte) (x : Word) :
    (s.poke a b).peek x = if x = a ∧ s.isDevice a = false then b else s.peek x := by
  unfold State.poke State.peek
  by_cases hd : s.isDevice a = true
  · simp [hd]
  · have hd' : s.isDevice a = false := by simpa using hd
    by_cases hx : x = a
    · simp [hd', hx]
    · have : x.toNat ≠ a.toNat := fun h => hx (BitVec.eq_of_toNat_eq h)
      simp [hd', hx, this]

theorem State.poke_wf (a : Word) (b : Byte) (h : s.mem.wf = true) : (s.poke a b).mem.wf = true := by
  unfold State.poke
  split
  · exact h
  · exact Memory.wf_write h a.isLt b

/-! ## pokeBytes -/

/-- One more byte written. -/
theorem State.pokeBytes_succ (a v : Word) (n : Nat) :
    s.pokeBytes a v (n + 1) = (s.pokeBytes a v n).poke (a + BitVec.ofNat 32 n) (v.extractLsb' (8 * n) 8) := by
  simp [State.pokeBytes, List.range_succ]

@[simp] theorem State.pokeBytes_zero (a v : Word) : s.pokeBytes a v 0 = s := rfl

@[simp] theorem State.pokeBytes_regs (a v : Word) (n : Nat) : (s.pokeBytes a v n).regs = s.regs := by
  induction n with
  | zero => rfl
  | succ n ih => rw [State.pokeBytes_succ, State.poke_regs, ih]

@[simp] theorem State.pokeBytes_pc (a v : Word) (n : Nat) : (s.pokeBytes a v n).pc = s.pc := by
  induction n with
  | zero => rfl
  | succ n ih => rw [State.pokeBytes_succ, State.poke_pc, ih]

@[simp] theorem State.pokeBytes_waitCycles (a v : Word) (n : Nat) : (s.pokeBytes a v n).waitCycles = s.waitCycles := by
  induction n with
  | zero => rfl
  | succ n ih => rw [State.pokeBytes_succ, State.poke_waitCycles, ih]

@[simp] theorem State.pokeBytes_intMsg (a v : Word) (n : Nat) : (s.pokeBytes a v n).intMsg = s.intMsg := by
  induction n with
  | zero => rfl
  | succ n ih => rw [State.pokeBytes_succ, State.poke_intMsg, ih]

@[simp] theorem State.pokeBytes_interrupt (a v : Word) (n : Nat) : (s.pokeBytes a v n).interrupt = s.interrupt := by
  induction n with
  | zero => rfl
  | succ n ih => rw [State.pokeBytes_succ, State.poke_interrupt, ih]

@[simp] theorem State.pokeBytes_stepMode (a v : Word) (n : Nat) : (s.pokeBytes a v n).stepMode = s.stepMode := by
  induction n with
  | zero => rfl
  | succ n ih => rw [State.pokeBytes_succ, State.poke_stepMode, ih]

@[simp] theorem State.pokeBytes_skiping (a v : Word) (n : Nat) : (s.pokeBytes a v n).skiping = s.skiping := by
  induction n with
  | zero => rfl
  | succ n ih => rw [State.pokeBytes_succ, State.poke_skiping, ih]

@[simp] theorem State.pokeBytes_sleeping (a v : Word) (n : Nat) : (s.pokeBytes a v n).sleeping = s.sleeping := by
  induction n with
  | zero => rfl
  | succ n ih => rw [State.pokeBytes_succ, State.poke_sleeping, ih]

@[simp] theorem State.pokeBytes_busLog (a v : Word) (n : Nat) : (s.pokeBytes a v n).busLog = s.busLog := by
  induction n with
  | zero => rfl
  | succ n ih => rw [State.pokeBytes_succ, State.poke_busLog, ih]

@[simp] theorem State.pokeBytes_busAttached (a v : Word) (n : Nat) : (s.pokeBytes a v n).busAttached = s.busAttached := by
  induction n with
  | zero => rfl
  | succ n ih => rw [State.pokeBytes_succ, State.poke_busAttached, ih]

@[simp] theorem State.pokeBytes_busProbes (a v : Word) (n : Nat) : (s.pokeBytes a v n).busProbes = s.busProbes := by
  induction n with
  | zero => rfl
  | succ n ih => rw [State.pokeBytes_succ, State.poke_busProbes, ih]

@[simp] theorem State.pokeBytes_devices (a v : Word) (n : Nat) : (s.pokeBytes a v n).devices = s.devices := by
  induction n with
  | zero => rfl
  | succ n ih => rw [State.pokeBytes_succ, State.poke_devices, ih]

@[simp] theorem State.pokeBytes_params (a v : Word) (n : Nat) : (s.pokeBytes a v n).params = s.params := by
  induction n with
  | zero => rfl
  | succ n ih => rw [State.pokeBytes_succ, State.poke_params, ih]

@[simp] theorem State.pokeBytes_reg (a v : Word) (n : Nat) (q : Reg) : (s.pokeBytes a v n).reg q = s.reg q := by
  simp [State.reg]

@[simp] theorem State.pokeBytes_isDevice (a v : Word) (n : Nat) (x : Word) :
    (s.pokeBytes a v n).isDevice x = s.isDevice x := by
  simp [State.isDevice]

/-- The bytes of a multi-byte write: each plain byte holds its byte of the value, everything else is as before
(20_memory R53, R55). -/
theorem State.pokeBytes_peek (a v : Word) (n : Nat) (hn : n ≤ 2 ^ 32) (x : Word) :
    (s.pokeBytes a v n).peek x =
      if (x - a).toNat < n ∧ s.isDevice x = false then v.extractLsb' (8 * (x - a).toNat) 8 else s.peek x := by
  induction n with
  | zero => simp
  | succ n ih =>
    rw [State.pokeBytes_succ, State.poke_peek, ih (by omega), State.pokeBytes_isDevice]
    have hx : x = a + BitVec.ofNat 32 n ↔ (x - a).toNat = n := by
      constructor
      · rintro rfl
        have h : a + BitVec.ofNat 32 n - a = BitVec.ofNat 32 n := by rw [BitVec.add_comm, BitVec.add_sub_cancel]
        rw [h, BitVec.toNat_ofNat, Nat.mod_eq_of_lt (by omega)]
      · intro h
        have : x - a = BitVec.ofNat 32 n := by
          apply BitVec.eq_of_toNat_eq
          rw [h, BitVec.toNat_ofNat, Nat.mod_eq_of_lt (by omega)]
        rw [← this, BitVec.add_comm, BitVec.sub_add_cancel]
    by_cases he : x = a + BitVec.ofNat 32 n
    · have hk := hx.1 he
      by_cases hd : s.isDevice x = false
      · rw [if_pos ⟨he, he ▸ hd⟩, if_pos ⟨by omega, hd⟩, hk]
      · rw [if_neg (fun h => hd (he ▸ h.2)), if_neg (fun h => hd h.2), if_neg (fun h => hd h.2)]
    · have hk : (x - a).toNat ≠ n := fun h => he (hx.2 h)
      rw [if_neg (fun h => he h.1)]
      by_cases hl : (x - a).toNat < n
      · by_cases hd : s.isDevice x = false
        · rw [if_pos ⟨hl, hd⟩, if_pos ⟨by omega, hd⟩]
        · rw [if_neg (fun h => hd h.2), if_neg (fun h => hd h.2)]
      · rw [if_neg (fun h => hl h.1), if_neg (fun h => by omega)]

theorem State.pokeBytes_wf (a v : Word) (n : Nat) (h : s.mem.wf = true) : (s.pokeBytes a v n).mem.wf = true := by
  induction n with
  | zero => exact h
  | succ n ih => rw [State.pokeBytes_succ]; exact State.poke_wf _ _ _ ih

/-! ## busWrite and busRead -/

@[simp] theorem State.busWrite_regs (w : Width) (a v : Word) : (s.busWrite w a v).regs = s.regs := by
  simp [State.busWrite]

@[simp] theorem State.busWrite_pc (w : Width) (a v : Word) : (s.busWrite w a v).pc = s.pc := by
  simp [State.busWrite]

@[simp] theorem State.busWrite_waitCycles (w : Width) (a v : Word) : (s.busWrite w a v).waitCycles = s.waitCycles := by
  simp [State.busWrite]

@[simp] theorem State.busWrite_intMsg (w : Width) (a v : Word) : (s.busWrite w a v).intMsg = s.intMsg := by
  simp [State.busWrite]

@[simp] theorem State.busWrite_interrupt (w : Width) (a v : Word) : (s.busWrite w a v).interrupt = s.interrupt := by
  simp [State.busWrite]

@[simp] theorem State.busWrite_stepMode (w : Width) (a v : Word) : (s.busWrite w a v).stepMode = s.stepMode := by
  simp [State.busWrite]

@[simp] theorem State.busWrite_skiping (w : Width) (a v : Word) : (s.busWrite w a v).skiping = s.skiping := by
  simp [State.busWrite]

@[simp] theorem State.busWrite_sleeping (w : Width) (a v : Word) : (s.busWrite w a v).sleeping = s.sleeping := by
  simp [State.busWrite]

@[simp] theorem State.busWrite_busLog (w : Width) (a v : Word) : (s.busWrite w a v).busLog = s.busLog ++ [.write w a (w.trunc v)] := by
  simp [State.busWrite]

@[simp] theorem State.busWrite_busAttached (w : Width) (a v : Word) : (s.busWrite w a v).busAttached = s.busAttached := by
  simp [State.busWrite]

@[simp] theorem State.busWrite_busProbes (w : Width) (a v : Word) : (s.busWrite w a v).busProbes = s.busProbes := by
  simp [State.busWrite]

@[simp] theorem State.busWrite_devices (w : Width) (a v : Word) : (s.busWrite w a v).devices = s.devices := by
  simp [State.busWrite]

@[simp] theorem State.busWrite_params (w : Width) (a v : Word) : (s.busWrite w a v).params = s.params := by
  simp [State.busWrite]

@[simp] theorem State.busWrite_reg (w : Width) (a v : Word) (q : Reg) : (s.busWrite w a v).reg q = s.reg q := by
  simp [State.busWrite]

@[simp] theorem State.busWrite_isDevice (w : Width) (a v : Word) (x : Word) :
    (s.busWrite w a v).isDevice x = s.isDevice x := by
  simp [State.busWrite]

/-- The bytes of a bus write (20_memory R53, R55, R56). -/
theorem State.busWrite_peek (w : Width) (a v x : Word) :
    (s.busWrite w a v).peek x =
      if (x - a).toNat < w.bytes ∧ s.isDevice x = false then v.extractLsb' (8 * (x - a).toNat) 8 else s.peek x := by
  unfold State.busWrite
  rw [State.pokeBytes_peek _ _ _ _ (by cases w <;> decide)]
  rfl

theorem State.busWrite_wf (w : Width) (a v : Word) (h : s.mem.wf = true) : (s.busWrite w a v).mem.wf = true :=
  State.pokeBytes_wf _ _ _ _ h

@[simp] theorem State.busRead_fst (w : Width) (a : Word) : (s.busRead w a).1 = s.readValue w a := rfl
@[simp] theorem State.busRead_snd (w : Width) (a : Word) : (s.busRead w a).2 = s.logCall (.read w a) := rfl

/-- A plain byte answers what memory holds. -/
theorem State.answer_plain (a : Word) (k : Nat) (h : s.isDevice (a + BitVec.ofNat 32 k) = false) :
    s.answer a k = s.peek (a + BitVec.ofNat 32 k) := by
  simp [State.answer, h]

/-- The bytes of the value a read answers, lowest first (20_memory R53). -/
theorem State.readValue_byte (w : Width) (a : Word) (k : Nat) (hk : k < w.bytes) :
    (s.readValue w a).extractLsb' (8 * k) 8 = s.answer a k := by
  have key : ∀ b0 b1 b2 b3 : Byte,
      ((b0.setWidth 32 : Word).extractLsb' 0 8 = b0) ∧
      (((b1 ++ b0 : BitVec 16).setWidth 32 : Word).extractLsb' 0 8 = b0) ∧
      (((b1 ++ b0 : BitVec 16).setWidth 32 : Word).extractLsb' 8 8 = b1) ∧
      ((b3 ++ b2 ++ b1 ++ b0 : Word).extractLsb' 0 8 = b0) ∧ ((b3 ++ b2 ++ b1 ++ b0 : Word).extractLsb' 8 8 = b1) ∧
      ((b3 ++ b2 ++ b1 ++ b0 : Word).extractLsb' 16 8 = b2) ∧ ((b3 ++ b2 ++ b1 ++ b0 : Word).extractLsb' 24 8 = b3) := by
    intro b0 b1 b2 b3
    refine ⟨?_, ?_, ?_, ?_, ?_, ?_, ?_⟩ <;> apply BitVec.eq_of_getLsbD_eq <;> intro i hi <;>
      simp only [BitVec.getLsbD_extractLsb', BitVec.getLsbD_setWidth, BitVec.getLsbD_append, hi, decide_true,
        Bool.true_and] <;>
      interval_cases i <;> simp
  cases w
  · obtain rfl : k = 0 := by simp [Width.bytes] at hk; omega
    exact (key _ 0 0 0).1
  · have : k = 0 ∨ k = 1 := by simp [Width.bytes] at hk; omega
    rcases this with rfl | rfl
    · exact (key _ _ 0 0).2.1
    · exact (key _ _ 0 0).2.2.1
  · have : k = 0 ∨ k = 1 ∨ k = 2 ∨ k = 3 := by simp [Width.bytes] at hk; omega
    rcases this with rfl | rfl | rfl | rfl
    · exact (key _ _ _ _).2.2.2.1
    · exact (key _ _ _ _).2.2.2.2.1
    · exact (key _ _ _ _).2.2.2.2.2.1
    · exact (key _ _ _ _).2.2.2.2.2.2

/-- The value a read answers is zero-extended (42 R207). -/
theorem State.readValue_high (w : Width) (a : Word) (j : Nat) (hj : 8 * w.bytes ≤ j) : (s.readValue w a).getLsbD j = false := by
  cases w <;> simp [Width.bytes] at hj <;> simp [State.readValue] <;> intros <;>
    first | omega | (apply BitVec.getLsbD_of_ge; omega)

/-- The byte answered where no device answers (20_memory R52). -/
theorem State.readValue_byte_plain (a : Word) (h : s.isDevice a = false) : s.readValue .byte a = (s.peek a).setWidth 32 := by
  have h0 := s.answer_plain a 0 (by rwa [BitVec.add_zero])
  simp only [BitVec.add_zero] at h0
  simp only [State.readValue, h0]

/-- The half word answered where no device answers: the bytes of memory, little-endian (20_memory R52, R53). -/
theorem State.readValue_word_plain (a : Word) (h : ∀ k, k < 2 → s.isDevice (a + BitVec.ofNat 32 k) = false) :
    s.readValue .word a = (s.peek (a + 1#32) ++ s.peek a).setWidth 32 := by
  have h0 := s.answer_plain a 0 (h 0 (by omega))
  have h1 := s.answer_plain a 1 (h 1 (by omega))
  simp only [BitVec.add_zero] at h0 h1
  simp only [State.readValue, h0, h1]

/-- The word answered where no device answers: the bytes of memory, little-endian (20_memory R52, R53). -/
theorem State.readValue_dword_plain (a : Word) (h : ∀ k, k < 4 → s.isDevice (a + BitVec.ofNat 32 k) = false) :
    s.readValue .dword a = wordOfBytes (s.peek a) (s.peek (a + 1#32)) (s.peek (a + 2#32)) (s.peek (a + 3#32)) := by
  have h0 := s.answer_plain a 0 (h 0 (by omega))
  have h1 := s.answer_plain a 1 (h 1 (by omega))
  have h2 := s.answer_plain a 2 (h 2 (by omega))
  have h3 := s.answer_plain a 3 (h 3 (by omega))
  simp only [BitVec.add_zero] at h0 h1 h2 h3
  simp only [State.readValue, h0, h1, h2, h3]
  rfl

end Sys2Proof.Machine
end

