-- ==== Sys2Proof/Laws/Control.lean ====
section
/-!
SUPPORT. What the stack, jump, operand and interrupt operations can do: one lemma says once everything each can do.
-/

namespace Sys2Proof.Machine

variable (s : State)

/-! ## Pushing -/

/-- The four steps of a push (40_step_engine R140). -/
theorem State.push32_eq (v : Word) :
    s.push32 v = State.pushByte v (State.pushByte v (State.pushByte v (State.pushByte v s 3) 2) 1) 0 := rfl

@[simp] theorem State.pushByte_pc (v : Word) (k : Nat) : (State.pushByte v s k).pc = s.pc := by
  simp [State.pushByte]

@[simp] theorem State.push32_pc (v : Word) : (s.push32 v).pc = s.pc := by
  simp [State.push32_eq]

@[simp] theorem State.pushByte_waitCycles (v : Word) (k : Nat) : (State.pushByte v s k).waitCycles = s.waitCycles := by
  simp [State.pushByte]

@[simp] theorem State.push32_waitCycles (v : Word) : (s.push32 v).waitCycles = s.waitCycles := by
  simp [State.push32_eq]

@[simp] theorem State.pushByte_intMsg (v : Word) (k : Nat) : (State.pushByte v s k).intMsg = s.intMsg := by
  simp [State.pushByte]

@[simp] theorem State.push32_intMsg (v : Word) : (s.push32 v).intMsg = s.intMsg := by
  simp [State.push32_eq]

@[simp] theorem State.pushByte_interrupt (v : Word) (k : Nat) : (State.pushByte v s k).interrupt = s.interrupt := by
  simp [State.pushByte]

@[simp] theorem State.push32_interrupt (v : Word) : (s.push32 v).interrupt = s.interrupt := by
  simp [State.push32_eq]

@[simp] theorem State.pushByte_stepMode (v : Word) (k : Nat) : (State.pushByte v s k).stepMode = s.stepMode := by
  simp [State.pushByte]

@[simp] theorem State.push32_stepMode (v : Word) : (s.push32 v).stepMode = s.stepMode := by
  simp [State.push32_eq]

@[simp] theorem State.pushByte_skiping (v : Word) (k : Nat) : (State.pushByte v s k).skiping = s.skiping := by
  simp [State.pushByte]

@[simp] theorem State.push32_skiping (v : Word) : (s.push32 v).skiping = s.skiping := by
  simp [State.push32_eq]

@[simp] theorem State.pushByte_sleeping (v : Word) (k : Nat) : (State.pushByte v s k).sleeping = s.sleeping := by
  simp [State.pushByte]

@[simp] theorem State.push32_sleeping (v : Word) : (s.push32 v).sleeping = s.sleeping := by
  simp [State.push32_eq]

@[simp] theorem State.pushByte_busAttached (v : Word) (k : Nat) : (State.pushByte v s k).busAttached = s.busAttached := by
  simp [State.pushByte]

@[simp] theorem State.push32_busAttached (v : Word) : (s.push32 v).busAttached = s.busAttached := by
  simp [State.push32_eq]

@[simp] theorem State.pushByte_busProbes (v : Word) (k : Nat) : (State.pushByte v s k).busProbes = s.busProbes := by
  simp [State.pushByte]

@[simp] theorem State.push32_busProbes (v : Word) : (s.push32 v).busProbes = s.busProbes := by
  simp [State.push32_eq]

@[simp] theorem State.pushByte_devices (v : Word) (k : Nat) : (State.pushByte v s k).devices = s.devices := by
  simp [State.pushByte]

@[simp] theorem State.push32_devices (v : Word) : (s.push32 v).devices = s.devices := by
  simp [State.push32_eq]

@[simp] theorem State.pushByte_params (v : Word) (k : Nat) : (State.pushByte v s k).params = s.params := by
  simp [State.pushByte]

@[simp] theorem State.push32_params (v : Word) : (s.push32 v).params = s.params := by
  simp [State.push32_eq]

@[simp] theorem State.pushByte_reg (v : Word) (k : Nat) (q : Reg) :
    (State.pushByte v s k).reg q = if q = .sp then s.reg .sp - 1#32 else s.reg q := by
  simp [State.pushByte]

@[simp] theorem State.pushByte_isDevice (v : Word) (k : Nat) (x : Word) :
    (State.pushByte v s k).isDevice x = s.isDevice x := by
  simp [State.pushByte]

theorem State.pushByte_busLog (v : Word) (k : Nat) :
    (State.pushByte v s k).busLog = s.busLog ++ [.write .byte (s.reg .sp - 1#32) ((byteOf v k).setWidth 32)] := by
  simp [State.pushByte, Width.trunc, byteOf]

theorem State.pushByte_peek (v : Word) (k : Nat) (x : Word) :
    (State.pushByte v s k).peek x =
      if x = s.reg .sp - 1#32 ∧ s.isDevice x = false then byteOf v k else s.peek x := by
  have hx : (x - (s.reg .sp - 1#32)).toNat < 1 ↔ x = s.reg .sp - 1#32 := by
    rw [Nat.lt_one_iff]
    constructor
    · intro h
      have h0 : x - (s.reg .sp - 1#32) = 0#32 := BitVec.eq_of_toNat_eq (by rw [h]; rfl)
      have := congrArg (· + (s.reg .sp - 1#32)) h0
      simpa only [BitVec.sub_add_cancel, BitVec.zero_add] using this
    · rintro rfl
      rw [BitVec.sub_self]; rfl
  simp only [State.pushByte, State.busWrite_peek, State.reg_setReg, if_true, Width.bytes, State.setReg_isDevice,
    State.setReg_peek, hx]
  split
  · rename_i h
    have e : ((byteOf v k).setWidth 32 : Word).extractLsb' 0 8 = byteOf v k := by
      apply BitVec.eq_of_getLsbD_eq
      intro i hi
      have h32 : i < 32 := by omega
      simp [hi, h32]
    rw [h.1, BitVec.sub_self]
    exact e
  · rfl

theorem State.pushByte_wf (v : Word) (k : Nat) (h : s.mem.wf = true) : (State.pushByte v s k).mem.wf = true :=
  State.busWrite_wf _ _ _ _ h

@[simp] theorem State.push32_reg (v : Word) (q : Reg) :
    (s.push32 v).reg q = if q = .sp then s.reg .sp - 4#32 else s.reg q := by
  rw [State.push32_eq]
  by_cases h : q = .sp
  · simp only [State.pushByte_reg, h, if_true, BitVec.sub_sub]
    rfl
  · simp [h]

@[simp] theorem State.push32_flag (v : Word) (i : Nat) : (s.push32 v).flag i = s.flag i := by
  simp [State.flag]

@[simp] theorem State.push32_isDevice (v : Word) (x : Word) : (s.push32 v).isDevice x = s.isDevice x := by
  simp [State.push32_eq]

/-- The bus calls of a push, in order (40_step_engine R140). -/
theorem State.push32_busLog (v : Word) : (s.push32 v).busLog = s.busLog ++ pushCalls (s.reg .sp) v := by
  simp only [State.push32_eq, State.pushByte_busLog, State.pushByte_reg, if_true, pushCalls, BitVec.sub_sub,
    List.append_assoc, List.cons_append, List.nil_append]
  rfl

/-- The bytes of a push (40_step_engine R140). -/
theorem State.push32_peek (v x : Word) :
    (s.push32 v).peek x =
      if (x - (s.reg .sp - 4#32)).toNat < 4 ∧ s.isDevice x = false then byteOf v (x - (s.reg .sp - 4#32)).toNat
      else s.peek x := by
  simp only [State.push32_eq, State.pushByte_peek, State.pushByte_reg, State.pushByte_isDevice, if_true, BitVec.sub_sub]
  obtain ⟨d, rfl⟩ : ∃ d, x = s.reg .sp - 4#32 + d := ⟨x - (s.reg .sp - 4#32), by rw [BitVec.add_comm, BitVec.sub_add_cancel]⟩
  have hd : s.reg .sp - 4#32 + d - (s.reg .sp - 4#32) = d := by rw [BitVec.add_comm, BitVec.add_sub_cancel]
  have e1 : (s.reg .sp - 4#32 + d = s.reg .sp - 1#32) ↔ d.toNat = 3 := by
    constructor <;> intro h <;> bv_omega
  have e2 : (s.reg .sp - 4#32 + d = s.reg .sp - (1#32 + 1#32)) ↔ d.toNat = 2 := by
    constructor <;> intro h <;> bv_omega
  have e3 : (s.reg .sp - 4#32 + d = s.reg .sp - (1#32 + 1#32 + 1#32)) ↔ d.toNat = 1 := by
    constructor <;> intro h <;> bv_omega
  have e4 : (s.reg .sp - 4#32 + d = s.reg .sp - (1#32 + 1#32 + 1#32 + 1#32)) ↔ d.toNat = 0 := by
    constructor <;> intro h <;> bv_omega
  rw [hd]
  simp only [e1, e2, e3, e4]
  by_cases hv : s.isDevice (s.reg .sp - 4#32 + d) = false
  · simp only [hv, and_true]
    by_cases h : d.toNat < 4
    · have : d.toNat = 0 ∨ d.toNat = 1 ∨ d.toNat = 2 ∨ d.toNat = 3 := by omega
      rcases this with h | h | h | h <;> simp [h]
    · have h0 : d.toNat ≠ 0 := by omega
      have h1 : d.toNat ≠ 1 := by omega
      have h2 : d.toNat ≠ 2 := by omega
      have h3 : d.toNat ≠ 3 := by omega
      simp [h, h0, h1, h2, h3]
  · simp [hv]

theorem State.push32_wf (v : Word) (h : s.mem.wf = true) : (s.push32 v).mem.wf = true := by
  rw [State.push32_eq]
  exact State.pushByte_wf _ _ _ (State.pushByte_wf _ _ _ (State.pushByte_wf _ _ _ (State.pushByte_wf _ _ _ h)))

/-- Everything a push does (40_step_engine R140). -/
theorem State.push32_effect (v : Word) : PushEffect s (s.push32 v) v s.pc := by
  refine ⟨by simp, ?_, ⟨?_, ?_, ?_⟩, State.push32_busLog s v, by simp, by simp [KeepsSequencer], by simp [KeepsPlatform]⟩
  · intro q hq
    have : q ≠ .sp := by simpa using hq
    simp [this]
  · intro k hk hd
    have h : above (s.reg .sp - 4#32) k - (s.reg .sp - 4#32) = BitVec.ofNat 32 k := by
      rw [above, BitVec.add_comm, BitVec.add_sub_cancel]
    rw [State.push32_peek, h, BitVec.toNat_ofNat, Nat.mod_eq_of_lt (by omega), if_pos ⟨hk, hd⟩]
  · intro x hx
    rw [State.push32_peek, if_neg (fun h => hx h.1)]
  · intro x hx
    rw [State.push32_peek, if_neg (fun h => by rw [hx] at h; exact Bool.noConfusion h.2)]

/-! ## Popping, jumping, calling -/

@[simp] theorem State.pop32_fst : s.pop32.1 = s.readValue .dword (s.reg .sp) := rfl

@[simp] theorem State.pop32_snd :
    s.pop32.2 = (s.logCall (.read .dword (s.reg .sp))).setReg .sp (s.reg .sp + 4#32) := rfl

/-- A jump only writes the pc (40_step_engine R142). -/
theorem State.jump_eq (t : Word) : s.jump t = s.setPc (t &&& 0xFFFFFFFC#32) := rfl

/-- A masked target is a multiple of 4 (10_state R28). -/
theorem masked_aligned (t : Word) : (t &&& 0xFFFFFFFC#32).toNat % 4 = 0 := by
  have h : (t &&& 0xFFFFFFFC#32).extractLsb' 0 2 = 0#2 := by
    apply BitVec.eq_of_getLsbD_eq
    intro i hi
    have : i = 0 ∨ i = 1 := by omega
    rcases this with rfl | rfl <;> simp
  have := congrArg BitVec.toNat h
  simpa [BitVec.extractLsb'_toNat] using this

/-- Everything a call does (45_p1 R286). -/
theorem State.call_effect (t : Word) : PushEffect s (s.call t) s.pc (t &&& 0xFFFFFFFC#32) := by
  obtain ⟨h1, h2, h3, h4, -, h6, h7⟩ := s.push32_effect s.pc
  exact ⟨h1, h2, h3, h4, rfl, h6, h7⟩

/-! ## Loads, stores, operands -/

@[simp] theorem State.loadTo_eq (w : Width) (rd : Reg) (ea : Word) :
    s.loadTo w rd ea = (s.logCall (.read w ea)).setReg rd (s.readValue w ea) := rfl

/-- Everything a load does (42 R206, R207). -/
theorem State.loadTo_effect (w : Width) (rd : Reg) (ea : Word) : LoadEffect s (s.loadTo w rd ea) w rd ea := by
  refine ⟨?_, ?_, ?_, rfl, fun _ => rfl, rfl, ⟨rfl, rfl, rfl, rfl, rfl, rfl⟩, ⟨rfl, rfl, rfl, rfl⟩⟩
  · intro k hk hd
    simp only [State.loadTo_eq, State.reg_setReg, if_true, byteOf]
    rw [State.readValue_byte _ _ _ _ hk, State.answer_plain _ _ _ hd]
  · intro j hj
    simp only [State.loadTo_eq, State.reg_setReg, if_true]
    exact State.readValue_high _ _ _ _ hj
  · intro q hq
    have : q ≠ rd := by simpa using hq
    simp [this]

/-- Everything a store does (42 R206, R207). -/
theorem State.storeFrom_effect (w : Width) (rd : Reg) (ea : Word) : StoreEffect s (s.storeFrom w rd ea) w rd ea := by
  unfold State.storeFrom
  refine ⟨⟨?_, ?_, ?_⟩, by simp, fun q _ => by simp, by simp, by simp [KeepsSequencer], by simp [KeepsPlatform]⟩
  · intro k hk hd
    have h : above ea k - ea = BitVec.ofNat 32 k := by rw [above, BitVec.add_comm, BitVec.add_sub_cancel]
    have hk' : k < 2 ^ 32 := by cases w <;> simp [Width.bytes] at hk <;> omega
    rw [State.busWrite_peek, h, BitVec.toNat_ofNat, Nat.mod_eq_of_lt hk', if_pos ⟨hk, hd⟩]
  · intro x hx
    rw [State.busWrite_peek, if_neg (fun h => hx h.1)]
  · intro x hx
    rw [State.busWrite_peek, if_neg (fun h => by rw [hx] at h; exact Bool.noConfusion h.2)]

@[simp] theorem State.op2_reg (r : Reg) : s.op2 (.reg r) = s.reg r := rfl
@[simp] theorem State.op2_lit (v : Word) : s.op2 (.lit v) = v := rfl
@[simp] theorem State.op2_big (v : Word) : s.op2 (.big v) = v := rfl

@[simp] theorem State.onRegister_reg (r : Reg) (f : Reg → State) : s.onRegister (.reg r) f = f r := rfl
@[simp] theorem State.onRegister_lit (v : Word) (f : Reg → State) : s.onRegister (.lit v) f = s := rfl
@[simp] theorem State.onRegister_big (v : Word) (f : Reg → State) : s.onRegister (.big v) f = s := rfl

/-! ## The ALU's write-back -/

/-- Everything the write-back of an ALU result does (41_p3_alu R179, R180). -/
theorem State.writeAlu_effect (rd : Reg) (o : AluOut) : AluEffect s (s.writeAlu rd o) rd o.result o.cf o.of := by
  unfold State.writeAlu
  refine ⟨fun h => by simp [h], fun k => ?_, fun q hq => ?_, rfl, ⟨fun _ => rfl, rfl⟩, ⟨rfl, rfl, rfl, rfl, rfl, rfl⟩,
    ⟨rfl, rfl, rfl, rfl⟩⟩
  · by_cases h0 : k = bitCF
    · simp [h0]
    · by_cases h1 : k = bitOF
      · simp [h1]
      · by_cases hr : Reg.flags = rd
        · simp [h0, h1, ← hr, State.flag]
        · simp [h0, h1, hr, Ne.symm hr, State.flag]
  · have h : q ≠ rd ∧ q ≠ .flags := by simpa using hq
    simp [h.1, h.2]

/-- Everything the write-back of a product or quotient does (41_p3_alu R179). -/
theorem State.writeAluY_effect (rd : Reg) (o : YOut) : YEffect s (s.writeAluY rd o) rd o.result o.y := by
  unfold State.writeAluY
  refine ⟨fun h1 h2 => by simp [h1, h2], by simp, fun k => ?_, fun q hq => ?_, rfl, ⟨fun _ => rfl, rfl⟩,
    ⟨rfl, rfl, rfl, rfl, rfl, rfl⟩, ⟨rfl, rfl, rfl, rfl⟩⟩
  · by_cases h0 : k = bitCF
    · simp [h0]
    · by_cases h1 : k = bitOF
      · simp [h1]
      · by_cases hr : Reg.flags = rd
        · simp [h0, h1, ← hr, State.flag]
        · simp [h0, h1, hr, Ne.symm hr, State.flag]
  · have h : q ≠ rd ∧ q ≠ .y ∧ q ≠ .flags := by simpa using hq
    simp [h.1, h.2.1, h.2.2]

/-- Everything a division by zero does (41_p3_alu R177, R179). -/
theorem State.divideError_effect : DivideErrorEffect s s.divideError := by
  unfold State.divideError
  refine ⟨fun k => ?_, fun q hq => ?_, rfl, ⟨fun _ => rfl, rfl⟩, ⟨rfl, rfl, rfl, rfl, rfl, rfl⟩, ⟨rfl, rfl, rfl, rfl⟩⟩
  · by_cases h0 : k = bitCF
    · simp [h0]
    · by_cases h1 : k = bitOF <;> by_cases h2 : k = bitDE <;> simp [h0, h1, h2]
  · have h : q ≠ .flags := by simpa using hq
    simp [h]

/-! ## The interrupt controller -/

/-- `SendInterrupt` with EI set (60 R332). -/
theorem State.sendInterrupt_enabled (msg : Word) (h : s.flag bitEI = true) :
    s.sendInterrupt msg = (true, (s.setInterrupt true).setIntMsg (msg.setWidth 8)) := by
  simp [State.sendInterrupt, h]

/-- `SendInterrupt` with EI clear (60 R332). -/
theorem State.sendInterrupt_disabled (msg : Word) (h : s.flag bitEI = false) : s.sendInterrupt msg = (false, s) := by
  simp [State.sendInterrupt, h]

/-- The three things `ProcessInterrupt` can do (60 R333). -/
theorem State.processInterrupt_cases :
    (s.accepts = false ∧ s.processInterrupt = s) ∨
    (s.accepts = true ∧ s.readValue .dword s.vectorAddress = 0#32 ∧
      s.processInterrupt = (s.logCall (.read .dword s.vectorAddress)).setInterrupt false) ∨
    (s.accepts = true ∧ s.readValue .dword s.vectorAddress ≠ 0#32 ∧
      s.processInterrupt =
        (s.logCall (.read .dword s.vectorAddress)).enterInterrupt (s.readValue .dword s.vectorAddress)) := by
  unfold State.processInterrupt
  by_cases ha : s.accepts = true
  · by_cases hv : s.readValue .dword s.vectorAddress = 0#32
    · exact .inr (.inl ⟨ha, hv, by simp [ha, hv]⟩)
    · exact .inr (.inr ⟨ha, hv, by simp [ha, hv]⟩)
  · have ha' : s.accepts = false := by simpa using ha
    exact .inl ⟨ha', by simp [ha']⟩

/-- Two pushes and the writes of an entry, spelled out (60 R336). -/
theorem State.enterInterrupt_eq (vec : Word) :
    s.enterInterrupt vec =
      (((((((s.push32 (s.reg .r0)).push32 s.pc).setReg .r0 (s.intMsg.setWidth 32)).setPc vec).setFlag bitIF
        true).setInterrupt false).setSleeping false) := by
  simp [State.enterInterrupt]

@[simp] theorem State.enterInterrupt_waitCycles (vec : Word) : (s.enterInterrupt vec).waitCycles = s.waitCycles := by
  simp [State.enterInterrupt_eq]

@[simp] theorem State.enterInterrupt_intMsg (vec : Word) : (s.enterInterrupt vec).intMsg = s.intMsg := by
  simp [State.enterInterrupt_eq]

@[simp] theorem State.enterInterrupt_stepMode (vec : Word) : (s.enterInterrupt vec).stepMode = s.stepMode := by
  simp [State.enterInterrupt_eq]

@[simp] theorem State.enterInterrupt_skiping (vec : Word) : (s.enterInterrupt vec).skiping = s.skiping := by
  simp [State.enterInterrupt_eq]

@[simp] theorem State.enterInterrupt_busAttached (vec : Word) : (s.enterInterrupt vec).busAttached = s.busAttached := by
  simp [State.enterInterrupt_eq]

@[simp] theorem State.enterInterrupt_busProbes (vec : Word) : (s.enterInterrupt vec).busProbes = s.busProbes := by
  simp [State.enterInterrupt_eq]

@[simp] theorem State.enterInterrupt_devices (vec : Word) : (s.enterInterrupt vec).devices = s.devices := by
  simp [State.enterInterrupt_eq]

@[simp] theorem State.enterInterrupt_params (vec : Word) : (s.enterInterrupt vec).params = s.params := by
  simp [State.enterInterrupt_eq]

@[simp] theorem State.enterInterrupt_pc (vec : Word) : (s.enterInterrupt vec).pc = vec := by
  simp [State.enterInterrupt_eq]

@[simp] theorem State.enterInterrupt_interrupt (vec : Word) : (s.enterInterrupt vec).interrupt = false := by
  simp [State.enterInterrupt_eq]

@[simp] theorem State.enterInterrupt_sleeping (vec : Word) : (s.enterInterrupt vec).sleeping = false := by
  simp [State.enterInterrupt_eq]

theorem State.enterInterrupt_wf (vec : Word) (h : s.mem.wf = true) : (s.enterInterrupt vec).mem.wf = true := by
  simp [State.enterInterrupt_eq, State.push32_wf, h]


/-- The bytes of an interrupt entry: the pc at the new SP, r0 above it (60 R336). -/
theorem State.enterInterrupt_peek (vec x : Word) :
    (s.enterInterrupt vec).peek x =
      if (x - (s.reg .sp - 8#32)).toNat < 8 ∧ s.isDevice x = false then
        (if (x - (s.reg .sp - 8#32)).toNat < 4 then byteOf s.pc (x - (s.reg .sp - 8#32)).toNat
         else byteOf (s.reg .r0) ((x - (s.reg .sp - 8#32)).toNat - 4))
      else s.peek x := by
  have e : s.reg .sp - 4#32 - 4#32 = s.reg .sp - 8#32 := by rw [BitVec.sub_sub]; rfl
  have d : (x - (s.reg .sp - 4#32)).toNat = ((x - (s.reg .sp - 8#32)).toNat + 4294967292) % 4294967296 := by
    bv_omega
  have hlt := (x - (s.reg .sp - 8#32)).isLt
  rw [State.enterInterrupt_eq]
  simp only [State.setSleeping_peek, State.setInterrupt_peek, State.setFlag_peek, State.setPc_peek, State.setReg_peek,
    State.push32_peek, State.push32_reg, State.push32_isDevice, if_true, e, d]
  generalize (x - (s.reg .sp - 8#32)).toNat = n at *
  by_cases hd : s.isDevice x = false
  · by_cases h4 : n < 4
    · have : n < 8 := by omega
      simp [hd, h4, this]
    · by_cases h8 : n < 8
      · have : (n + 4294967292) % 4294967296 = n - 4 := by omega
        have h' : n - 4 < 4 := by omega
        simp [hd, h4, h8, this, h']
      · have : ¬ (n + 4294967292) % 4294967296 < 4 := by omega
        simp [hd, h4, h8, this]
  · simp [hd]

@[simp] theorem State.processInterrupt_waitCycles : s.processInterrupt.waitCycles = s.waitCycles := by
  rcases s.processInterrupt_cases with ⟨_, h⟩ | ⟨_, _, h⟩ | ⟨_, _, h⟩ <;> simp [h]

@[simp] theorem State.processInterrupt_intMsg : s.processInterrupt.intMsg = s.intMsg := by
  rcases s.processInterrupt_cases with ⟨_, h⟩ | ⟨_, _, h⟩ | ⟨_, _, h⟩ <;> simp [h]

@[simp] theorem State.processInterrupt_stepMode : s.processInterrupt.stepMode = s.stepMode := by
  rcases s.processInterrupt_cases with ⟨_, h⟩ | ⟨_, _, h⟩ | ⟨_, _, h⟩ <;> simp [h]

@[simp] theorem State.processInterrupt_skiping : s.processInterrupt.skiping = s.skiping := by
  rcases s.processInterrupt_cases with ⟨_, h⟩ | ⟨_, _, h⟩ | ⟨_, _, h⟩ <;> simp [h]

@[simp] theorem State.processInterrupt_busAttached : s.processInterrupt.busAttached = s.busAttached := by
  rcases s.processInterrupt_cases with ⟨_, h⟩ | ⟨_, _, h⟩ | ⟨_, _, h⟩ <;> simp [h]

@[simp] theorem State.processInterrupt_busProbes : s.processInterrupt.busProbes = s.busProbes := by
  rcases s.processInterrupt_cases with ⟨_, h⟩ | ⟨_, _, h⟩ | ⟨_, _, h⟩ <;> simp [h]

@[simp] theorem State.processInterrupt_devices : s.processInterrupt.devices = s.devices := by
  rcases s.processInterrupt_cases with ⟨_, h⟩ | ⟨_, _, h⟩ | ⟨_, _, h⟩ <;> simp [h]

@[simp] theorem State.processInterrupt_params : s.processInterrupt.params = s.params := by
  rcases s.processInterrupt_cases with ⟨_, h⟩ | ⟨_, _, h⟩ | ⟨_, _, h⟩ <;> simp [h]

/-- `ProcessInterrupt` never puts the core to sleep (60 R336, R337). -/
theorem State.processInterrupt_sleeping (h : s.sleeping = false) : s.processInterrupt.sleeping = false := by
  rcases s.processInterrupt_cases with ⟨_, e⟩ | ⟨_, _, e⟩ | ⟨_, _, e⟩ <;> simp [e, h]

theorem State.processInterrupt_wf (h : s.mem.wf = true) : s.processInterrupt.mem.wf = true := by
  rcases s.processInterrupt_cases with ⟨_, e⟩ | ⟨_, _, e⟩ | ⟨_, _, e⟩
  · rw [e]; exact h
  · rw [e]; exact h
  · rw [e]; exact State.enterInterrupt_wf _ _ h

/-- Nothing is accepted unless EI is set, an interrupt is pending and no skip is in progress (60 R334). -/
theorem State.processInterrupt_of_not_accepts (h : s.accepts = false) : s.processInterrupt = s := by
  simp [State.processInterrupt, h]

end Sys2Proof.Machine
end

