-- ==== Sys2Proof/Laws/Decode.lean ====
section
/-!
SUPPORT. The fields of the words the encoder writes, and the words and bytes of the decoder.
-/

namespace Sys2Proof

/-! ## Words and bytes -/

/-- A word is the word of its bytes (20_memory R53). -/
@[simp] theorem wordOfBytes_bytesOfWord (w : Word) :
    wordOfBytes (w.extractLsb' 0 8) (w.extractLsb' 8 8) (w.extractLsb' 16 8) (w.extractLsb' 24 8) = w := by
  apply BitVec.eq_of_getLsbD_eq
  intro i hi
  simp only [wordOfBytes, BitVec.getLsbD_append, BitVec.getLsbD_extractLsb']
  interval_cases i <;> simp

/-- The bytes of a word made of bytes (20_memory R53). -/
theorem bytesOfWord_wordOfBytes (b0 b1 b2 b3 : Byte) : bytesOfWord (wordOfBytes b0 b1 b2 b3) = [b0, b1, b2, b3] := by
  have h : ∀ v v' : Byte, (∀ i, i < 8 → v.getLsbD i = v'.getLsbD i) → v = v' := fun _ _ h => BitVec.eq_of_getLsbD_eq h
  simp only [bytesOfWord, wordOfBytes, List.cons.injEq, and_true]
  refine ⟨?_, ?_, ?_, ?_⟩ <;> apply h <;> intro i hi <;>
    simp only [BitVec.getLsbD_extractLsb', BitVec.getLsbD_append] <;> interval_cases i <;> simp

/-! ## Fields of an encoded word -/

section Fields

variable (op : BitVec 8) (ml : BitVec 2) (rd rs : BitVec 4)

theorem fieldsP1 (low : BitVec 22) :
    (op ++ ml ++ low : Word).extractLsb' 24 8 = op ∧ (op ++ ml ++ low : Word).extractLsb' 0 22 = low ∧
    (op ++ ml ++ low : Word).getLsbD 23 = ml.getLsbD 1 ∧ (op ++ ml ++ low : Word).getLsbD 22 = ml.getLsbD 0 := by
  refine ⟨?_, ?_, ?_, ?_⟩
  · apply BitVec.eq_of_getLsbD_eq
    intro i hi
    simp only [BitVec.getLsbD_extractLsb', BitVec.getLsbD_append]
    interval_cases i <;> simp
  · apply BitVec.eq_of_getLsbD_eq
    intro i hi
    simp only [BitVec.getLsbD_extractLsb', BitVec.getLsbD_append, hi, Nat.zero_add, if_true, decide_true, Bool.true_and]
  · simp only [BitVec.getLsbD_append]; simp
  · simp only [BitVec.getLsbD_append]; simp

theorem fieldsP2 (low : BitVec 18) :
    (op ++ ml ++ rd ++ low : Word).extractLsb' 24 8 = op ∧ (op ++ ml ++ rd ++ low : Word).extractLsb' 0 18 = low ∧
    (op ++ ml ++ rd ++ low : Word).extractLsb' 18 4 = rd ∧
    (op ++ ml ++ rd ++ low : Word).getLsbD 23 = ml.getLsbD 1 ∧ (op ++ ml ++ rd ++ low : Word).getLsbD 22 = ml.getLsbD 0 := by
  refine ⟨?_, ?_, ?_, ?_, ?_⟩
  · apply BitVec.eq_of_getLsbD_eq
    intro i hi
    simp only [BitVec.getLsbD_extractLsb', BitVec.getLsbD_append]
    interval_cases i <;> simp
  · apply BitVec.eq_of_getLsbD_eq
    intro i hi
    simp only [BitVec.getLsbD_extractLsb', BitVec.getLsbD_append, hi, Nat.zero_add, if_true, decide_true, Bool.true_and]
  · apply BitVec.eq_of_getLsbD_eq
    intro i hi
    simp only [BitVec.getLsbD_extractLsb', BitVec.getLsbD_append]
    interval_cases i <;> simp
  · simp only [BitVec.getLsbD_append]; simp
  · simp only [BitVec.getLsbD_append]; simp

theorem fieldsP3 (low : BitVec 14) :
    (op ++ ml ++ rd ++ rs ++ low : Word).extractLsb' 24 8 = op ∧ (op ++ ml ++ rd ++ rs ++ low : Word).extractLsb' 0 14 = low ∧
    (op ++ ml ++ rd ++ rs ++ low : Word).extractLsb' 18 4 = rd ∧ (op ++ ml ++ rd ++ rs ++ low : Word).extractLsb' 14 4 = rs ∧
    (op ++ ml ++ rd ++ rs ++ low : Word).getLsbD 23 = ml.getLsbD 1 ∧
    (op ++ ml ++ rd ++ rs ++ low : Word).getLsbD 22 = ml.getLsbD 0 := by
  refine ⟨?_, ?_, ?_, ?_, ?_, ?_⟩
  · apply BitVec.eq_of_getLsbD_eq
    intro i hi
    simp only [BitVec.getLsbD_extractLsb', BitVec.getLsbD_append]
    interval_cases i <;> simp
  · apply BitVec.eq_of_getLsbD_eq
    intro i hi
    simp only [BitVec.getLsbD_extractLsb', BitVec.getLsbD_append, hi, Nat.zero_add, if_true, decide_true, Bool.true_and]
  · apply BitVec.eq_of_getLsbD_eq
    intro i hi
    simp only [BitVec.getLsbD_extractLsb', BitVec.getLsbD_append]
    interval_cases i <;> simp
  · apply BitVec.eq_of_getLsbD_eq
    intro i hi
    simp only [BitVec.getLsbD_extractLsb', BitVec.getLsbD_append]
    interval_cases i <;> simp
  · simp only [BitVec.getLsbD_append]; simp
  · simp only [BitVec.getLsbD_append]; simp

theorem opcodeNP : (op ++ 0#24 : Word).extractLsb' 24 8 = op := by
  apply BitVec.eq_of_getLsbD_eq
  intro i hi
  simp only [BitVec.getLsbD_extractLsb', BitVec.getLsbD_append]
  interval_cases i <;> simp

end Fields

/-! ## Classes and literals -/

/-- The class of a word is the class of its opcode byte (30_encoding R82). -/
theorem Class.ofWord_eq (w : Word) :
    Class.ofWord w = if w.getLsbD 31 then .p3 else if w.getLsbD 30 then .p2 else if w.getLsbD 29 then .p1 else .np := by
  have bits : ∀ (m v : Word), (w &&& m = v) ↔ ∀ i, i < 32 → (w.getLsbD i && m.getLsbD i) = v.getLsbD i := by
    intro m v
    constructor
    · rintro h i -
      rw [← h, BitVec.getLsbD_and]
    · intro h
      apply BitVec.eq_of_getLsbD_eq
      intro i hi
      rw [BitVec.getLsbD_and]
      exact h i hi
  have h3 : (w &&& 0x80000000#32 = 0x80000000#32) ↔ w.getLsbD 31 = true := by
    rw [bits]
    refine ⟨fun h => by simpa using h 31 (by omega), fun h i hi => ?_⟩
    interval_cases i <;> simp_all
  have h2 : (w &&& 0xC0000000#32 = 0x40000000#32) ↔ w.getLsbD 31 = false ∧ w.getLsbD 30 = true := by
    rw [bits]
    refine ⟨fun h => ⟨by simpa using h 31 (by omega), by simpa using h 30 (by omega)⟩, fun h i hi => ?_⟩
    interval_cases i <;> simp_all
  have h1 : (w &&& 0xE0000000#32 = 0x20000000#32) ↔
      w.getLsbD 31 = false ∧ w.getLsbD 30 = false ∧ w.getLsbD 29 = true := by
    rw [bits]
    refine ⟨fun h => ⟨by simpa using h 31 (by omega), by simpa using h 30 (by omega), by simpa using h 29 (by omega)⟩,
      fun h i hi => ?_⟩
    interval_cases i <;> simp_all
  unfold Class.ofWord
  simp only [h3, h2, h1]
  cases w.getLsbD 31 <;> cases w.getLsbD 30 <;> cases w.getLsbD 29 <;> simp

/-- A literal that fits its field is recovered from the field's bits by sign extension (30_encoding R90, R93). -/
theorem signExtend_of_fits (n : Nat) (hn : 0 < n) (hn' : n ≤ 32) (v : Word) (h : (Operand.lit v).fits n = true) :
    (v.setWidth n).signExtend 32 = v := by
  simp only [Operand.fits, decide_eq_true_eq] at h
  apply BitVec.eq_of_toInt_eq
  rw [BitVec.toInt_signExtend_of_le hn', BitVec.toInt_setWidth]
  have hm : Int.bmod (v.toNat : Int) (2 ^ n) = Int.bmod v.toInt (2 ^ n) := by
    rw [BitVec.toInt_eq_toNat_bmod, Int.bmod_bmod_of_dvd (Nat.pow_dvd_pow 2 hn')]
  rw [hm]
  obtain ⟨m, rfl⟩ : ∃ m, n = m + 1 := ⟨n - 1, by omega⟩
  simp only [Nat.add_sub_cancel] at h
  have h1 : (2 ^ (m + 1) : Nat) = 2 * 2 ^ m := by rw [Nat.pow_succ, Nat.mul_comm]
  have h2 : ((2 ^ m : Nat) : Int) = (2 : Int) ^ m := by norm_cast
  apply Int.bmod_eq_of_le <;> rw [h1] <;> omega

/-! ## Decoding bytes -/

/-- Decoding a word without a big literal (30_encoding R80). -/
theorem decodeBytes_short (w : Word) (rest : List Byte) (h : (header w).big = false) :
    decodeBytes (bytesOfWord w ++ rest) = (decodeOrReject w 0#32).map fun i => (i, rest) := by
  simp only [bytesOfWord, List.cons_append, List.nil_append, decodeBytes, wordOfBytes_bytesOfWord, h, Bool.false_eq_true, if_false]

/-- Decoding a word and its literal word (30_encoding R80, R90). -/
theorem decodeBytes_big (w v : Word) (rest : List Byte) (h : (header w).big = true) :
    decodeBytes (bytesOfWord w ++ (bytesOfWord v ++ rest)) = (decodeOrReject w v).map fun i => (i, rest) := by
  simp only [bytesOfWord, List.cons_append, List.nil_append, decodeBytes, wordOfBytes_bytesOfWord, h, if_true]

/-- The class of a word is told by its opcode byte (30_encoding R82). -/
theorem Class.ofWord_opcode (w : Word) :
    Class.ofWord w = if (w.extractLsb' 24 8).getLsbD 7 then .p3 else if (w.extractLsb' 24 8).getLsbD 6 then .p2
      else if (w.extractLsb' 24 8).getLsbD 5 then .p1 else .np := by
  rw [Class.ofWord_eq]
  simp only [BitVec.getLsbD_extractLsb']
  rfl

/-- A register number survives its field (30_encoding R91). -/
theorem regField (r : Reg) : (BitVec.ofNat 4 r.val).toFin = r := by
  revert r; decide

/-- `rn` in the low bits of an `n`-bit field (30_encoding R91). -/
theorem rnField (n : Nat) (hn : 4 ≤ n) (w : Word) (r : Reg) (h : w.extractLsb' 0 n = BitVec.ofNat n r.val) :
    (w.extractLsb' 0 4).toFin = r := by
  have : w.extractLsb' 0 4 = BitVec.ofNat 4 r.val := by
    apply BitVec.eq_of_getLsbD_eq
    intro k hk
    have := congrArg (·.getLsbD k) h
    simp only [BitVec.getLsbD_extractLsb', BitVec.getLsbD_ofNat] at this ⊢
    have hk' : k < n := by omega
    simpa [hk, hk'] using this
  rw [this, regField]

/-! ## The opcode map -/

/-- Whether an opcode is mapped does not depend on the other fields (30_encoding R96). -/
theorem instrOf_isNone (op : BitVec 8) (rd rs : Reg) (o : Operand) :
    (instrOf op rd rs o).isNone = (instrOf op 0 0 (.lit 0#32)).isNone := by
  unfold instrOf
  split <;> rfl

/-- The opcodes of each class that the map assigns, and the literal field of their operands (30_encoding R93, R94). -/
theorem instrOf_wf (op : BitVec 8) (rd rs : Reg) (o : Operand) (i : Instr) (h : instrOf op rd rs o = some i) :
    (op.toNat ≤ 2 ∧ i.wf = true) ∨ (0x20 ≤ op.toNat ∧ op.toNat ≤ 0x29 ∧ i.wf = o.fits 22) ∨
    (0x40 ≤ op.toNat ∧ op.toNat ≤ 0x54 ∧ i.wf = o.fits 18) ∨ (0x80 ≤ op.toNat ∧ op.toNat ≤ 0x98 ∧ i.wf = o.fits 14) := by
  unfold instrOf at h
  split at h <;> cases h
  all_goals (simp [Instr.wf])

/-- A sign-extended field fits its width (30_encoding R93). -/
theorem fits_signExtend (n : Nat) (hn : 0 < n) (hn' : n ≤ 32) (x : BitVec n) :
    (Operand.lit (x.signExtend 32)).fits n = true := by
  simp only [Operand.fits, decide_eq_true_eq]
  rw [BitVec.toInt_signExtend_of_le hn']
  have h1 := BitVec.two_mul_toInt_lt (x := x)
  have h2 := BitVec.le_two_mul_toInt (x := x)
  obtain ⟨m, rfl⟩ : ∃ m, n = m + 1 := ⟨n - 1, by omega⟩
  simp only [Nat.add_sub_cancel]
  rw [Int.pow_succ] at h1 h2
  omega

end Sys2Proof
end

