-- ==== Sys2Proof/Laws/Flags.lean ====
section
/-!
SUPPORT. What the ALU computations give, once for each: exact sums and differences, bits of shifts and rotates, exact products and quotients (41_p3_alu R164 to R183).
-/

namespace Sys2Proof.Machine

/-- `!=` on Booleans as a decision. -/
theorem bne_eq_decide_ne (x y : Bool) : (x != y) = decide (x ≠ y) := by cases x <;> cases y <;> rfl
/-- `==` on Booleans as a decision. -/
theorem beq_eq_decide_eq (x y : Bool) : (x == y) = decide (x = y) := by cases x <;> cases y <;> rfl

/-- The 64-bit sum loses nothing (41_p3_alu R181). -/
theorem exactSum_toNat (a b : Word) (c : Bool) :
   (a.setWidth 64 + b.setWidth 64 + (BitVec.ofBool c).setWidth 64 : BitVec 64).toNat = a.toNat + b.toNat + c.toNat := by
  have := a.isLt; have := b.isLt
  have hc : (BitVec.ofBool c).toNat = c.toNat := by cases c <;> rfl
  have : c.toNat ≤ 1 := by cases c <;> decide
  simp only [BitVec.toNat_add, BitVec.toNat_setWidth, hc]
  omega

/-- A sum is exact modulo 2^32 (41_p3_alu R181). -/
theorem addOut_result (a b : Word) (c : Bool) :
    (addOut a b c).result = BitVec.ofNat 32 (a.toNat + b.toNat + c.toNat) := by
  apply BitVec.eq_of_toNat_eq
  simp only [addOut, BitVec.extractLsb'_toNat, exactSum_toNat, BitVec.toNat_ofNat, Nat.shiftRight_zero]

/-- CF of a sum is the carry out of bit 31 (41_p3_alu R181). -/
theorem addOut_cf (a b : Word) (c : Bool) : (addOut a b c).cf = decide (2 ^ 32 ≤ a.toNat + b.toNat + c.toNat) := by
  have := a.isLt; have := b.isLt
  have : c.toNat ≤ 1 := by cases c <;> decide
  simp only [addOut, BitVec.getLsbD, exactSum_toNat, Nat.testBit_eq_decide_div_mod_eq]
  congr 1
  exact propext (by omega)

/-- OF of a sum by the signs (41_p3_alu R181). -/
theorem addOut_of (a b : Word) (c : Bool) :
    (addOut a b c).of =
      (decide (a.getLsbD 31 = b.getLsbD 31) && decide ((addOut a b c).result.getLsbD 31 ≠ a.getLsbD 31)) := by
  rw [← bne_eq_decide_ne, ← beq_eq_decide_eq]; rfl

/-- A difference is exact modulo 2^32 (41_p3_alu R182). -/
theorem subOut_result (m u : Word) (c : Bool) :
    (subOut m u c).result = BitVec.ofInt 32 ((m.toNat : Int) - u.toNat - c.toNat) := by
  apply BitVec.eq_of_toNat_eq
  have := m.isLt; have := u.isLt
  have hc : (BitVec.ofBool c).toNat = c.toNat := by cases c <;> rfl
  have : c.toNat ≤ 1 := by cases c <;> decide
  simp only [subOut, BitVec.toNat_sub, BitVec.toNat_setWidth, hc, BitVec.toNat_ofInt]
  omega

/-- CF of a difference is the borrow (41_p3_alu R182). -/
theorem subOut_cf (m u : Word) (c : Bool) : (subOut m u c).cf = decide (m.toNat < u.toNat + c.toNat) := rfl

/-- OF of a difference by the signs (41_p3_alu R182). -/
theorem subOut_of (m u : Word) (c : Bool) :
    (subOut m u c).of =
      (decide (m.getLsbD 31 ≠ u.getLsbD 31) && decide ((subOut m u c).result.getLsbD 31 ≠ m.getLsbD 31)) := by
  rw [← bne_eq_decide_ne, ← bne_eq_decide_ne]; rfl

/-- The shift amount is the operand modulo 32 (41_p3_alu R183). -/
theorem shiftAmount_eq (b : Word) : shiftAmount b = b.toNat % 32 := by
  simp [shiftAmount, BitVec.extractLsb'_toNat]

/-- CF of a left shift or rotate (41_p3_alu R183). -/
theorem leftCarry_eq (a : Word) (n : Nat) : leftCarry a n = (decide (n ≠ 0) && a.getLsbD (32 - n)) := by
  unfold leftCarry; split <;> simp [*]

/-- CF of a right shift or rotate (41_p3_alu R183). -/
theorem rightCarry_eq (a : Word) (n : Nat) : rightCarry a n = (decide (n ≠ 0) && a.getLsbD (n - 1)) := by
  unfold rightCarry; split <;> simp [*]

/-- Bits of LLS (41_p3_alu R170). -/
theorem llsOut_bit (a b : Word) (k : Nat) (hk : k < 32) :
    (llsOut a b).result.getLsbD k = (decide (shiftAmount b ≤ k) && a.getLsbD (k - shiftAmount b)) := by
  simp only [llsOut, BitVec.getLsbD_shiftLeft, hk, decide_true, Bool.true_and]
  by_cases h : shiftAmount b ≤ k
  · have : ¬ k < shiftAmount b := by omega
    simp [h, this]
  · have : k < shiftAmount b := by omega
    simp [h, this]

/-- Bits of RLS (41_p3_alu R171). -/
theorem rlsOut_bit (a b : Word) (k : Nat) :
    (rlsOut a b).result.getLsbD k = (decide (k + shiftAmount b < 32) && a.getLsbD (k + shiftAmount b)) := by
  simp only [rlsOut, BitVec.getLsbD_ushiftRight, Nat.add_comm k]
  by_cases h : shiftAmount b + k < 32
  · simp [h]
  · simp [h, BitVec.getLsbD_of_ge _ _ (Nat.le_of_not_lt h)]

/-- Bits of ARS (41_p3_alu R172). -/
theorem arsOut_bit (a b : Word) (k : Nat) (hk : k < 32) :
    (arsOut a b).result.getLsbD k = a.getLsbD (min (k + shiftAmount b) 31) := by
  simp only [arsOut, BitVec.getLsbD_sshiftRight, Nat.add_comm k]
  by_cases h : shiftAmount b + k < 32
  · have : min (shiftAmount b + k) 31 = shiftAmount b + k := by omega
    have : ¬ 32 ≤ k := by omega
    simp [*]
  · have : min (shiftAmount b + k) 31 = 31 := by omega
    have : ¬ 32 ≤ k := by omega
    simp [*, BitVec.msb_eq_getLsbD_last]

/-- Bits of ROTL (41_p3_alu R173). -/
theorem rotlOut_bit (a b : Word) (k : Nat) (hk : k < 32) :
    (rotlOut a b).result.getLsbD k = a.getLsbD ((k + 32 - shiftAmount b) % 32) := by
  have hn : shiftAmount b < 32 := by rw [shiftAmount_eq]; omega
  simp only [rotlOut]
  split
  · rename_i h0
    rw [h0]; congr 1; omega
  · rename_i h0
    simp only [BitVec.getLsbD_or, BitVec.getLsbD_shiftLeft, BitVec.getLsbD_ushiftRight]
    by_cases h : k < shiftAmount b
    · have e : (k + 32 - shiftAmount b) % 32 = 32 - shiftAmount b + k := by omega
      simp [h, e]
    · have e : (k + 32 - shiftAmount b) % 32 = k - shiftAmount b := by omega
      have : 32 ≤ 32 - shiftAmount b + k := by omega
      simp [h, hk, e, BitVec.getLsbD_of_ge _ _ this]

/-- Bits of ROTR (41_p3_alu R174). -/
theorem rotrOut_bit (a b : Word) (k : Nat) (hk : k < 32) :
    (rotrOut a b).result.getLsbD k = a.getLsbD ((k + shiftAmount b) % 32) := by
  have hn : shiftAmount b < 32 := by rw [shiftAmount_eq]; omega
  simp only [rotrOut]
  split
  · rename_i h0
    rw [h0]; congr 1; omega
  · rename_i h0
    simp only [BitVec.getLsbD_or, BitVec.getLsbD_shiftLeft, BitVec.getLsbD_ushiftRight]
    by_cases h : k < 32 - shiftAmount b
    · have e : (k + shiftAmount b) % 32 = shiftAmount b + k := by omega
      simp [h, e]
    · have e : (k + shiftAmount b) % 32 = k - (32 - shiftAmount b) := by omega
      have : 32 ≤ shiftAmount b + k := by omega
      simp [h, hk, e, BitVec.getLsbD_of_ge _ _ this]

/-- The two words of MUL are the exact product (41_p3_alu R175). -/
theorem mulOut_exact (a b : Word) : (mulOut a b).y.toNat * 2 ^ 32 + (mulOut a b).result.toNat = a.toNat * b.toNat := by
  have h : a.toNat * b.toNat < 2 ^ 64 := by
    have := Nat.mul_lt_mul'' a.isLt b.isLt
    simpa [← Nat.pow_add] using this
  simp only [mulOut, productOut, BitVec.extractLsb'_toNat, BitVec.toNat_ofNat, Nat.mod_eq_of_lt h, Nat.shiftRight_eq_div_pow]
  omega

/-- The two words of SMUL are the exact signed product (41_p3_alu R176). -/
theorem smulOut_exact (a b : Word) :
    (smulOut a b).y.toInt * 2 ^ 32 + ((smulOut a b).result.toNat : Int) = a.toInt * b.toInt := by
  have h1 := BitVec.two_mul_toInt_lt (x := a)
  have h2 := BitVec.le_two_mul_toInt (x := a)
  have h3 := BitVec.two_mul_toInt_lt (x := b)
  have h4 := BitVec.le_two_mul_toInt (x := b)
  have hb : -2 ^ 62 ≤ a.toInt * b.toInt ∧ a.toInt * b.toInt ≤ 2 ^ 62 := by
    norm_num at h1 h2 h3 h4 ⊢
    constructor <;> nlinarith
  simp only [smulOut, productOut, BitVec.toInt_eq_toNat_bmod (BitVec.extractLsb' 32 32 _), BitVec.extractLsb'_toNat, BitVec.toNat_ofInt, Nat.shiftRight_eq_div_pow]
  generalize a.toInt * b.toInt = p at *
  rw [Int.bmod_def]
  norm_num at hb ⊢
  split_ifs <;> omega

/-- Quotient and remainder of DIV (41_p3_alu R177). -/
theorem divOut_exact (a b : Word) :
    (divOut a b).result.toNat = a.toNat / b.toNat ∧ (divOut a b).y.toNat = a.toNat % b.toNat := by
  have ha := a.isLt
  have h1 := Nat.div_le_self a.toNat b.toNat
  have h2 := Nat.mod_le a.toNat b.toNat
  simp only [divOut, BitVec.toNat_ofNat]
  exact ⟨Nat.mod_eq_of_lt (by omega), Nat.mod_eq_of_lt (by omega)⟩

/-- 0x80000000 / 0xFFFFFFFF gives the parameter (41_p3_alu R178). -/
theorem sdivOut_ovf (ovf : YOut) : sdivOut ovf 0x80000000#32 0xFFFFFFFF#32 = ovf := by simp [sdivOut]

/-- Quotient toward zero and remainder of SDIV (41_p3_alu R178). -/
theorem sdivOut_exact (ovf : YOut) (a b : Word) (hb : b ≠ 0#32) (h : ¬(a = 0x80000000#32 ∧ b = 0xFFFFFFFF#32)) :
    (sdivOut ovf a b).result.toInt = a.toInt.tdiv b.toInt ∧
    (sdivOut ovf a b).y.toInt = a.toInt.tmod b.toInt := by
  have h1 := BitVec.two_mul_toInt_lt (x := a)
  have h2 := BitVec.le_two_mul_toInt (x := a)
  have h3 := BitVec.two_mul_toInt_lt (x := b)
  have h4 := BitVec.le_two_mul_toInt (x := b)
  have hb0 : b.toInt ≠ 0 := fun e => hb (BitVec.eq_of_toInt_eq e)
  have hq : -2 ^ 31 ≤ a.toInt.tdiv b.toInt ∧ a.toInt.tdiv b.toInt < 2 ^ 31 := by
    have hle := Int.natAbs_tdiv_le_natAbs a.toInt b.toInt
    by_cases e : a.toInt = -2 ^ 31
    · by_cases f : b.toInt = -1
      · exact absurd ⟨BitVec.eq_of_toInt_eq e, BitVec.eq_of_toInt_eq f⟩ h
      · have : (a.toInt.tdiv b.toInt).natAbs < 2 ^ 31 ∨ b.toInt = 1 := by
          by_cases g : b.toInt = 1
          · exact .inr g
          · left
            rw [Int.natAbs_tdiv, e]
            have : 2 ≤ b.toInt.natAbs := by omega
            have := Nat.div_le_div_left (c := 2) (b := b.toInt.natAbs) this (by omega) (a := (2 ^ 31 : Nat))
            norm_num at this ⊢
            change 2147483648 / b.toInt.natAbs < 2147483648
            omega
        rcases this with h | g
        · omega
        · rw [g, Int.tdiv_one]; omega
    · omega
  have hr : a.toInt - a.toInt.tdiv b.toInt * b.toInt = a.toInt.tmod b.toInt := by
    rw [Int.tmod_def, Int.mul_comm]
  have hm : -2 ^ 31 ≤ a.toInt.tmod b.toInt ∧ a.toInt.tmod b.toInt < 2 ^ 31 := by
    have h5 : (a.toInt.tmod b.toInt).natAbs < b.toInt.natAbs := by
      rw [Int.natAbs_tmod]; exact Nat.mod_lt _ (by omega)
    omega
  unfold sdivOut
  rw [if_neg h]
  simp only [BitVec.toInt_ofInt, hr]
  constructor <;> apply Int.bmod_eq_of_le <;> omega

end Sys2Proof.Machine
end

