-- ==== Sys2Proof/Laws/PerInstr.lean ====
section
/-!
SUPPORT. The family OpcodeMap: the opcode byte that the encoder writes for an instruction is the one that the decoder's opcode map assigns to the same constructor (30_encoding R94).
-/

namespace Sys2Proof.Laws

/-- The opcode byte of the encoded first word is mapped, for every register and operand, to the constructor of `i`. -/
def OpcodeMap.Statement (i : Instr) : Prop :=
  ∃ w rest, encode i = w :: rest ∧
    ∀ rd rs o, (instrOf (w.extractLsb' 24 8) rd rs o).map Instr.ctorIdx = some i.ctorIdx

theorem OpcodeMap.sleep : OpcodeMap.Statement .sleep :=
  ⟨_, _, rfl, fun _ _ _ => by rw [opcodeNP _]; rfl⟩

theorem OpcodeMap.ret : OpcodeMap.Statement .ret :=
  ⟨_, _, rfl, fun _ _ _ => by rw [opcodeNP _]; rfl⟩

theorem OpcodeMap.rfi : OpcodeMap.Statement .rfi :=
  ⟨_, _, rfl, fun _ _ _ => by rw [opcodeNP _]; rfl⟩

theorem OpcodeMap.xchgb (o : Operand) : OpcodeMap.Statement (.xchgb o) :=
  ⟨_, _, rfl, fun _ _ _ => by rw [(fieldsP1 _ _ _).1]; rfl⟩

theorem OpcodeMap.xchgw (o : Operand) : OpcodeMap.Statement (.xchgw o) :=
  ⟨_, _, rfl, fun _ _ _ => by rw [(fieldsP1 _ _ _).1]; rfl⟩

theorem OpcodeMap.getpc (o : Operand) : OpcodeMap.Statement (.getpc o) :=
  ⟨_, _, rfl, fun _ _ _ => by rw [(fieldsP1 _ _ _).1]; rfl⟩

theorem OpcodeMap.pop (o : Operand) : OpcodeMap.Statement (.pop o) :=
  ⟨_, _, rfl, fun _ _ _ => by rw [(fieldsP1 _ _ _).1]; rfl⟩

theorem OpcodeMap.push (o : Operand) : OpcodeMap.Statement (.push o) :=
  ⟨_, _, rfl, fun _ _ _ => by rw [(fieldsP1 _ _ _).1]; rfl⟩

theorem OpcodeMap.jmp (o : Operand) : OpcodeMap.Statement (.jmp o) :=
  ⟨_, _, rfl, fun _ _ _ => by rw [(fieldsP1 _ _ _).1]; rfl⟩

theorem OpcodeMap.call (o : Operand) : OpcodeMap.Statement (.call o) :=
  ⟨_, _, rfl, fun _ _ _ => by rw [(fieldsP1 _ _ _).1]; rfl⟩

theorem OpcodeMap.rjmp (o : Operand) : OpcodeMap.Statement (.rjmp o) :=
  ⟨_, _, rfl, fun _ _ _ => by rw [(fieldsP1 _ _ _).1]; rfl⟩

theorem OpcodeMap.rcall (o : Operand) : OpcodeMap.Statement (.rcall o) :=
  ⟨_, _, rfl, fun _ _ _ => by rw [(fieldsP1 _ _ _).1]; rfl⟩

theorem OpcodeMap.int (o : Operand) : OpcodeMap.Statement (.int o) :=
  ⟨_, _, rfl, fun _ _ _ => by rw [(fieldsP1 _ _ _).1]; rfl⟩

theorem OpcodeMap.mov (rd : Reg) (o : Operand) : OpcodeMap.Statement (.mov rd o) :=
  ⟨_, _, rfl, fun _ _ _ => by rw [(fieldsP2 _ _ _ _).1]; rfl⟩

theorem OpcodeMap.swp (rd : Reg) (o : Operand) : OpcodeMap.Statement (.swp rd o) :=
  ⟨_, _, rfl, fun _ _ _ => by rw [(fieldsP2 _ _ _ _).1]; rfl⟩

theorem OpcodeMap.not (rd : Reg) (o : Operand) : OpcodeMap.Statement (.not rd o) :=
  ⟨_, _, rfl, fun _ _ _ => by rw [(fieldsP2 _ _ _ _).1]; rfl⟩

theorem OpcodeMap.sigxb (rd : Reg) (o : Operand) : OpcodeMap.Statement (.sigxb rd o) :=
  ⟨_, _, rfl, fun _ _ _ => by rw [(fieldsP2 _ _ _ _).1]; rfl⟩

theorem OpcodeMap.sigxw (rd : Reg) (o : Operand) : OpcodeMap.Statement (.sigxw rd o) :=
  ⟨_, _, rfl, fun _ _ _ => by rw [(fieldsP2 _ _ _ _).1]; rfl⟩

theorem OpcodeMap.load2 (rd : Reg) (o : Operand) : OpcodeMap.Statement (.load2 rd o) :=
  ⟨_, _, rfl, fun _ _ _ => by rw [(fieldsP2 _ _ _ _).1]; rfl⟩

theorem OpcodeMap.loadw2 (rd : Reg) (o : Operand) : OpcodeMap.Statement (.loadw2 rd o) :=
  ⟨_, _, rfl, fun _ _ _ => by rw [(fieldsP2 _ _ _ _).1]; rfl⟩

theorem OpcodeMap.loadb2 (rd : Reg) (o : Operand) : OpcodeMap.Statement (.loadb2 rd o) :=
  ⟨_, _, rfl, fun _ _ _ => by rw [(fieldsP2 _ _ _ _).1]; rfl⟩

theorem OpcodeMap.store2 (rd : Reg) (o : Operand) : OpcodeMap.Statement (.store2 rd o) :=
  ⟨_, _, rfl, fun _ _ _ => by rw [(fieldsP2 _ _ _ _).1]; rfl⟩

theorem OpcodeMap.storew2 (rd : Reg) (o : Operand) : OpcodeMap.Statement (.storew2 rd o) :=
  ⟨_, _, rfl, fun _ _ _ => by rw [(fieldsP2 _ _ _ _).1]; rfl⟩

theorem OpcodeMap.storeb2 (rd : Reg) (o : Operand) : OpcodeMap.Statement (.storeb2 rd o) :=
  ⟨_, _, rfl, fun _ _ _ => by rw [(fieldsP2 _ _ _ _).1]; rfl⟩

theorem OpcodeMap.ifeq (rd : Reg) (o : Operand) : OpcodeMap.Statement (.ifeq rd o) :=
  ⟨_, _, rfl, fun _ _ _ => by rw [(fieldsP2 _ _ _ _).1]; rfl⟩

theorem OpcodeMap.ifneq (rd : Reg) (o : Operand) : OpcodeMap.Statement (.ifneq rd o) :=
  ⟨_, _, rfl, fun _ _ _ => by rw [(fieldsP2 _ _ _ _).1]; rfl⟩

theorem OpcodeMap.ifl (rd : Reg) (o : Operand) : OpcodeMap.Statement (.ifl rd o) :=
  ⟨_, _, rfl, fun _ _ _ => by rw [(fieldsP2 _ _ _ _).1]; rfl⟩

theorem OpcodeMap.ifsl (rd : Reg) (o : Operand) : OpcodeMap.Statement (.ifsl rd o) :=
  ⟨_, _, rfl, fun _ _ _ => by rw [(fieldsP2 _ _ _ _).1]; rfl⟩

theorem OpcodeMap.ifle (rd : Reg) (o : Operand) : OpcodeMap.Statement (.ifle rd o) :=
  ⟨_, _, rfl, fun _ _ _ => by rw [(fieldsP2 _ _ _ _).1]; rfl⟩

theorem OpcodeMap.ifsle (rd : Reg) (o : Operand) : OpcodeMap.Statement (.ifsle rd o) :=
  ⟨_, _, rfl, fun _ _ _ => by rw [(fieldsP2 _ _ _ _).1]; rfl⟩

theorem OpcodeMap.ifbits (rd : Reg) (o : Operand) : OpcodeMap.Statement (.ifbits rd o) :=
  ⟨_, _, rfl, fun _ _ _ => by rw [(fieldsP2 _ _ _ _).1]; rfl⟩

theorem OpcodeMap.ifclear (rd : Reg) (o : Operand) : OpcodeMap.Statement (.ifclear rd o) :=
  ⟨_, _, rfl, fun _ _ _ => by rw [(fieldsP2 _ _ _ _).1]; rfl⟩

theorem OpcodeMap.jmp2 (rd : Reg) (o : Operand) : OpcodeMap.Statement (.jmp2 rd o) :=
  ⟨_, _, rfl, fun _ _ _ => by rw [(fieldsP2 _ _ _ _).1]; rfl⟩

theorem OpcodeMap.call2 (rd : Reg) (o : Operand) : OpcodeMap.Statement (.call2 rd o) :=
  ⟨_, _, rfl, fun _ _ _ => by rw [(fieldsP2 _ _ _ _).1]; rfl⟩

theorem OpcodeMap.and (rd rs : Reg) (o : Operand) : OpcodeMap.Statement (.and rd rs o) :=
  ⟨_, _, rfl, fun _ _ _ => by rw [(fieldsP3 _ _ _ _ _).1]; rfl⟩

theorem OpcodeMap.or (rd rs : Reg) (o : Operand) : OpcodeMap.Statement (.or rd rs o) :=
  ⟨_, _, rfl, fun _ _ _ => by rw [(fieldsP3 _ _ _ _ _).1]; rfl⟩

theorem OpcodeMap.xor (rd rs : Reg) (o : Operand) : OpcodeMap.Statement (.xor rd rs o) :=
  ⟨_, _, rfl, fun _ _ _ => by rw [(fieldsP3 _ _ _ _ _).1]; rfl⟩

theorem OpcodeMap.bitc (rd rs : Reg) (o : Operand) : OpcodeMap.Statement (.bitc rd rs o) :=
  ⟨_, _, rfl, fun _ _ _ => by rw [(fieldsP3 _ _ _ _ _).1]; rfl⟩

theorem OpcodeMap.add (rd rs : Reg) (o : Operand) : OpcodeMap.Statement (.add rd rs o) :=
  ⟨_, _, rfl, fun _ _ _ => by rw [(fieldsP3 _ _ _ _ _).1]; rfl⟩

theorem OpcodeMap.addc (rd rs : Reg) (o : Operand) : OpcodeMap.Statement (.addc rd rs o) :=
  ⟨_, _, rfl, fun _ _ _ => by rw [(fieldsP3 _ _ _ _ _).1]; rfl⟩

theorem OpcodeMap.sub (rd rs : Reg) (o : Operand) : OpcodeMap.Statement (.sub rd rs o) :=
  ⟨_, _, rfl, fun _ _ _ => by rw [(fieldsP3 _ _ _ _ _).1]; rfl⟩

theorem OpcodeMap.subb (rd rs : Reg) (o : Operand) : OpcodeMap.Statement (.subb rd rs o) :=
  ⟨_, _, rfl, fun _ _ _ => by rw [(fieldsP3 _ _ _ _ _).1]; rfl⟩

theorem OpcodeMap.rsb (rd rs : Reg) (o : Operand) : OpcodeMap.Statement (.rsb rd rs o) :=
  ⟨_, _, rfl, fun _ _ _ => by rw [(fieldsP3 _ _ _ _ _).1]; rfl⟩

theorem OpcodeMap.rsbb (rd rs : Reg) (o : Operand) : OpcodeMap.Statement (.rsbb rd rs o) :=
  ⟨_, _, rfl, fun _ _ _ => by rw [(fieldsP3 _ _ _ _ _).1]; rfl⟩

theorem OpcodeMap.lls (rd rs : Reg) (o : Operand) : OpcodeMap.Statement (.lls rd rs o) :=
  ⟨_, _, rfl, fun _ _ _ => by rw [(fieldsP3 _ _ _ _ _).1]; rfl⟩

theorem OpcodeMap.rls (rd rs : Reg) (o : Operand) : OpcodeMap.Statement (.rls rd rs o) :=
  ⟨_, _, rfl, fun _ _ _ => by rw [(fieldsP3 _ _ _ _ _).1]; rfl⟩

theorem OpcodeMap.ars (rd rs : Reg) (o : Operand) : OpcodeMap.Statement (.ars rd rs o) :=
  ⟨_, _, rfl, fun _ _ _ => by rw [(fieldsP3 _ _ _ _ _).1]; rfl⟩

theorem OpcodeMap.rotl (rd rs : Reg) (o : Operand) : OpcodeMap.Statement (.rotl rd rs o) :=
  ⟨_, _, rfl, fun _ _ _ => by rw [(fieldsP3 _ _ _ _ _).1]; rfl⟩

theorem OpcodeMap.rotr (rd rs : Reg) (o : Operand) : OpcodeMap.Statement (.rotr rd rs o) :=
  ⟨_, _, rfl, fun _ _ _ => by rw [(fieldsP3 _ _ _ _ _).1]; rfl⟩

theorem OpcodeMap.mul (rd rs : Reg) (o : Operand) : OpcodeMap.Statement (.mul rd rs o) :=
  ⟨_, _, rfl, fun _ _ _ => by rw [(fieldsP3 _ _ _ _ _).1]; rfl⟩

theorem OpcodeMap.smul (rd rs : Reg) (o : Operand) : OpcodeMap.Statement (.smul rd rs o) :=
  ⟨_, _, rfl, fun _ _ _ => by rw [(fieldsP3 _ _ _ _ _).1]; rfl⟩

theorem OpcodeMap.div (rd rs : Reg) (o : Operand) : OpcodeMap.Statement (.div rd rs o) :=
  ⟨_, _, rfl, fun _ _ _ => by rw [(fieldsP3 _ _ _ _ _).1]; rfl⟩

theorem OpcodeMap.sdiv (rd rs : Reg) (o : Operand) : OpcodeMap.Statement (.sdiv rd rs o) :=
  ⟨_, _, rfl, fun _ _ _ => by rw [(fieldsP3 _ _ _ _ _).1]; rfl⟩

theorem OpcodeMap.load (rd rs : Reg) (o : Operand) : OpcodeMap.Statement (.load rd rs o) :=
  ⟨_, _, rfl, fun _ _ _ => by rw [(fieldsP3 _ _ _ _ _).1]; rfl⟩

theorem OpcodeMap.loadw (rd rs : Reg) (o : Operand) : OpcodeMap.Statement (.loadw rd rs o) :=
  ⟨_, _, rfl, fun _ _ _ => by rw [(fieldsP3 _ _ _ _ _).1]; rfl⟩

theorem OpcodeMap.loadb (rd rs : Reg) (o : Operand) : OpcodeMap.Statement (.loadb rd rs o) :=
  ⟨_, _, rfl, fun _ _ _ => by rw [(fieldsP3 _ _ _ _ _).1]; rfl⟩

theorem OpcodeMap.store (rd rs : Reg) (o : Operand) : OpcodeMap.Statement (.store rd rs o) :=
  ⟨_, _, rfl, fun _ _ _ => by rw [(fieldsP3 _ _ _ _ _).1]; rfl⟩

theorem OpcodeMap.storew (rd rs : Reg) (o : Operand) : OpcodeMap.Statement (.storew rd rs o) :=
  ⟨_, _, rfl, fun _ _ _ => by rw [(fieldsP3 _ _ _ _ _).1]; rfl⟩

theorem OpcodeMap.storeb (rd rs : Reg) (o : Operand) : OpcodeMap.Statement (.storeb rd rs o) :=
  ⟨_, _, rfl, fun _ _ _ => by rw [(fieldsP3 _ _ _ _ _).1]; rfl⟩

end Sys2Proof.Laws
end

