-- ==== Sys2Proof/Laws/Sequencer.lean ====
section
/-!
SUPPORT. What the step engine can do: fetch, skip, execute, and each way `RealStep` and `Step` can go.
-/

namespace Sys2Proof.Machine

variable (s : State)

@[simp] theorem State.fetchWord_fst : s.fetchWord.1 = s.readValue .dword s.pc := rfl
@[simp] theorem State.fetchWord_snd : s.fetchWord.2 = (s.logCall (.read .dword s.pc)).setPc (s.pc + 4#32) := rfl

theorem State.fetchLiteral_big (h : Header) (hb : h.big = true) : s.fetchLiteral h = s.fetchWord := by
  simp [State.fetchLiteral, hb]

theorem State.fetchLiteral_short (h : Header) (hb : h.big = false) : s.fetchLiteral h = (0#32, s) := by
  simp [State.fetchLiteral, hb]

/-- Stepping over an instruction moves the pc past it and sets `skiping` (40_step_engine R131). -/
theorem State.skipOver_eq (h : Header) :
    s.skipOver h = (s.setPc (s.pc + (if h.big then 4#32 else 0#32))).setSkiping h.isIFxx := by
  cases hb : h.big <;> simp [State.skipOver, hb, State.setPc]

/-- The step-mode interrupt changes at most the latch (40_step_engine R127). -/
theorem State.stepModeInterrupt_cases (if0 : Bool) :
    s.stepModeInterrupt if0 = s ∨
    (s.stepMode = true ∧ if0 = false ∧ s.flag bitEI = true ∧
      s.stepModeInterrupt if0 = (s.setInterrupt true).setIntMsg ((s.params.stepIntMsg.setWidth 32 : Word).setWidth 8)) := by
  unfold State.stepModeInterrupt
  by_cases hm : s.stepMode = true
  · cases if0
    · by_cases he : s.flag bitEI = true
      · exact .inr ⟨hm, rfl, he, by simp [hm, State.sendInterrupt_enabled _ _ he]⟩
      · have he' : s.flag bitEI = false := by simpa using he
        exact .inl (by simp [hm, State.sendInterrupt_disabled _ _ he'])
    · exact .inl (by simp)
  · exact .inl (by simp [hm])

/-- An aborted `RealStep` (40_step_engine R122). -/
theorem State.realStep_abort (t : Timing) (h : s.debugAbort = true) : s.realStep t = .next (s, 0) := by
  simp [State.realStep, h]

/-- A `RealStep` that steps over an instruction (40_step_engine R131). -/
theorem State.realStep_skip (t : Timing) (h : s.debugAbort = false) (hs : s.skiping = true) :
    s.realStep t = .next ((s.fetchWord.2.skipOver (header s.fetchWord.1)).processInterrupt, t.skipCost) := by
  simp [State.realStep, h, hs]

/-- A `RealStep` that executes an instruction (40_step_engine R123). -/
theorem State.realStep_execute (t : Timing) (h : s.debugAbort = false) (hs : s.skiping = false) :
    s.realStep t = s.fetchWord.2.executeWord t s.fetchWord.1 := by
  simp [State.realStep, h, hs]

/-- `Step` without a bus (00_scope R13). -/
theorem State.stepCycles_noBus (t : Timing) (h : s.busAttached = false) : s.stepCycles t = .refused .noBus := by
  simp [State.stepCycles, h]

/-- `Step` while asleep (40_step_engine R134). -/
theorem State.stepCycles_asleep (t : Timing) (h : s.busAttached = true) (hs : s.sleeping = true) :
    s.stepCycles t = .next (s.processInterrupt, 1) := by
  simp [State.stepCycles, h, hs]

/-- `Step` while awake (40_step_engine R134). -/
theorem State.stepCycles_awake (t : Timing) (h : s.busAttached = true) (hs : s.sleeping = false) :
    s.stepCycles t = s.realStep t := by
  simp [State.stepCycles, h, hs]

end Sys2Proof.Machine
end

