-- ==== Sys2Proof/Machine/Disasm.lean ====
section
/-!
DEFINITION. The disassembly contract (30_encoding R99, R101): the text of an instruction, and of the bytes at an address.
-/

namespace Sys2Proof.Machine

/-- A register operand, `%rN` (30_encoding R99; notes/assumptions/19.md). -/
def regText (r : Reg) : String :=
  "%r" ++ (["0", "1", "2", "3", "4", "5", "6", "7", "8", "9", "10", "11", "12", "13", "14", "15"].getD r.val "")

/-- An upper-case hex digit. -/
def hexDigit (v : BitVec 4) : Char := "0123456789ABCDEF".toList.getD v.toNat '0'

/-- `0x` and 8 upper-case hex digits (30_encoding R99). -/
def hexText (v : Word) : String :=
  "0x" ++ String.ofList ([28, 24, 20, 16, 12, 8, 4, 0].map fun k => hexDigit (v.extractLsb' k 4))

/-- An operand: the register's name, or the 32-bit value after extension (30_encoding R99, R101). -/
def operandText : Operand → String
  | .reg r => regText r
  | .lit v => hexText v
  | .big v => hexText v

/-- The line of an instruction: mnemonic, a space, operands separated by ", " (30_encoding R99). -/
def disassemble (i : Instr) : String :=
  match i with
  | .sleep => "SLEEP"
  | .ret => "RET"
  | .rfi => "RFI"
  | .xchgb o => "XCHGB " ++ operandText o
  | .xchgw o => "XCHGW " ++ operandText o
  | .getpc o => "GETPC " ++ operandText o
  | .pop o => "POP " ++ operandText o
  | .push o => "PUSH " ++ operandText o
  | .jmp o => "JMP " ++ operandText o
  | .call o => "CALL " ++ operandText o
  | .rjmp o => "RJMP " ++ operandText o
  | .rcall o => "RCALL " ++ operandText o
  | .int o => "INT " ++ operandText o
  | .mov rd o => "MOV " ++ regText rd ++ ", " ++ operandText o
  | .swp rd o => "SWP " ++ regText rd ++ ", " ++ operandText o
  | .not rd o => "NOT " ++ regText rd ++ ", " ++ operandText o
  | .sigxb rd o => "SIGXB " ++ regText rd ++ ", " ++ operandText o
  | .sigxw rd o => "SIGXW " ++ regText rd ++ ", " ++ operandText o
  | .load2 rd o => "LOAD2 " ++ regText rd ++ ", " ++ operandText o
  | .loadw2 rd o => "LOADW2 " ++ regText rd ++ ", " ++ operandText o
  | .loadb2 rd o => "LOADB2 " ++ regText rd ++ ", " ++ operandText o
  | .store2 rd o => "STORE2 " ++ regText rd ++ ", " ++ operandText o
  | .storew2 rd o => "STOREW2 " ++ regText rd ++ ", " ++ operandText o
  | .storeb2 rd o => "STOREB2 " ++ regText rd ++ ", " ++ operandText o
  | .ifeq rd o => "IFEQ " ++ regText rd ++ ", " ++ operandText o
  | .ifneq rd o => "IFNEQ " ++ regText rd ++ ", " ++ operandText o
  | .ifl rd o => "IFL " ++ regText rd ++ ", " ++ operandText o
  | .ifsl rd o => "IFSL " ++ regText rd ++ ", " ++ operandText o
  | .ifle rd o => "IFLE " ++ regText rd ++ ", " ++ operandText o
  | .ifsle rd o => "IFSLE " ++ regText rd ++ ", " ++ operandText o
  | .ifbits rd o => "IFBITS " ++ regText rd ++ ", " ++ operandText o
  | .ifclear rd o => "IFCLEAR " ++ regText rd ++ ", " ++ operandText o
  | .jmp2 rd o => "JMP2 " ++ regText rd ++ ", " ++ operandText o
  | .call2 rd o => "CALL2 " ++ regText rd ++ ", " ++ operandText o
  | .and rd rs o => "AND " ++ regText rd ++ ", " ++ regText rs ++ ", " ++ operandText o
  | .or rd rs o => "OR " ++ regText rd ++ ", " ++ regText rs ++ ", " ++ operandText o
  | .xor rd rs o => "XOR " ++ regText rd ++ ", " ++ regText rs ++ ", " ++ operandText o
  | .bitc rd rs o => "BITC " ++ regText rd ++ ", " ++ regText rs ++ ", " ++ operandText o
  | .add rd rs o => "ADD " ++ regText rd ++ ", " ++ regText rs ++ ", " ++ operandText o
  | .addc rd rs o => "ADDC " ++ regText rd ++ ", " ++ regText rs ++ ", " ++ operandText o
  | .sub rd rs o => "SUB " ++ regText rd ++ ", " ++ regText rs ++ ", " ++ operandText o
  | .subb rd rs o => "SUBB " ++ regText rd ++ ", " ++ regText rs ++ ", " ++ operandText o
  | .rsb rd rs o => "RSB " ++ regText rd ++ ", " ++ regText rs ++ ", " ++ operandText o
  | .rsbb rd rs o => "RSBB " ++ regText rd ++ ", " ++ regText rs ++ ", " ++ operandText o
  | .lls rd rs o => "LLS " ++ regText rd ++ ", " ++ regText rs ++ ", " ++ operandText o
  | .rls rd rs o => "RLS " ++ regText rd ++ ", " ++ regText rs ++ ", " ++ operandText o
  | .ars rd rs o => "ARS " ++ regText rd ++ ", " ++ regText rs ++ ", " ++ operandText o
  | .rotl rd rs o => "ROTL " ++ regText rd ++ ", " ++ regText rs ++ ", " ++ operandText o
  | .rotr rd rs o => "ROTR " ++ regText rd ++ ", " ++ regText rs ++ ", " ++ operandText o
  | .mul rd rs o => "MUL " ++ regText rd ++ ", " ++ regText rs ++ ", " ++ operandText o
  | .smul rd rs o => "SMUL " ++ regText rd ++ ", " ++ regText rs ++ ", " ++ operandText o
  | .div rd rs o => "DIV " ++ regText rd ++ ", " ++ regText rs ++ ", " ++ operandText o
  | .sdiv rd rs o => "SDIV " ++ regText rd ++ ", " ++ regText rs ++ ", " ++ operandText o
  | .load rd rs o => "LOAD " ++ regText rd ++ ", " ++ regText rs ++ ", " ++ operandText o
  | .loadw rd rs o => "LOADW " ++ regText rd ++ ", " ++ regText rs ++ ", " ++ operandText o
  | .loadb rd rs o => "LOADB " ++ regText rd ++ ", " ++ regText rs ++ ", " ++ operandText o
  | .store rd rs o => "STORE " ++ regText rd ++ ", " ++ regText rs ++ ", " ++ operandText o
  | .storew rd rs o => "STOREW " ++ regText rd ++ ", " ++ regText rs ++ ", " ++ operandText o
  | .storeb rd rs o => "STOREB " ++ regText rd ++ ", " ++ regText rs ++ ", " ++ operandText o

/-- The line of the bytes at an address, decoded as the step engine decodes them; the literal word is read only when `big`.
No state changes. An unassigned opcode has no mnemonic and gives no line (30_encoding R101; notes/assumptions/19.md). DESIGN
CHOICE: it reads memory and device windows whether or not a bus is attached, which R101 does not say (notes/assumptions/26.md). -/
def State.disassembleAt (s : State) (a : Word) : Option String :=
  let w := s.readValue .dword a
  let litWord := if (header w).big then s.readValue .dword (a + 4#32) else 0#32
  (decodeWords w litWord).map disassemble

end Sys2Proof.Machine
end

