-- ==== Sys2Proof/Tests/Slice0.lean ====
section
/-!
SUPPORT. Tests: ill-formed terms refused, every constructor's word from the spec's encoding, one step of every instruction on a vector of 95_test_vectors, and a witness for the hypotheses of every statement that has some.
-/

namespace Sys2Proof.Tests

open Sys2Proof.Machine

/-! ## Well-formedness: a literal one past its field is refused, at its ends accepted (30_encoding R93) -/

theorem test_wf_p3 : (Instr.add 0 1 (.lit 0x2000#32)).wf = false ∧ (Instr.storeb 0 1 (.lit 0xFFFFDFFF#32)).wf = false ∧
    (Instr.add 0 1 (.lit 0x1FFF#32)).wf = true ∧ (Instr.storeb 0 1 (.lit 0xFFFFE000#32)).wf = true := by
  decide

theorem test_wf_p2 : (Instr.mov 0 (.lit 0x20000#32)).wf = false ∧ (Instr.call2 0 (.lit 0xFFFDFFFF#32)).wf = false ∧
    (Instr.mov 0 (.lit 0x1FFFF#32)).wf = true ∧ (Instr.call2 0 (.lit 0xFFFE0000#32)).wf = true := by
  decide

theorem test_wf_p1 : (Instr.jmp (.lit 0x200000#32)).wf = false ∧ (Instr.int (.lit 0xFFDFFFFF#32)).wf = false ∧
    (Instr.jmp (.lit 0x1FFFFF#32)).wf = true ∧ (Instr.int (.lit 0xFFE00000#32)).wf = true := by
  decide

theorem test_wf_big : (Instr.jmp (.big 0xFFFFFFFF#32)).wf = true ∧ (Instr.add 0 1 (.big 0x2000#32)).wf = true := by
  decide

/-! ## Decoding -/

/-- Fields written out bit by bit from the formats of 30_encoding R84 to R87. -/
theorem test_decode_fields :
    decodeWords (0x84#8 ++ 0b00#2 ++ 0b0101#4 ++ 0b1010#4 ++ 0b0000000000#10 ++ 0b0111#4) 0#32 = some (.add 5 10 (.reg 7)) ∧
    decodeWords (0x93#8 ++ 0b10#2 ++ 0b1111#4 ++ 0b0001#4 ++ 0b10000000000001#14) 0#32 =
      some (.load 15 1 (.lit 0xFFFFE001#32)) ∧
    decodeWords (0x40#8 ++ 0b10#2 ++ 0b1000#4 ++ 0b100000000000000011#18) 0#32 = some (.mov 8 (.lit 0xFFFE0003#32)) ∧
    decodeWords (0x4B#8 ++ 0b11#2 ++ 0b0011#4 ++ 0b000000000000000000#18) 9#32 = some (.ifeq 3 (.big 9#32)) ∧
    decodeWords (0x24#8 ++ 0b00#2 ++ 0b000000000000000000#18 ++ 0b1110#4) 0#32 = some (.push (.reg 14)) ∧
    decodeWords (0x02#8 ++ 0b000000000000000000000000#24) 0#32 = some .rfi := by
  decide

/-- DEC-1, DEC-2, DEC-15, DEC-16: ignored bits. -/
theorem test_decode_ignored :
    decodeWords 0x00FFFFFF#32 5#32 = some .sleep ∧ decodeWords 0x01C00000#32 5#32 = some .ret ∧
    decodeWords 0x84400000#32 7#32 = some (.add 0 0 (.reg 0)) ∧ decodeWords 0x84003FF2#32 0#32 = some (.add 0 0 (.reg 2)) := by
  decide

/-- DEC-3 to DEC-10: unassigned opcodes, rejected by name; a short read is rejected too. -/
theorem test_decode_rejects :
    decodeWords 0x03000000#32 0#32 = none ∧ decodeWords 0x1F000000#32 0#32 = none ∧ decodeWords 0x2A000000#32 0#32 = none ∧
    decodeWords 0x3F000000#32 0#32 = none ∧ decodeWords 0x55C00000#32 0#32 = none ∧ decodeWords 0x7F800000#32 0#32 = none ∧
    decodeWords 0x99C00000#32 0#32 = none ∧ decodeWords 0xFF000000#32 0#32 = none ∧
    decodeOrReject 0x2A000000#32 0#32 = .error (.unassigned .p1 0x2A#8) := by
  decide

/-- SRC-9: the bytes `2A 00 80 40`. -/
theorem test_decode_bytes :
    (match decodeBytes [0x2A#8, 0x00#8, 0x80#8, 0x40#8, 0x99#8] with
      | .ok r => some r
      | .error _ => none) = some (.mov 0 (.lit 0x2A#32), [0x99#8]) := by
  decide

/-- The table's numbering: the second word is bits 63..32, zero where the row has 32 bits. -/
theorem test_decode_table :
    decodeTableWord 32 0x40C40000 = some (.mov 1 (.big 0#32)) ∧
    decodeTableWord 64 0x1234567840C40000 = some (.mov 1 (.big 0x12345678#32)) := by
  decide

theorem test_decode_sleep : decodeWords 0x00000000#32 0#32 = some (.sleep) ∧ encode (.sleep) = [0x00000000#32] := by
  decide

theorem test_decode_ret : decodeWords 0x01000000#32 0#32 = some (.ret) ∧ encode (.ret) = [0x01000000#32] := by
  decide

theorem test_decode_rfi : decodeWords 0x02000000#32 0#32 = some (.rfi) ∧ encode (.rfi) = [0x02000000#32] := by
  decide

theorem test_decode_xchgb : decodeWords 0x20000001#32 0#32 = some (.xchgb (.reg 1)) ∧ encode (.xchgb (.reg 1)) = [0x20000001#32] := by
  decide

theorem test_decode_xchgw : decodeWords 0x21000001#32 0#32 = some (.xchgw (.reg 1)) ∧ encode (.xchgw (.reg 1)) = [0x21000001#32] := by
  decide

theorem test_decode_getpc : decodeWords 0x22000001#32 0#32 = some (.getpc (.reg 1)) ∧ encode (.getpc (.reg 1)) = [0x22000001#32] := by
  decide

theorem test_decode_pop : decodeWords 0x2300000D#32 0#32 = some (.pop (.reg 13)) ∧ encode (.pop (.reg 13)) = [0x2300000D#32] := by
  decide

theorem test_decode_push : decodeWords 0x24801234#32 0#32 = some (.push (.lit 0x1234#32)) ∧ encode (.push (.lit 0x1234#32)) = [0x24801234#32] := by
  decide

theorem test_decode_jmp : decodeWords 0x25BFFFFC#32 0#32 = some (.jmp (.lit 0xFFFFFFFC#32)) ∧ encode (.jmp (.lit 0xFFFFFFFC#32)) = [0x25BFFFFC#32] := by
  decide

theorem test_decode_call : decodeWords 0x26900100#32 0#32 = some (.call (.lit 0x100100#32)) ∧ encode (.call (.lit 0x100100#32)) = [0x26900100#32] := by
  decide

theorem test_decode_rjmp : decodeWords 0x27C00000#32 0x00000100#32 = some (.rjmp (.big 0x100#32)) ∧ encode (.rjmp (.big 0x100#32)) = [0x27C00000#32, 0x00000100#32] := by
  decide

theorem test_decode_rcall : decodeWords 0x28800020#32 0#32 = some (.rcall (.lit 0x20#32)) ∧ encode (.rcall (.lit 0x20#32)) = [0x28800020#32] := by
  decide

theorem test_decode_int : decodeWords 0x29800105#32 0#32 = some (.int (.lit 0x105#32)) ∧ encode (.int (.lit 0x105#32)) = [0x29800105#32] := by
  decide

theorem test_decode_mov : decodeWords 0x40860000#32 0#32 = some (.mov 1 (.lit 0xFFFE0000#32)) ∧ encode (.mov 1 (.lit 0xFFFE0000#32)) = [0x40860000#32] := by
  decide

theorem test_decode_swp : decodeWords 0x41040002#32 0#32 = some (.swp 1 (.reg 2)) ∧ encode (.swp 1 (.reg 2)) = [0x41040002#32] := by
  decide

theorem test_decode_not : decodeWords 0x42040002#32 0#32 = some (.not 1 (.reg 2)) ∧ encode (.not 1 (.reg 2)) = [0x42040002#32] := by
  decide

theorem test_decode_sigxb : decodeWords 0x43040002#32 0#32 = some (.sigxb 1 (.reg 2)) ∧ encode (.sigxb 1 (.reg 2)) = [0x43040002#32] := by
  decide

theorem test_decode_sigxw : decodeWords 0x44040002#32 0#32 = some (.sigxw 1 (.reg 2)) ∧ encode (.sigxw 1 (.reg 2)) = [0x44040002#32] := by
  decide

theorem test_decode_load2 : decodeWords 0x45040001#32 0#32 = some (.load2 1 (.reg 1)) ∧ encode (.load2 1 (.reg 1)) = [0x45040001#32] := by
  decide

theorem test_decode_loadw2 : decodeWords 0x46843000#32 0#32 = some (.loadw2 1 (.lit 0x3000#32)) ∧ encode (.loadw2 1 (.lit 0x3000#32)) = [0x46843000#32] := by
  decide

theorem test_decode_loadb2 : decodeWords 0x47843003#32 0#32 = some (.loadb2 1 (.lit 0x3003#32)) ∧ encode (.loadb2 1 (.lit 0x3003#32)) = [0x47843003#32] := by
  decide

theorem test_decode_store2 : decodeWords 0x48C40000#32 0x00400000#32 = some (.store2 1 (.big 0x400000#32)) ∧ encode (.store2 1 (.big 0x400000#32)) = [0x48C40000#32, 0x00400000#32] := by
  decide

theorem test_decode_storew2 : decodeWords 0x49843000#32 0#32 = some (.storew2 1 (.lit 0x3000#32)) ∧ encode (.storew2 1 (.lit 0x3000#32)) = [0x49843000#32] := by
  decide

theorem test_decode_storeb2 : decodeWords 0x4A843000#32 0#32 = some (.storeb2 1 (.lit 0x3000#32)) ∧ encode (.storeb2 1 (.lit 0x3000#32)) = [0x4A843000#32] := by
  decide

theorem test_decode_ifeq : decodeWords 0x4B87FFFF#32 0#32 = some (.ifeq 1 (.lit 0xFFFFFFFF#32)) ∧ encode (.ifeq 1 (.lit 0xFFFFFFFF#32)) = [0x4B87FFFF#32] := by
  decide

theorem test_decode_ifneq : decodeWords 0x4C040002#32 0#32 = some (.ifneq 1 (.reg 2)) ∧ encode (.ifneq 1 (.reg 2)) = [0x4C040002#32] := by
  decide

theorem test_decode_ifl : decodeWords 0x4D040002#32 0#32 = some (.ifl 1 (.reg 2)) ∧ encode (.ifl 1 (.reg 2)) = [0x4D040002#32] := by
  decide

theorem test_decode_ifsl : decodeWords 0x4E87FFFC#32 0#32 = some (.ifsl 1 (.lit 0xFFFFFFFC#32)) ∧ encode (.ifsl 1 (.lit 0xFFFFFFFC#32)) = [0x4E87FFFC#32] := by
  decide

theorem test_decode_ifle : decodeWords 0x4F040002#32 0#32 = some (.ifle 1 (.reg 2)) ∧ encode (.ifle 1 (.reg 2)) = [0x4F040002#32] := by
  decide

theorem test_decode_ifsle : decodeWords 0x50040002#32 0#32 = some (.ifsle 1 (.reg 2)) ∧ encode (.ifsle 1 (.reg 2)) = [0x50040002#32] := by
  decide

theorem test_decode_ifbits : decodeWords 0x51040002#32 0#32 = some (.ifbits 1 (.reg 2)) ∧ encode (.ifbits 1 (.reg 2)) = [0x51040002#32] := by
  decide

theorem test_decode_ifclear : decodeWords 0x52040002#32 0#32 = some (.ifclear 1 (.reg 2)) ∧ encode (.ifclear 1 (.reg 2)) = [0x52040002#32] := by
  decide

theorem test_decode_jmp2 : decodeWords 0x53880040#32 0#32 = some (.jmp2 2 (.lit 0x40#32)) ∧ encode (.jmp2 2 (.lit 0x40#32)) = [0x53880040#32] := by
  decide

theorem test_decode_call2 : decodeWords 0x54B40100#32 0#32 = some (.call2 13 (.lit 0x100#32)) ∧ encode (.call2 13 (.lit 0x100#32)) = [0x54B40100#32] := by
  decide

theorem test_decode_and : decodeWords 0x80BFFEFF#32 0#32 = some (.and 15 15 (.lit 0xFFFFFEFF#32)) ∧ encode (.and 15 15 (.lit 0xFFFFFEFF#32)) = [0x80BFFEFF#32] := by
  decide

theorem test_decode_or : decodeWords 0x81BFC100#32 0#32 = some (.or 15 15 (.lit 0x100#32)) ∧ encode (.or 15 15 (.lit 0x100#32)) = [0x81BFC100#32] := by
  decide

theorem test_decode_xor : decodeWords 0x82004001#32 0#32 = some (.xor 0 1 (.reg 1)) ∧ encode (.xor 0 1 (.reg 1)) = [0x82004001#32] := by
  decide

theorem test_decode_bitc : decodeWords 0x83004002#32 0#32 = some (.bitc 0 1 (.reg 2)) ∧ encode (.bitc 0 1 (.reg 2)) = [0x83004002#32] := by
  decide

theorem test_decode_add : decodeWords 0x84C04000#32 0x12345678#32 = some (.add 0 1 (.big 0x12345678#32)) ∧ encode (.add 0 1 (.big 0x12345678#32)) = [0x84C04000#32, 0x12345678#32] := by
  decide

theorem test_decode_addc : decodeWords 0x85004002#32 0#32 = some (.addc 0 1 (.reg 2)) ∧ encode (.addc 0 1 (.reg 2)) = [0x85004002#32] := by
  decide

theorem test_decode_sub : decodeWords 0x86804001#32 0#32 = some (.sub 0 1 (.lit 1#32)) ∧ encode (.sub 0 1 (.lit 1#32)) = [0x86804001#32] := by
  decide

theorem test_decode_subb : decodeWords 0x87004002#32 0#32 = some (.subb 0 1 (.reg 2)) ∧ encode (.subb 0 1 (.reg 2)) = [0x87004002#32] := by
  decide

theorem test_decode_rsb : decodeWords 0x88844000#32 0#32 = some (.rsb 1 1 (.lit 0#32)) ∧ encode (.rsb 1 1 (.lit 0#32)) = [0x88844000#32] := by
  decide

theorem test_decode_rsbb : decodeWords 0x89804005#32 0#32 = some (.rsbb 0 1 (.lit 5#32)) ∧ encode (.rsbb 0 1 (.lit 5#32)) = [0x89804005#32] := by
  decide

theorem test_decode_lls : decodeWords 0x8A80401F#32 0#32 = some (.lls 0 1 (.lit 0x1F#32)) ∧ encode (.lls 0 1 (.lit 0x1F#32)) = [0x8A80401F#32] := by
  decide

theorem test_decode_rls : decodeWords 0x8B804001#32 0#32 = some (.rls 0 1 (.lit 1#32)) ∧ encode (.rls 0 1 (.lit 1#32)) = [0x8B804001#32] := by
  decide

theorem test_decode_ars : decodeWords 0x8C004002#32 0#32 = some (.ars 0 1 (.reg 2)) ∧ encode (.ars 0 1 (.reg 2)) = [0x8C004002#32] := by
  decide

theorem test_decode_rotl : decodeWords 0x8D804010#32 0#32 = some (.rotl 0 1 (.lit 0x10#32)) ∧ encode (.rotl 0 1 (.lit 0x10#32)) = [0x8D804010#32] := by
  decide

theorem test_decode_rotr : decodeWords 0x8E807FFF#32 0#32 = some (.rotr 0 1 (.lit 0xFFFFFFFF#32)) ∧ encode (.rotr 0 1 (.lit 0xFFFFFFFF#32)) = [0x8E807FFF#32] := by
  decide

theorem test_decode_mul : decodeWords 0x8F2C4002#32 0#32 = some (.mul 11 1 (.reg 2)) ∧ encode (.mul 11 1 (.reg 2)) = [0x8F2C4002#32] := by
  decide

theorem test_decode_smul : decodeWords 0x90004001#32 0#32 = some (.smul 0 1 (.reg 1)) ∧ encode (.smul 0 1 (.reg 1)) = [0x90004001#32] := by
  decide

theorem test_decode_div : decodeWords 0x91AC4003#32 0#32 = some (.div 11 1 (.lit 3#32)) ∧ encode (.div 11 1 (.lit 3#32)) = [0x91AC4003#32] := by
  decide

theorem test_decode_sdiv : decodeWords 0x92807FFE#32 0#32 = some (.sdiv 0 1 (.lit 0xFFFFFFFE#32)) ∧ encode (.sdiv 0 1 (.lit 0xFFFFFFFE#32)) = [0x92807FFE#32] := by
  decide

theorem test_decode_load : decodeWords 0x93048003#32 0#32 = some (.load 1 2 (.reg 3)) ∧ encode (.load 1 2 (.reg 3)) = [0x93048003#32] := by
  decide

theorem test_decode_loadw : decodeWords 0x94848001#32 0#32 = some (.loadw 1 2 (.lit 1#32)) ∧ encode (.loadw 1 2 (.lit 1#32)) = [0x94848001#32] := by
  decide

theorem test_decode_loadb : decodeWords 0x9584BFFF#32 0#32 = some (.loadb 1 2 (.lit 0xFFFFFFFF#32)) ∧ encode (.loadb 1 2 (.lit 0xFFFFFFFF#32)) = [0x9584BFFF#32] := by
  decide

theorem test_decode_store : decodeWords 0x96BC8000#32 0#32 = some (.store 15 2 (.lit 0#32)) ∧ encode (.store 15 2 (.lit 0#32)) = [0x96BC8000#32] := by
  decide

theorem test_decode_storew : decodeWords 0x97848002#32 0#32 = some (.storew 1 2 (.lit 2#32)) ∧ encode (.storew 1 2 (.lit 2#32)) = [0x97848002#32] := by
  decide

theorem test_decode_storeb : decodeWords 0x98848001#32 0#32 = some (.storeb 1 2 (.lit 1#32)) ∧ encode (.storeb 1 2 (.lit 1#32)) = [0x98848001#32] := by
  decide

/-! ## One step of every instruction -/

/-- A state for one step: the state after reset with the pc, words of code at the pc, registers and words of memory set. -/
def start (pc : Word) (code : List Word) (regs : List (Reg × Word)) (mem : List (Word × Word)) : State :=
  let s := regs.foldl (fun t r => t.setReg r.1 r.2) (State.reset.setPc pc)
  let s := s.placeBytes pc (code.flatMap bytesOfWord)
  mem.foldl (fun t m => t.placeBytes m.1 (bytesOfWord m.2)) s

/-- What a test looks at in a next state. -/
def seen {α : Type} (r : Result) (f : State → α) : Option α :=
  match r with
  | .next t => some (f t)
  | .fault _ => none
  | .refused _ => none

/-- ALU-1. -/
theorem test_step_and :
    seen (step (start 0x100000#32 [0x80004002#32] [(1, 0xF0F0F0F0#32), (2, 0xFF00FF00#32), (15, 0x3#32)] []))
      (fun t => [(t.reg 0).toNat, (t.reg 15).toNat]) = some [0xF000F000, 0x0] := by
  decide

/-- ALU-7. -/
theorem test_step_or :
    seen (step (start 0x100000#32 [0x81BFC100#32] [(15, 0x3#32)] []))
      (fun t => [(t.reg 15).toNat]) = some [0x100] := by
  decide

/-- ALU-3. -/
theorem test_step_xor :
    seen (step (start 0x100000#32 [0x82004002#32] [(1, 0xFFFF0000#32), (2, 0xF0F0F0F#32)] []))
      (fun t => [(t.reg 0).toNat, (t.reg 1).toNat]) = some [0xF0F00F0F, 0xFFFF0000] := by
  decide

/-- ALU-5. -/
theorem test_step_bitc :
    seen (step (start 0x100000#32 [0x83004002#32] [(1, 0xFFFFFFFF#32), (2, 0xFF00#32)] []))
      (fun t => [(t.reg 0).toNat, (t.reg 15).toNat]) = some [0xFFFF00FF, 0x0] := by
  decide

/-- ALU-10. -/
theorem test_step_add_both :
    seen (step (start 0x100000#32 [0x84004002#32] [(1, 0x80000000#32), (2, 0x80000000#32)] []))
      (fun t => [(t.reg 0).toNat, (t.reg 15).toNat]) = some [0x0, 0x3] := by
  decide

/-- ALU-12. -/
theorem test_step_add_flags :
    seen (step (start 0x100000#32 [0x843C4002#32] [(1, 0xFFFFFFFF#32), (2, 0x2#32)] []))
      (fun t => [(t.reg 15).toNat]) = some [0x1] := by
  decide

/-- ALU-16. -/
theorem test_step_addc :
    seen (step (start 0x100000#32 [0x85004002#32] [(1, 0xFFFFFFFF#32), (2, 0xFFFFFFFF#32), (15, 0x1#32)] []))
      (fun t => [(t.reg 0).toNat, (t.reg 15).toNat]) = some [0xFFFFFFFF, 0x1] := by
  decide

/-- ALU-19. -/
theorem test_step_sub :
    seen (step (start 0x100000#32 [0x86804001#32] [(1, 0x80000000#32)] []))
      (fun t => [(t.reg 0).toNat, (t.reg 15).toNat]) = some [0x7FFFFFFF, 0x2] := by
  decide

/-- ALU-23. -/
theorem test_step_subb :
    seen (step (start 0x100000#32 [0x87004002#32] [(2, 0xFFFFFFFF#32), (15, 0x1#32)] []))
      (fun t => [(t.reg 0).toNat, (t.reg 15).toNat]) = some [0x0, 0x1] := by
  decide

/-- ALU-25. -/
theorem test_step_rsb :
    seen (step (start 0x100000#32 [0x88844000#32] [(1, 0x80000000#32)] []))
      (fun t => [(t.reg 1).toNat, (t.reg 15).toNat]) = some [0x80000000, 0x3] := by
  decide

/-- ALU-26. -/
theorem test_step_rsbb :
    seen (step (start 0x100000#32 [0x89804005#32] [(1, 0x1#32), (15, 0x1#32)] []))
      (fun t => [(t.reg 0).toNat, (t.reg 15).toNat]) = some [0x3, 0x0] := by
  decide

/-- ALU-29. -/
theorem test_step_lls :
    seen (step (start 0x100000#32 [0x8A80401F#32] [(1, 0x3#32)] []))
      (fun t => [(t.reg 0).toNat, (t.reg 15).toNat]) = some [0x80000000, 0x1] := by
  decide

/-- ALU-28. -/
theorem test_step_lls_by_32 :
    seen (step (start 0x100000#32 [0x8A804020#32] [(1, 0x80000001#32), (15, 0x1#32)] []))
      (fun t => [(t.reg 0).toNat, (t.reg 15).toNat]) = some [0x80000001, 0x0] := by
  decide

/-- ALU-31. -/
theorem test_step_rls :
    seen (step (start 0x100000#32 [0x8B80401F#32] [(1, 0x40000000#32)] []))
      (fun t => [(t.reg 0).toNat, (t.reg 15).toNat]) = some [0x0, 0x1] := by
  decide

/-- ALU-33. -/
theorem test_step_ars :
    seen (step (start 0x100000#32 [0x8C004002#32] [(1, 0xFFFFFFFF#32), (2, 0x3F#32)] []))
      (fun t => [(t.reg 0).toNat, (t.reg 15).toNat]) = some [0xFFFFFFFF, 0x1] := by
  decide

/-- ALU-35. -/
theorem test_step_rotl :
    seen (step (start 0x100000#32 [0x8D804010#32] [(1, 0x11223344#32)] []))
      (fun t => [(t.reg 0).toNat, (t.reg 15).toNat]) = some [0x33441122, 0x0] := by
  decide

/-- ALU-37. -/
theorem test_step_rotr :
    seen (step (start 0x100000#32 [0x8E807FFF#32] [(1, 0x1#32)] []))
      (fun t => [(t.reg 0).toNat, (t.reg 15).toNat]) = some [0x2, 0x0] := by
  decide

/-- ALU-39. -/
theorem test_step_mul :
    seen (step (start 0x100000#32 [0x8F004001#32] [(1, 0xFFFFFFFF#32), (15, 0x3#32)] []))
      (fun t => [(t.reg 0).toNat, (t.reg 11).toNat, (t.reg 15).toNat]) = some [0x1, 0xFFFFFFFE, 0x0] := by
  decide

/-- ALU-40. -/
theorem test_step_mul_y :
    seen (step (start 0x100000#32 [0x8F2C4002#32] [(1, 0x10000#32), (2, 0x10000#32)] []))
      (fun t => [(t.reg 11).toNat]) = some [0x1] := by
  decide

/-- ALU-41. -/
theorem test_step_smul :
    seen (step (start 0x100000#32 [0x90804002#32] [(1, 0xFFFFFFFF#32)] []))
      (fun t => [(t.reg 0).toNat, (t.reg 11).toNat]) = some [0xFFFFFFFE, 0xFFFFFFFF] := by
  decide

/-- ALU-45. -/
theorem test_step_div_zero :
    seen (step (start 0x100000#32 [0x91004002#32] [(0, 0x55#32), (1, 0x7#32), (11, 0x66#32), (15, 0x3#32)] []))
      (fun t => [(t.reg 0).toNat, (t.reg 11).toNat, (t.reg 15).toNat]) = some [0x55, 0x66, 0x4] := by
  decide

/-- ALU-48. -/
theorem test_step_div :
    seen (step (start 0x100000#32 [0x91AC4003#32] [(1, 0xA#32)] []))
      (fun t => [(t.reg 11).toNat]) = some [0x1] := by
  decide

/-- ALU-49. -/
theorem test_step_sdiv :
    seen (step (start 0x100000#32 [0x92804002#32] [(1, 0xFFFFFFF9#32)] []))
      (fun t => [(t.reg 0).toNat, (t.reg 11).toNat]) = some [0xFFFFFFFD, 0xFFFFFFFF] := by
  decide

/-- ALU-52. -/
theorem test_step_sdiv_overflow :
    seen (step (start 0x100000#32 [0x92807FFF#32] [(1, 0x80000000#32), (11, 0x9#32)] []))
      (fun t => [(t.reg 0).toNat, (t.reg 11).toNat]) = some [0x80000000, 0x0] := by
  decide

/-- LS-2. -/
theorem test_step_load :
    seen (step (start 0x100000#32 [0x93888004#32] [(2, 0x2000#32)] [(0x2004#32, 0xCAFEBABE#32)]))
      (fun t => [(t.reg 2).toNat]) = some [0xCAFEBABE] := by
  decide

/-- LS-6. -/
theorem test_step_loadw :
    seen (step (start 0x100000#32 [0x94848001#32] [(2, 0x2000#32)] [(0x2000#32, 0x12345678#32)]))
      (fun t => [(t.reg 1).toNat]) = some [0x3456] := by
  decide

/-- LS-7. -/
theorem test_step_loadb :
    seen (step (start 0x100000#32 [0x9584BFFF#32] [(2, 0x2004#32)] [(0x2000#32, 0x80000000#32)]))
      (fun t => [(t.reg 1).toNat]) = some [0x80] := by
  decide

/-- LS-9. -/
theorem test_step_store :
    seen (step (start 0x100000#32 [0x96BC8000#32] [(2, 0x2000#32), (15, 0x109#32)] []))
      (fun t => [(t.reg 15).toNat, (t.readValue .dword 0x2000#32).toNat]) = some [0x109, 0x109] := by
  decide

/-- LS-10. -/
theorem test_step_storew :
    seen (step (start 0x100000#32 [0x97848002#32] [(1, 0xAABBCCDD#32), (2, 0x2000#32)] []))
      (fun t => [(t.readValue .dword 0x2000#32).toNat]) = some [0xCCDD0000] := by
  decide

/-- LS-11. -/
theorem test_step_storeb :
    seen (step (start 0x100000#32 [0x98848001#32] [(1, 0xAABBCCDD#32), (2, 0x2000#32)] []))
      (fun t => [(t.readValue .dword 0x2000#32).toNat]) = some [0xDD00] := by
  decide

/-- P2D-3. -/
theorem test_step_mov_big :
    seen (step (start 0x100000#32 [0x40C40000#32, 0x12345678#32] [] []))
      (fun t => [(t.reg 1).toNat, t.pc.toNat]) = some [0x12345678, 0x100008] := by
  decide

/-- 43 R221. -/
theorem test_step_swp :
    seen (step (start 0x100000#32 [0x41040002#32] [(1, 0x11#32), (2, 0x22#32)] []))
      (fun t => [(t.reg 1).toNat, (t.reg 2).toNat]) = some [0x22, 0x11] := by
  decide

/-- 43 R222. -/
theorem test_step_not :
    seen (step (start 0x100000#32 [0x42040002#32] [(2, 0xF0F0F0F#32)] []))
      (fun t => [(t.reg 1).toNat]) = some [0xF0F0F0F0] := by
  decide

/-- 43 R223. -/
theorem test_step_sigxb :
    seen (step (start 0x100000#32 [0x43040002#32] [(2, 0x180#32)] []))
      (fun t => [(t.reg 1).toNat]) = some [0xFFFFFF80] := by
  decide

/-- 43 R224. -/
theorem test_step_sigxw :
    seen (step (start 0x100000#32 [0x44040002#32] [(2, 0x18000#32)] []))
      (fun t => [(t.reg 1).toNat]) = some [0xFFFF8000] := by
  decide

/-- P2D-16. -/
theorem test_step_load2 :
    seen (step (start 0x100000#32 [0x45040001#32] [(1, 0x3000#32)] [(0x3000#32, 0x99#32)]))
      (fun t => [(t.reg 1).toNat]) = some [0x99] := by
  decide

/-- P2D-17. -/
theorem test_step_loadw2 :
    seen (step (start 0x100000#32 [0x46843000#32] [] [(0x3000#32, 0x201#32)]))
      (fun t => [(t.reg 1).toNat]) = some [0x201] := by
  decide

/-- P2D-18. -/
theorem test_step_loadb2 :
    seen (step (start 0x100000#32 [0x47843003#32] [] [(0x3000#32, 0x4000000#32)]))
      (fun t => [(t.reg 1).toNat]) = some [0x4] := by
  decide

/-- P2D-20. -/
theorem test_step_store2 :
    seen (step (start 0x100000#32 [0x48C40000#32, 0x00400000#32] [(1, 0x7#32)] []))
      (fun t => [(t.readValue .dword 0x400000#32).toNat, t.pc.toNat]) = some [0x7, 0x100008] := by
  decide

/-- P2D-21. -/
theorem test_step_storew2 :
    seen (step (start 0x100000#32 [0x49843000#32] [(1, 0xCAFEBABE#32)] []))
      (fun t => [(t.readValue .dword 0x3000#32).toNat]) = some [0xBABE] := by
  decide

/-- P2D-22. -/
theorem test_step_storeb2 :
    seen (step (start 0x100000#32 [0x4A843000#32] [(1, 0xCAFEBABE#32)] []))
      (fun t => [(t.readValue .dword 0x3000#32).toNat]) = some [0xBE] := by
  decide

/-- IF-2. -/
theorem test_step_ifeq_false :
    seen (step (start 0x100000#32 [0x4B040002#32] [(1, 0x4#32), (2, 0x5#32)] []))
      (fun t => [t.skiping.toNat]) = some [1] := by
  decide

/-- IF-1. -/
theorem test_step_ifeq_true :
    seen (step (start 0x100000#32 [0x4B040002#32] [(1, 0x5#32), (2, 0x5#32)] []))
      (fun t => [t.skiping.toNat]) = some [0] := by
  decide

/-- IF-4. -/
theorem test_step_ifneq :
    seen (step (start 0x100000#32 [0x4C040002#32] [(1, 0x7#32), (2, 0x7#32)] []))
      (fun t => [t.skiping.toNat]) = some [1] := by
  decide

/-- IF-6. -/
theorem test_step_ifl :
    seen (step (start 0x100000#32 [0x4D040002#32] [(1, 0xFFFFFFFF#32), (2, 0x0#32)] []))
      (fun t => [t.skiping.toNat]) = some [1] := by
  decide

/-- IF-8. -/
theorem test_step_ifsl :
    seen (step (start 0x100000#32 [0x4E040002#32] [(1, 0xFFFFFFFF#32), (2, 0x0#32)] []))
      (fun t => [t.skiping.toNat]) = some [0] := by
  decide

/-- IF-10. -/
theorem test_step_ifle :
    seen (step (start 0x100000#32 [0x4F040002#32] [(1, 0x4#32), (2, 0x4#32)] []))
      (fun t => [t.skiping.toNat]) = some [0] := by
  decide

/-- IF-12. -/
theorem test_step_ifsle :
    seen (step (start 0x100000#32 [0x50040002#32] [(1, 0x80000000#32), (2, 0x7FFFFFFF#32)] []))
      (fun t => [t.skiping.toNat]) = some [0] := by
  decide

/-- IF-15. -/
theorem test_step_ifbits :
    seen (step (start 0x100000#32 [0x51040002#32] [(1, 0xC#32), (2, 0x3#32)] []))
      (fun t => [t.skiping.toNat]) = some [1] := by
  decide

/-- IF-17. -/
theorem test_step_ifclear :
    seen (step (start 0x100000#32 [0x52040002#32] [(1, 0xC#32), (2, 0x4#32)] []))
      (fun t => [t.skiping.toNat]) = some [1] := by
  decide

/-- JMP-2. -/
theorem test_step_jmp2 :
    seen (step (start 0x100000#32 [0x53840000#32] [(1, 0x100007#32)] []))
      (fun t => [t.pc.toNat]) = some [0x100004] := by
  decide

/-- JMP-5. -/
theorem test_step_call2 :
    seen (step (start 0x100000#32 [0x54B40100#32] [(13, 0x200000#32)] []))
      (fun t => [t.pc.toNat, (t.reg 13).toNat, (t.readValue .dword 0x001FFFFC#32).toNat]) = some [0x200100, 0x1FFFFC, 0x100004] := by
  decide

/-- P1-1. -/
theorem test_step_xchgb :
    seen (step (start 0x100000#32 [0x20000001#32] [(1, 0x11223344#32)] []))
      (fun t => [(t.reg 1).toNat]) = some [0x11224433] := by
  decide

/-- P1-2. -/
theorem test_step_xchgw :
    seen (step (start 0x100000#32 [0x21000001#32] [(1, 0x11223344#32)] []))
      (fun t => [(t.reg 1).toNat]) = some [0x33441122] := by
  decide

/-- P1-4. -/
theorem test_step_getpc :
    seen (step (start 0x100008#32 [0x22000001#32] [] []))
      (fun t => [(t.reg 1).toNat]) = some [0x10000C] := by
  decide

/-- P1-6. -/
theorem test_step_pop :
    seen (step (start 0x100000#32 [0x23000000#32] [(13, 0x1FFFFC#32)] [(0x1FFFFC#32, 0x1234#32)]))
      (fun t => [(t.reg 0).toNat, (t.reg 13).toNat]) = some [0x1234, 0x200000] := by
  decide

/-- P1-7. -/
theorem test_step_pop_sp :
    seen (step (start 0x100000#32 [0x2300000D#32] [(13, 0x2000#32)] [(0x2000#32, 0x5000#32)]))
      (fun t => [(t.reg 13).toNat]) = some [0x5004] := by
  decide

/-- P1-11. -/
theorem test_step_push_wrap :
    seen (step (start 0x100000#32 [0x24000001#32] [(1, 0xAABBCCDD#32)] []))
      (fun t => [(t.reg 13).toNat, (t.readValue .dword 0xFFFFFFFC#32).toNat]) = some [0xFFFFFFFC, 0xAABBCCDD] := by
  decide

/-- P1-10. -/
theorem test_step_push_sp :
    seen (step (start 0x100000#32 [0x2400000D#32] [(13, 0x200000#32)] []))
      (fun t => [(t.reg 13).toNat, (t.readValue .dword 0x001FFFFC#32).toNat]) = some [0x1FFFFC, 0x200000] := by
  decide

/-- P1-13. -/
theorem test_step_jmp :
    seen (step (start 0x100000#32 [0x25000001#32] [(1, 0x100023#32)] []))
      (fun t => [t.pc.toNat]) = some [0x100020] := by
  decide

/-- P1-15. -/
theorem test_step_call :
    seen (step (start 0x100004#32 [0x26900100#32] [(13, 0x200000#32)] []))
      (fun t => [t.pc.toNat, (t.readValue .dword 0x001FFFFC#32).toNat]) = some [0x100100, 0x100008] := by
  decide

/-- P1-18. -/
theorem test_step_rjmp :
    seen (step (start 0x100000#32 [0x27800006#32] [] []))
      (fun t => [t.pc.toNat]) = some [0x100008] := by
  decide

/-- P1-19. -/
theorem test_step_rjmp_big :
    seen (step (start 0x100000#32 [0x27C00000#32, 0x00000100#32] [] []))
      (fun t => [t.pc.toNat]) = some [0x100108] := by
  decide

/-- P1-20. -/
theorem test_step_rcall :
    seen (step (start 0x100000#32 [0x28800020#32] [(13, 0x200000#32)] []))
      (fun t => [t.pc.toNat, (t.readValue .dword 0x001FFFFC#32).toNat]) = some [0x100024, 0x100004] := by
  decide

/-- P1-21. -/
theorem test_step_int :
    seen (step (start 0x100000#32 [0x29800005#32] [(15, 0x100#32), (14, 0x1000#32), (13, 0x200000#32)] [(0x1014#32, 0x100200#32)]))
      (fun t => [(t.reg 0).toNat, (t.reg 13).toNat, (t.reg 15).toNat, t.pc.toNat, (t.readValue .dword 0x001FFFF8#32).toNat]) = some [0x5, 0x1FFFF8, 0x108, 0x100200, 0x100004] := by
  decide

/-- P1-24. -/
theorem test_step_int_null_vector :
    seen (step (start 0x100000#32 [0x29800006#32] [(15, 0x100#32), (14, 0x1000#32), (13, 0x200000#32)] []))
      (fun t => [(t.reg 15).toNat, (t.reg 13).toNat, t.pc.toNat, t.interrupt.toNat]) = some [0x100, 0x200000, 0x100004, 0] := by
  decide

/-- NP-1. -/
theorem test_step_sleep :
    seen (step (start 0x100000#32 [0x00000000#32] [] []))
      (fun t => [t.sleeping.toNat, t.pc.toNat]) = some [1, 0x100004] := by
  decide

/-- NP-3. -/
theorem test_step_ret :
    seen (step (start 0x100000#32 [0x01000000#32] [(13, 0x1FFFFC#32)] [(0x1FFFFC#32, 0x10000B#32)]))
      (fun t => [t.pc.toNat, (t.reg 13).toNat]) = some [0x100008, 0x200000] := by
  decide

/-- NP-5. -/
theorem test_step_rfi :
    seen (step (start 0x100000#32 [0x02000000#32] [(13, 0x1FFFF8#32), (15, 0x108#32)] [(0x1FFFF8#32, 0x100006#32), (0x1FFFFC#32, 0x7#32)]))
      (fun t => [(t.reg 0).toNat, (t.reg 13).toNat, (t.reg 15).toNat, t.pc.toNat]) = some [0x7, 0x200000, 0x100, 0x100006] := by
  decide

/-- DEC-10. -/
theorem test_step_unassigned :
    seen (step (start 0x100000#32 [0x99C00000#32, 0x11111111#32] [] []))
      (fun t => [t.pc.toNat, (t.reg 15).toNat]) = some [0x100008, 0x0] := by
  decide

/-! ## The sequencer, the snapshot, the text -/

/-- 95 section 3.2: with costs of 1, a wait of 2 cycles goes down by one a tick. -/
theorem test_tick_waits :
    seen (State.tick { State.reset with waitCycles := 2#32 } Config.timing 1) (fun t => (t.waitCycles, t.pc)) =
      some (1#32, 0x00100000#32) := by
  decide

/-- The cycles of SRC-11: COST + 1. -/
theorem test_big_literal_cycles :
    (match (start 0x00100000#32 [0x40C40000#32, 0x12345678#32] [] []).stepCycles ⟨fun _ => 1, 1⟩ with
      | .next r => some r.2
      | .fault _ => none
      | .refused _ => none) = some 2 := by
  decide

/-- SRC-7: the step after `SendInterrupt(5)` wakes the core. -/
theorem test_interrupt_wakes :
    seen (step (State.sendInterrupt { start 0x00100004#32 [] [(15, 0x100#32), (14, 0x1000#32), (13, 0x00200000#32)]
      [(0x1014#32, 0x00100200#32)] with sleeping := true } 5#32).2) (fun t => (t.pc, t.reg 0, t.sleeping, t.reg 15)) =
      some (0x00100200#32, 5#32, false, 0x108#32) := by
  decide

/-- 40_step_engine R127: step mode enters after one instruction. -/
theorem test_step_mode :
    seen (step { start 0x00100000#32 [0x40800005#32] [(15, 0x100#32), (14, 0x1000#32), (13, 0x00200000#32)]
      [(0x1000#32, 0x00100200#32)] with stepMode := true }) (fun t => (t.pc, t.readValue .dword (t.reg 13))) =
      some (0x00100200#32, 0x00100004#32) := by
  decide

/-- SRC-8: a snapshot taken back. -/
theorem test_snapshot :
    ((start 0x00100008#32 [] [(3, 0xDEADBEEF#32), (15, 0x109#32)] []).snapshot.length = 74) ∧
    State.reset.loadSnapshot (start 0x00100008#32 [] [(3, 0xDEADBEEF#32), (15, 0x109#32)] []).snapshot =
      start 0x00100008#32 [] [(3, 0xDEADBEEF#32), (15, 0x109#32)] [] := by
  decide

/-- SRC-9 and 30_encoding R99. -/
theorem test_disassembly :
    (start 0x00100000#32 [0x4080002A#32] [] []).disassembleAt 0x00100000#32 = some "MOV %r0, 0x0000002A" ∧
    (start 0x00100000#32 [0x84C3C000#32, 0x12345678#32] [] []).disassembleAt 0x00100000#32 =
      some "ADD %r0, %r15, 0x12345678" ∧
    (start 0x00100000#32 [0x99000000#32] [] []).disassembleAt 0x00100000#32 = none := by
  decide

/-- An opcode-table word placed where the next step fetches runs as the first instruction. -/
theorem test_withFetchWord :
    seen (step (State.reset.withFetchWord 32 0x4080002A)) (fun t => (t.reg 0, t.pc)) = some (0x2A#32, 0x00100004#32) ∧
    seen (step (State.reset.withFetchWord 32 0x40C40000)) (fun t => (t.reg 1, t.pc)) = some (0#32, 0x00100008#32) := by
  decide

/-- From reset with nothing placed the first word is 0, SLEEP. -/
theorem test_empty_reset_sleeps : seen (step State.reset) (fun t => (t.sleeping, t.pc)) = some (true, 0x00100004#32) := by
  decide

/-! ## Witnesses: a state and operands that meet the hypotheses of each statement together -/

theorem witness_DecodingUndoesEncoding : (Instr.add 1 2 (.lit 0xFFFFE000#32)).wf = true ∧ (Instr.jmp (.lit 0x1FFFFF#32)).wf = true := by
  decide

theorem witness_DecodedInstructionIsWellFormed :
    decodeWords 0x84802000#32 0#32 = some (.add 0 0 (.lit 0xFFFFE000#32)) := by
  decide

theorem witness_IgnoredBits_NP :
    Class.ofWord 0x01000000#32 = .np ∧ 0x01000000#32 &&& 0xFF000000#32 = 0x01FFFFFF#32 &&& 0xFF000000#32 := by
  decide

theorem witness_IgnoredBits_register :
    (0x84004002#32).getLsbD 23 = false ∧ Class.ofWord 0x84004002#32 = .p3 ∧
      0x84004002#32 &&& 0xFFBFC00F#32 = 0x84407FF2#32 &&& 0xFFBFC00F#32 ∧
    (0x41040002#32).getLsbD 23 = false ∧ Class.ofWord 0x41040002#32 = .p2 ∧
      0x41040002#32 &&& 0xFFBC000F#32 = 0x4147FFF2#32 &&& 0xFFBC000F#32 ∧
    (0x20000001#32).getLsbD 23 = false ∧ Class.ofWord 0x20000001#32 = .p1 ∧
      0x20000001#32 &&& 0xFF80000F#32 = 0x207FFFF1#32 &&& 0xFF80000F#32 := by
  decide

theorem witness_IgnoredBits_inline : (0x84802000#32).getLsbD 23 = true ∧ (0x84802000#32).getLsbD 22 = false := by
  decide

theorem witness_IgnoredBits_big :
    (0x84C04000#32).getLsbD 23 = true ∧ (0x84C04000#32).getLsbD 22 = true ∧ Class.ofWord 0x84C04000#32 = .p3 ∧
      0x84C04000#32 &&& 0xFFFFC000#32 = 0x84C07FFF#32 &&& 0xFFFFC000#32 ∧
    Class.ofWord 0x40C40000#32 = .p2 ∧ 0x40C40000#32 &&& 0xFFFC0000#32 = 0x40C7FFFF#32 &&& 0xFFFC0000#32 ∧
    Class.ofWord 0x25C00000#32 = .p1 ∧ 0x25C00000#32 &&& 0xFFC00000#32 = 0x25FFFFFF#32 &&& 0xFFC00000#32 := by
  decide

/-- The ends of each literal range are reached, and the classes are met. -/
theorem witness_InlineLiteralRanges :
    inlineLiteral .p3 0x84802000#32 = 0xFFFFE000#32 ∧ inlineLiteral .p3 0x84801FFF#32 = 0x1FFF#32 ∧
    inlineLiteral .p2 0x40860000#32 = 0xFFFE0000#32 ∧ inlineLiteral .p2 0x4085FFFF#32 = 0x1FFFF#32 ∧
    inlineLiteral .p1 0x25A00000#32 = 0xFFE00000#32 ∧ inlineLiteral .p1 0x259FFFFF#32 = 0x1FFFFF#32 := by
  decide

/-- The ends of each gap of the opcode map. -/
theorem witness_UnassignedOpcodes :
    (decodeWords 0x02000000#32 0#32).isSome ∧ (decodeWords 0x03000000#32 0#32).isNone ∧ (decodeWords 0x1F000000#32 0#32).isNone ∧
    (decodeWords 0x20000000#32 0#32).isSome ∧ (decodeWords 0x29000000#32 0#32).isSome ∧ (decodeWords 0x2A000000#32 0#32).isNone ∧
    (decodeWords 0x3F000000#32 0#32).isNone ∧ (decodeWords 0x40000000#32 0#32).isSome ∧ (decodeWords 0x54000000#32 0#32).isSome ∧
    (decodeWords 0x55000000#32 0#32).isNone ∧ (decodeWords 0x7F000000#32 0#32).isNone ∧ (decodeWords 0x80000000#32 0#32).isSome ∧
    (decodeWords 0x98000000#32 0#32).isSome ∧ (decodeWords 0x99000000#32 0#32).isNone ∧
    (decodeWords 0xFF000000#32 0#32).isNone := by
  decide

/-- Without devices every byte is plain. -/
theorem plain_of_no_device (s : State) (a : Word) (n : Nat) (h : s.devices = []) : s.PlainAt a n := by
  intro k _
  simp [State.isDevice, h]

/-- `MOV %r1, 0x12345678` at the reset vector. -/
def movState : State := start 0x00100000#32 [0x40C40000#32, 0x12345678#32] [] []

theorem movState_ready : movState.Ready := by
  unfold State.Ready; decide

theorem witness_StepRunsTheDecodedInstruction :
    movState.Ready ∧ (header movState.fetchWord.1).big = true ∧
    decodeWords movState.fetchWord.1 (movState.fetchWord.2.fetchLiteral (header movState.fetchWord.1)).1 =
      some (.mov 1 (.big 0x12345678#32)) ∧
    movState.PlainAt movState.pc 4 ∧ movState.PlainAt (above movState.pc 4) 4 :=
  ⟨movState_ready, by decide, by decide, plain_of_no_device _ _ _ rfl, plain_of_no_device _ _ _ rfl⟩

/-- An unassigned opcode with a big literal, at the reset vector. -/
def unassignedState : State := start 0x00100000#32 [0x55C00000#32, 0x11111111#32] [] []

theorem witness_UnassignedOpcodeRunsAsNoOp :
    unassignedState.Ready ∧ decodeWords unassignedState.fetchWord.1
      (unassignedState.fetchWord.2.fetchLiteral (header unassignedState.fetchWord.1)).1 = none :=
  ⟨by unfold State.Ready; decide, by decide⟩

/-- Skipping over `IFEQ %r1, 0x12345678` and then over an ADD with a big literal. -/
def skipState : State :=
  { start 0x00100000#32 [0x4BC40000#32, 0x12345678#32, 0x84C04000#32, 0x12345678#32] [] [] with skiping := true }

theorem witness_SkippedInstructionIsSteppedOver :
    skipState.busAttached = true ∧ skipState.sleeping = false ∧ skipState.skiping = true ∧ skipState.debugAbort = false ∧
    (header (skipState.readValue .dword skipState.pc)).isIFxx = true ∧
    (header (movState.readValue .dword movState.pc)).isIFxx = false := by
  decide

theorem witness_SkipChainStepsOverOneInstruction :
    skipState.busAttached = true ∧ skipState.sleeping = false ∧ skipState.skiping = true ∧ skipState.busProbes = none ∧
    skipState.interrupt = false ∧ (∀ c ∈ [0x4BC40000#32], (header c).isIFxx = true) ∧ (header 0x84C04000#32).isIFxx = false ∧
    skipState.CodeAt skipState.pc ([0x4BC40000#32] ++ [0x84C04000#32]) :=
  ⟨rfl, rfl, rfl, rfl, rfl, fun c hc => by rw [List.mem_singleton.1 hc]; decide, by decide,
    plain_of_no_device _ _ _ rfl, by decide, plain_of_no_device _ _ _ rfl, by decide, trivial⟩

/-- Probes that are halted, that break at the pc, and that do neither. -/
theorem witness_DebugAbortChangesNothing :
    (let s := { State.reset with busProbes := some ⟨true, []⟩ }
     s.busAttached = true ∧ s.sleeping = false ∧ s.busProbes = some ⟨true, []⟩) ∧
    (let s := { State.reset with busProbes := some ⟨false, [0x00100000#32]⟩ }
     s.busProbes = some ⟨false, [0x00100000#32]⟩ ∧ s.pc ∈ [0x00100000#32]) ∧
    (let s := { State.reset with busProbes := some ⟨false, [0x00100004#32]⟩ }
     s.busProbes = some ⟨false, [0x00100004#32]⟩ ∧ s.pc ∉ [0x00100004#32]) ∧
    State.reset.busProbes = none := by
  decide

theorem witness_NoBusNoStep : { State.reset with busAttached := false }.busAttached = false := rfl

theorem witness_NothingFaults : State.reset.busAttached = true := rfl

theorem witness_UnsignedDivision : State.reset.op2 (.lit 0#32) = 0#32 ∧ State.reset.op2 (.lit 3#32) ≠ 0#32 := by
  decide

/-- The overflow pair, and a pair beside it on either side. -/
theorem witness_SignedDivision :
    (let s := start 0x00100000#32 [] [(1, 0x80000000#32)] []
     s.reg 1 = 0x80000000#32 ∧ s.op2 (.lit 0xFFFFFFFF#32) = 0xFFFFFFFF#32 ∧ s.op2 (.lit 0#32) = 0#32 ∧
     s.op2 (.lit 0xFFFFFFFE#32) ≠ 0#32 ∧ ¬(s.reg 1 = 0x80000000#32 ∧ s.op2 (.lit 0xFFFFFFFE#32) = 0xFFFFFFFF#32) ∧
     ¬(s.reg 2 = 0x80000000#32 ∧ s.op2 (.lit 0xFFFFFFFF#32) = 0xFFFFFFFF#32) ∧ (s.reg 1).toInt ≤ 0 ∧ 0 ≤ (s.reg 2).toInt) := by
  decide

/-- Plain bytes and a device's byte, for the clauses of loads, stores, pops and pushes. -/
theorem witness_plain_and_device :
    State.reset.PlainAt (State.reset.reg .sp) 4 ∧ State.reset.PlainAt (above (State.reset.reg .sp) 4) 4 ∧
    { State.reset with devices := [⟨0x200#32, 4⟩] }.isDevice 0x203#32 = true ∧
    { State.reset with devices := [⟨0x200#32, 4⟩] }.isDevice 0x204#32 = false :=
  ⟨plain_of_no_device _ _ _ rfl, plain_of_no_device _ _ _ rfl, by decide, by decide⟩

theorem witness_PopResults : (1 : Reg) ≠ .sp ∧ (13 : Reg) = .sp := by
  decide

/-- A state with EI set and with EI clear. -/
theorem witness_SoftwareInterruptResult :
    (start 0x00100000#32 [] [(15, 0x100#32)] []).flag bitEI = true ∧ State.reset.flag bitEI = false := by
  decide

theorem witness_SendInterruptLatches :
    (start 0x00100000#32 [] [(15, 0x100#32)] []).flag bitEI = true ∧ State.reset.flag bitEI = false := by
  decide

/-- A conditional whose condition holds and one whose does not. -/
theorem witness_ConditionalResults :
    State.reset.reg 1 = State.reset.op2 (.lit 0#32) ∧ ¬(State.reset.reg 1 = State.reset.op2 (.lit 1#32)) := by
  decide

theorem witness_StackRoundTrips :
    State.reset.PlainAt (State.reset.reg .sp - 4#32) 4 ∧
    Instr.call2 1 (.reg 13) ∈ [Instr.call (.reg 13), .rcall (.reg 13), .call2 1 (.reg 13)] :=
  ⟨plain_of_no_device _ _ _ rfl, by decide⟩

/-- A pending interrupt with a handler for message 5 and none for message 6. -/
def pendingState (msg : BitVec 8) : State :=
  { start 0x00100006#32 [] [(0, 7#32), (15, 0x100#32), (14, 0x1000#32), (13, 0x00200000#32)] [(0x1014#32, 0x00100200#32)] with
    interrupt := true, intMsg := msg, sleeping := true }

theorem witness_InterruptIsProcessed :
    (pendingState 5#8).flag bitEI = true ∧ (pendingState 5#8).interrupt = true ∧ (pendingState 5#8).skiping = false ∧
    (pendingState 5#8).readValue .dword ((pendingState 5#8).reg .ia + BitVec.ofNat 32 (4 * (5#8).toNat)) ≠ 0#32 ∧
    (pendingState 6#8).flag bitEI = true ∧ (pendingState 6#8).interrupt = true ∧ (pendingState 6#8).skiping = false ∧
    (pendingState 6#8).readValue .dword ((pendingState 6#8).reg .ia + BitVec.ofNat 32 (4 * (6#8).toNat)) = 0#32 ∧
    ¬(State.reset.flag bitEI = true ∧ State.reset.interrupt = true ∧ State.reset.skiping = false) := by
  decide

theorem witness_InterruptIsProcessed_plain : (pendingState 5#8).PlainAt (pendingState 5#8).vectorAddress 4 :=
  plain_of_no_device _ _ _ rfl

theorem witness_StepModeInterrupts :
    (let s := { start 0x00100000#32 [] [(15, 0x100#32)] [] with stepMode := true }
     s.stepMode = true ∧ s.flag bitEI = true) ∧
    ¬(State.reset.stepMode = true ∧ false = false ∧ State.reset.flag bitEI = true) := by
  decide

theorem witness_ReturnUndoesEntry :
    (pendingState 5#8).flag bitEI = true ∧ (pendingState 5#8).interrupt = true ∧ (pendingState 5#8).skiping = false ∧
    (pendingState 5#8).readValue .dword (pendingState 5#8).vectorAddress ≠ 0#32 ∧
    (pendingState 5#8).PlainAt ((pendingState 5#8).reg .sp - 8#32) 8 :=
  ⟨by decide, by decide, by decide, by decide, plain_of_no_device _ _ _ rfl⟩

theorem witness_SleepingCore :
    (let s := { State.reset with sleeping := true }
     s.busAttached = true ∧ s.sleeping = true ∧ s.Quiescent) :=
  ⟨rfl, rfl, by unfold State.Quiescent; decide⟩

theorem witness_StepKeepsInvariant : movState.Inv ∧ ∃ t, step movState = .next t :=
  ⟨by unfold State.Inv; decide, _, rfl⟩

/-- A run with every ordinary operation. -/
theorem witness_HostRunKeepsInvariant :
    State.reset.Inv ∧
    (∀ op ∈ [HostOp.changeBus [(0x00100000, 0x2A#8), (0x00100002, 0x80#8), (0x00100003, 0x40#8)] [] none true, .step, .tick 2,
      .sendInterrupt 5#32, .getState none, .clock, .reset], op.Ordinary) ∧
    ∃ t, State.reset.hostRun ⟨fun _ => 1, 1⟩
      [HostOp.changeBus [(0x00100000, 0x2A#8), (0x00100002, 0x80#8), (0x00100003, 0x40#8)] [] none true, .step, .tick 2,
        .sendInterrupt 5#32, .getState none, .clock, .reset] = .next t := by
  refine ⟨by unfold State.Inv; decide, ?_, _, rfl⟩
  intro op h
  simp only [List.mem_cons, List.not_mem_nil, or_false] at h
  rcases h with rfl | rfl | rfl | rfl | rfl | rfl | rfl <;> trivial

/-- An instruction that stores nothing, and a next state of it. -/
theorem witness_OnlyNamedRegistersChange :
    writesMemory (.add 0 1 (.reg 2)) = false ∧ ∃ t, exec (.add 0 1 (.reg 2)) State.reset = .next t :=
  ⟨rfl, _, rfl⟩

/-- A destination other than r15, DE set before. -/
theorem witness_FlagsChangeOnlyAsNamed :
    Reg.flags ∉ destinations (.div 0 1 (.reg 2)) ∧ (Instr.div 0 1 (.reg 2)) ≠ .rfi ∧
    (start 0x00100000#32 [] [(15, 0x104#32)] []).flag bitDE = true ∧ bitIF < 31 ∧ 8 ≠ bitIF ∧
    ∃ t, exec (.div 0 1 (.reg 2)) (start 0x00100000#32 [] [(15, 0x104#32)] []) = .next t :=
  ⟨by decide, by decide, by decide, by decide, by decide, _, rfl⟩

/-- One instruction that changes each sequencer item. -/
theorem witness_SequencerChangesOnlyAsNamed :
    (∃ t, exec .sleep State.reset = .next t ∧ t.sleeping ≠ State.reset.sleeping) ∧
    (∃ t, exec (.ifeq 1 (.lit 1#32)) State.reset = .next t ∧ t.skiping ≠ State.reset.skiping) ∧
    (∃ t, exec (.int (.lit 5#32)) (start 0x00100000#32 [] [(15, 0x100#32)] []) = .next t ∧ t.interrupt ≠ false ∧ t.intMsg ≠ 0#8) :=
  ⟨⟨_, rfl, by decide⟩, ⟨_, rfl, by decide⟩, ⟨_, rfl, by decide, by decide⟩⟩

/-- The aborted, the skipped and the executed `RealStep`, the last of an IFxx that starts a skip. -/
theorem witness_CycleCounts :
    (let s := { State.reset with busProbes := some ⟨true, []⟩ }
     s.debugAbort = true ∧ ∃ r, s.realStep ⟨fun _ => 1, 1⟩ = .next r) ∧
    (skipState.debugAbort = false ∧ skipState.skiping = true ∧ ∃ r, skipState.realStep ⟨fun _ => 1, 1⟩ = .next r) ∧
    (let s := { skipState with skiping := false }
     s.debugAbort = false ∧ s.skiping = false ∧ ∃ r, s.realStep ⟨fun _ => 1, 1⟩ = .next r ∧ r.1.skiping = true) :=
  ⟨⟨by decide, _, rfl⟩, ⟨by decide, by decide, _, rfl⟩, ⟨by decide, by decide, _, rfl, by decide⟩⟩

/-- A false IFEQ with a big literal at cost 3 starts a skip. -/
theorem witness_CycleCounts_skip_started :
    (let s := start 0x00100000#32 [0x4BC40000#32, 0x12345678#32] [] []
     ∃ r, s.realStep ⟨fun _ => 3, 1⟩ = .next r ∧ r.1.skiping = true ∧ r.2 = 5) :=
  ⟨_, rfl, by decide, by decide⟩

/-- A MOV of cost 4 + 1 in its first and in its last cycle. -/
theorem witness_InstructionOccupiesItsCycles :
    movState.busAttached = true ∧ movState.sleeping = false ∧ movState.waitCycles = 0#32 ∧
    ∃ t n, movState.realStep ⟨fun _ => 4, 1⟩ = .next (t, n) ∧ t.sleeping = false ∧ n = 5 ∧ n ≤ 2 ^ 32 ∧ 1 ≤ n :=
  ⟨by decide, by decide, by decide, _, _, rfl, by decide, by decide, by decide, by decide⟩

theorem witness_TicksAddUp : ∃ t, movState.tick ⟨fun _ => 4, 1⟩ 3 = .next t := ⟨_, rfl⟩

/-- Across the top of the address space. -/
theorem witness_MemoryIsLittleEndian : State.reset.PlainAt 0xFFFFFFFE#32 2 ∧ State.reset.PlainAt 0xFFFFFFFE#32 4 :=
  ⟨plain_of_no_device _ _ _ rfl, plain_of_no_device _ _ _ rfl⟩

theorem witness_MemoryFormIsCanonical :
    Memory.wf [(4, 1#8), (6, 2#8)] = true ∧ Memory.wf (Memory.write (Memory.write [] 6 2#8) 4 1#8) = true ∧
    ∀ a, Memory.read [(4, 1#8), (6, 2#8)] a = Memory.read (Memory.write (Memory.write [] 6 2#8) 4 1#8) a :=
  ⟨by decide, by decide, fun _ => rfl⟩

theorem witness_SnapshotRoundTrip :
    snapLen ≤ (List.replicate 74 (0#8 : Byte)).length ∧ (List.replicate 73 (0#8 : Byte)).length < snapLen := by
  decide

end Sys2Proof.Tests
end

section
/-! How `Step` and `Tick` answer without a bus (00_scope R13). -/

namespace Sys2Proof.Machine

theorem step_eq_dropCycles (s : State) : step s = dropCycles (s.stepCycles Config.timing) := rfl

@[simp] theorem dropCycles_refused (r : Refusal) : dropCycles (.refused r) = .refused r := rfl

theorem step_noBus {s : State} (h : s.busAttached = false) : step s = .refused .noBus := by
  rw [step_eq_dropCycles, s.stepCycles_noBus Config.timing h, dropCycles_refused]

/-- The bus is looked at before the first cycle, so `Tick(0)` is refused as well. -/
theorem State.tick_noBus (s : State) (t : Timing) (n : Nat) (h : s.busAttached = false) :
    s.tick t n = .refused .noBus := by
  simp [State.tick, h]

/-- Settles O14: `Step` and `Tick` both look for the bus before they do anything else. -/
theorem noBusNoStep : Obligations.NoBusNoStep := by
  intro s c n h
  exact ⟨step_noBus h, s.stepCycles_noBus c h, s.tick_noBus c n h⟩

end Sys2Proof.Machine
end

section
/-! What one executed instruction can do to the state, said once for all 59 (40_step_engine R126): one case per shared operation. -/

namespace Sys2Proof.Machine

/-- The next states of an instruction, one case per operation the instructions share. A case says of `i` what the frame of the
operation needs: which registers `i` names or writes besides, that it writes memory, or which instruction it is. -/
inductive ExecCase (i : Instr) (s : State) : State → Prop
  | nothing : ExecCase i s s
  | write {rd : Reg} (v : Word) (hrd : rd ∈ destinations i) : ExecCase i s (s.setReg rd v)
  | swap {rd rn : Reg} (v w : Word) (hrd : rd ∈ destinations i) (hrn : rn ∈ destinations i) :
      ExecCase i s ((s.setReg rd v).setReg rn w)
  | alu {rd : Reg} (out : AluOut) (hrd : rd ∈ destinations i) (hflags : .flags ∈ implicitWrites i) :
      ExecCase i s (s.writeAlu rd out)
  | product {rd : Reg} (out : YOut) (hrd : rd ∈ destinations i) (hy : .y ∈ implicitWrites i)
      (hflags : .flags ∈ implicitWrites i) : ExecCase i s (s.writeAluY rd out)
  | divideError (hflags : .flags ∈ implicitWrites i) : ExecCase i s s.divideError
  | load {rd : Reg} (w : Width) (ea : Word) (hrd : rd ∈ destinations i) : ExecCase i s (s.loadTo w rd ea)
  | store (w : Width) (rd : Reg) (ea : Word) (hmem : writesMemory i = true) : ExecCase i s (s.storeFrom w rd ea)
  | pop {rn : Reg} (c : BusCall) (v sp : Word) (hrn : rn ∈ destinations i) (hsp : .sp ∈ implicitWrites i) :
      ExecCase i s (((s.logCall c).setReg rn v).setReg .sp sp)
  | push (v : Word) (hsp : .sp ∈ implicitWrites i) (hmem : writesMemory i = true) : ExecCase i s (s.push32 v)
  | jump (t : Word) : ExecCase i s (s.jump t)
  | call (t : Word) (hsp : .sp ∈ implicitWrites i) (hmem : writesMemory i = true) : ExecCase i s (s.call t)
  | ret (hsp : .sp ∈ implicitWrites i) : ExecCase i s (s.pop32.2.jump s.pop32.1)
  | skip (hif : IsConditional i) : ExecCase i s (s.setSkiping true)
  | sleep (hi : i = .sleep) : ExecCase i s (s.setSleeping true)
  | latch (o : Operand) (m : BitVec 8) (hi : i = .int o) : ExecCase i s ((s.setInterrupt true).setIntMsg m)
  | rfi (hi : i = .rfi) : ExecCase i s s.returnFromInterrupt

variable {i : Instr} {s t : State}

/-- The end of a conditional (40_step_engine R130). -/
theorem ExecCase.skipUnless (hif : IsConditional i) (c : Bool) : ExecCase i s (s.skipUnless c) := by
  cases c with
  | true => exact .nothing
  | false => exact .skip hif

/-- INT latches its message, or does nothing with EI clear (45_p1 R289). -/
theorem ExecCase.sendInterrupt (o : Operand) (hi : i = .int o) : ExecCase i s (s.sendInterrupt (s.op2 o)).2 := by
  cases he : s.flag bitEI with
  | true => rw [s.sendInterrupt_enabled _ he]; exact .latch o _ hi
  | false => rw [s.sendInterrupt_disabled _ he]; exact .nothing

/-- A division writes its results, or the divide error (41_p3_alu R177, R178). -/
theorem ExecCase.division {rd : Reg} (o : Operand) (out : YOut) (hrd : rd ∈ destinations i) (hy : .y ∈ implicitWrites i)
    (hflags : .flags ∈ implicitWrites i) :
    ExecCase i s (if s.op2 o = 0#32 then s.divideError else s.writeAluY rd out) := by
  split
  · exact .divideError hflags
  · exact .product out hrd hy hflags

/-- Every instruction answers a next state, and that is one of the cases (60 R330). -/
theorem exec_next (i : Instr) (s : State) : ∃ t, exec i s = .next t ∧ ExecCase i s t := by
  cases i with
  | sleep => exact ⟨_, rfl, .sleep rfl⟩
  | ret => exact ⟨_, rfl, .ret (.head _)⟩
  | rfi => exact ⟨_, rfl, .rfi rfl⟩
  | int o => exact ⟨_, rfl, .sendInterrupt o rfl⟩
  | xchgb o | xchgw o | getpc o =>
    cases o with
    | reg rn => exact ⟨_, rfl, .write _ (.head _)⟩
    | lit _ | big _ => exact ⟨_, rfl, .nothing⟩
  | pop o =>
    cases o with
    | reg rn => exact ⟨_, rfl, .pop _ _ _ (.head _) (.head _)⟩
    | lit _ | big _ => exact ⟨_, rfl, .nothing⟩
  | swp rd o =>
    cases o with
    | reg rn => exact ⟨_, rfl, .swap _ _ (.head _) (.tail _ (.head _))⟩
    | lit _ | big _ => exact ⟨_, rfl, .nothing⟩
  | push o => exact ⟨_, rfl, .push _ (.head _) rfl⟩
  | jmp _ | rjmp _ | jmp2 _ _ => exact ⟨_, rfl, .jump _⟩
  | call _ | rcall _ | call2 _ _ => exact ⟨_, rfl, .call _ (.head _) rfl⟩
  | mov _ _ | not _ _ | sigxb _ _ | sigxw _ _ => exact ⟨_, rfl, .write _ (.head _)⟩
  | load2 _ _ | loadw2 _ _ | loadb2 _ _ | load _ _ _ | loadw _ _ _ | loadb _ _ _ =>
    exact ⟨_, rfl, .load _ _ (.head _)⟩
  | store2 _ _ | storew2 _ _ | storeb2 _ _ | store _ _ _ | storew _ _ _ | storeb _ _ _ =>
    exact ⟨_, rfl, .store _ _ _ rfl⟩
  | ifeq _ _ | ifneq _ _ | ifl _ _ | ifsl _ _ | ifle _ _ | ifsle _ _ | ifbits _ _ | ifclear _ _ =>
    exact ⟨_, rfl, .skipUnless (by trivial) _⟩
  | and _ _ _ | or _ _ _ | xor _ _ _ | bitc _ _ _ | add _ _ _ | addc _ _ _ | sub _ _ _ | subb _ _ _ | rsb _ _ _
  | rsbb _ _ _ | lls _ _ _ | rls _ _ _ | ars _ _ _ | rotl _ _ _ | rotr _ _ _ =>
    exact ⟨_, rfl, .alu _ (.head _) (.head _)⟩
  | mul _ _ _ | smul _ _ _ => exact ⟨_, rfl, .product _ (.head _) (.head _) (.tail _ (.head _))⟩
  | div _ _ o | sdiv _ _ o => exact ⟨_, rfl, .division o _ (.head _) (.head _) (.tail _ (.head _))⟩

theorem exec_cases (h : exec i s = .next t) : ExecCase i s t := by
  obtain ⟨u, hu, hc⟩ := exec_next i s
  obtain rfl : u = t := by simpa [hu] using h
  exact hc

end Sys2Proof.Machine
end

section
/-! What every instruction leaves unchanged, read off its case: registers, memory, platform, FLAGS, sequencer (10_state R21 to R25,
R32). -/

namespace Sys2Proof.Machine

variable {i : Instr} {s t : State}

/-! ## The frame of each case -/

theorem ExecCase.keepsRegs (h : ExecCase i s t) : KeepsRegsBut (destinations i ++ implicitWrites i) s t := by
  intro q hq
  have hd : ∀ r ∈ destinations i, q ≠ r := fun r hr e => hq (List.mem_append_left _ (e ▸ hr))
  have hi : ∀ r ∈ implicitWrites i, q ≠ r := fun r hr e => hq (List.mem_append_right _ (e ▸ hr))
  cases h with
  | nothing | jump | skip | sleep | latch => rfl
  | write _ hrd | load _ _ hrd => simp [hd _ hrd]
  | swap _ _ hrd hrn => simp [hd _ hrd, hd _ hrn]
  | alu out hrd hflags =>
    obtain ⟨-, -, hkeep, -⟩ := s.writeAlu_effect _ out
    exact hkeep q (by simp [hd _ hrd, hi _ hflags])
  | product out hrd hy hflags =>
    obtain ⟨-, -, -, hkeep, -⟩ := s.writeAluY_effect _ out
    exact hkeep q (by simp [hd _ hrd, hi _ hy, hi _ hflags])
  | divideError hflags =>
    obtain ⟨-, hkeep, -⟩ := s.divideError_effect
    exact hkeep q (by simp [hi _ hflags])
  | store w rd ea =>
    obtain ⟨-, -, hkeep, -⟩ := s.storeFrom_effect w rd ea
    exact hkeep q (by simp)
  | pop _ _ _ hrn hsp => simp [hd _ hrn, hi _ hsp]
  | push _ hsp => simp [hi _ hsp]
  | call a hsp =>
    obtain ⟨-, hkeep, -⟩ := s.call_effect a
    exact hkeep q (by simp [hi _ hsp])
  | ret hsp => simp [State.jump_eq, hi _ hsp]
  | rfi e =>
    subst e
    have hne : q ≠ .sp ∧ q ≠ .r0 ∧ q ≠ .flags := by simpa [destinations, implicitWrites] using hq
    obtain ⟨hsp, hr0, hflags⟩ := hne
    simp [State.returnFromInterrupt, hsp, hr0, hflags]

/-- Memory is the same listing, unless the instruction is one of those that write memory; these keep the canonical form. -/
theorem ExecCase.mem_eq_or_writes (h : ExecCase i s t) :
    t.mem = s.mem ∨ (writesMemory i = true ∧ (s.mem.wf = true → t.mem.wf = true)) := by
  cases h with
  | nothing | write | swap | alu | product | divideError | load | pop | jump | ret | skip | sleep | latch | rfi =>
    exact .inl rfl
  | store _ _ _ hmem => exact .inr ⟨hmem, s.busWrite_wf _ _ _⟩
  | push _ _ hmem | call _ _ hmem => exact .inr ⟨hmem, s.push32_wf _⟩

theorem ExecCase.mem_wf (h : ExecCase i s t) (hs : s.mem.wf = true) : t.mem.wf = true := by
  rcases h.mem_eq_or_writes with he | ⟨-, hwf⟩
  · rw [he]; exact hs
  · exact hwf hs

theorem ExecCase.keepsMemory (h : ExecCase i s t) (hi : writesMemory i = false) : KeepsMemory s t := by
  rcases h.mem_eq_or_writes with he | ⟨hmem, -⟩
  · intro x
    simp only [State.peek, he]
  · simp [hi] at hmem

theorem ExecCase.keepsPlatform (h : ExecCase i s t) : KeepsPlatform s t := by
  cases h with
  | nothing | write | swap | alu | product | divideError | load | pop | jump | ret | skip | sleep | latch | rfi =>
    exact ⟨rfl, rfl, rfl, rfl⟩
  | store w rd ea =>
    obtain ⟨-, -, -, -, -, hp⟩ := s.storeFrom_effect w rd ea
    exact hp
  | push v =>
    obtain ⟨-, -, -, -, -, -, hp⟩ := s.push32_effect v
    exact hp
  | call a =>
    obtain ⟨-, -, -, -, -, -, hp⟩ := s.call_effect a
    exact hp

/-- The four cases that write a sequencer item; every other one keeps all six (10_state R32). -/
theorem ExecCase.keepsSequencer_or (h : ExecCase i s t) :
    KeepsSequencer s t ∨ (IsConditional i ∧ t = s.setSkiping true) ∨ (i = .sleep ∧ t = s.setSleeping true) ∨
    (∃ o m, i = .int o ∧ t = (s.setInterrupt true).setIntMsg m) ∨ (i = .rfi ∧ t = s.returnFromInterrupt) := by
  cases h with
  | nothing | write | swap | alu | product | divideError | load | pop | jump | ret =>
    exact .inl ⟨rfl, rfl, rfl, rfl, rfl, rfl⟩
  | store w rd ea =>
    obtain ⟨-, -, -, -, hseq, -⟩ := s.storeFrom_effect w rd ea
    exact .inl hseq
  | push v =>
    obtain ⟨-, -, -, -, -, hseq, -⟩ := s.push32_effect v
    exact .inl hseq
  | call a =>
    obtain ⟨-, -, -, -, -, hseq, -⟩ := s.call_effect a
    exact .inl hseq
  | skip hif => exact .inr (.inl ⟨hif, rfl⟩)
  | sleep hi => exact .inr (.inr (.inl ⟨hi, rfl⟩))
  | latch o m hi => exact .inr (.inr (.inr (.inl ⟨o, m, hi, rfl⟩)))
  | rfi hi => exact .inr (.inr (.inr (.inr ⟨hi, rfl⟩)))

/-! ## FLAGS -/

theorem flag_eq_of_reg_eq (h : t.reg .flags = s.reg .flags) (k : Nat) : t.flag k = s.flag k := by
  simp only [State.flag, h]

/-- IF is the only FLAGS bit that RFI writes (46_np R312). -/
theorem State.returnFromInterrupt_flag (s : State) (k : Nat) :
    s.returnFromInterrupt.flag k = if k = bitIF then false else s.flag k := by
  simp [State.returnFromInterrupt]

/-- From DE up, an instruction that does not name r15 keeps every FLAGS bit, but that a division by zero sets DE and RFI writes IF
(10_state R24, R25). -/
theorem ExecCase.flag_eq_or (h : ExecCase i s t) (hd : Reg.flags ∉ destinations i) {k : Nat} (hk : bitDE ≤ k) :
    t.flag k = s.flag k ∨ (k = bitDE ∧ t.flag k = true) ∨ (k = bitIF ∧ i = .rfi) := by
  have hne : ∀ {r}, r ∈ destinations i → r ≠ .flags := fun hr e => hd (e ▸ hr)
  have hcf : k ≠ bitCF := by rintro rfl; exact absurd hk (by decide)
  have hof : k ≠ bitOF := by rintro rfl; exact absurd hk (by decide)
  cases h with
  | nothing | jump | skip | sleep | latch => exact .inl rfl
  | ret => exact .inl (by simp [State.jump_eq])
  | write _ hrd | load _ _ hrd => exact .inl (by simp [hne hrd])
  | swap _ _ hrd hrn => exact .inl (by simp [hne hrd, hne hrn])
  | alu out hrd =>
    obtain ⟨-, hflag, -⟩ := s.writeAlu_effect _ out
    exact .inl (by rw [hflag k, if_neg hcf, if_neg hof, if_neg (hne hrd)]; rfl)
  | product out hrd =>
    obtain ⟨-, -, hflag, -⟩ := s.writeAluY_effect _ out
    exact .inl (by rw [hflag k, if_neg hcf, if_neg hof, if_neg (hne hrd)]; rfl)
  | divideError =>
    obtain ⟨hflag, -⟩ := s.divideError_effect
    rw [hflag k, if_neg hcf, if_neg hof]
    by_cases hde : k = bitDE
    · exact .inr (.inl ⟨hde, if_pos hde⟩)
    · exact .inl (if_neg hde)
  | store w rd ea =>
    obtain ⟨-, -, hkeep, -⟩ := s.storeFrom_effect w rd ea
    exact .inl (flag_eq_of_reg_eq (hkeep _ (by simp)) k)
  | pop _ _ _ hrn => exact .inl (by simp [hne hrn])
  | push v => exact .inl (s.push32_flag v k)
  | call a =>
    obtain ⟨-, hkeep, -⟩ := s.call_effect a
    exact .inl (flag_eq_of_reg_eq (hkeep _ (by simp)) k)
  | rfi hi =>
    by_cases hif : k = bitIF
    · exact .inr (.inr ⟨hif, hi⟩)
    · exact .inl (by rw [s.returnFromInterrupt_flag, if_neg hif])

/-- Interrupt entry writes no FLAGS bit but IF (60 R336). -/
theorem State.enterInterrupt_flag (s : State) (vec : Word) (k : Nat) :
    (s.enterInterrupt vec).flag k = if k = bitIF then true else s.flag k := by
  simp [State.enterInterrupt_eq]

theorem State.processInterrupt_flag (s : State) {k : Nat} (hk : k ≠ bitIF) : s.processInterrupt.flag k = s.flag k := by
  rcases s.processInterrupt_cases with ⟨-, e⟩ | ⟨-, -, e⟩ | ⟨-, -, e⟩
  · rw [e]
  · rw [e]; rfl
  · rw [e, State.enterInterrupt_flag, if_neg hk, State.logCall_flag]

/-! ## The obligations -/

/-- Settles O47: the frames of registers, memory and platform of the instruction's case. -/
theorem onlyNamedRegistersChange : Obligations.OnlyNamedRegistersChange := by
  intro i s t h
  have hc := exec_cases h
  exact ⟨hc.keepsRegs, hc.keepsMemory, hc.keepsPlatform⟩

/-- Settles O48: above IF neither exception of `flag_eq_or` applies, at IF only RFI's, at DE only the one that sets it. -/
theorem flagsChangeOnlyAsNamed : Obligations.FlagsChangeOnlyAsNamed := by
  refine ⟨fun i s t hd h => ⟨fun k hk => ?_, fun hi => ?_, fun hde => ?_⟩, fun s k hk => s.processInterrupt_flag hk⟩
  · have hde : bitDE < k := lt_trans (by decide) hk
    rcases (exec_cases h).flag_eq_or hd hde.le with he | ⟨hk', -⟩ | ⟨hk', -⟩
    · exact he
    · exact absurd hk' hde.ne'
    · exact absurd hk' hk.ne'
  · rcases (exec_cases h).flag_eq_or hd (k := bitIF) (by decide) with he | ⟨hk', -⟩ | ⟨-, hi'⟩
    · exact he
    · exact absurd hk' (by decide)
    · exact absurd hi' hi
  · rcases (exec_cases h).flag_eq_or hd (k := bitDE) (by decide) with he | ⟨-, ht⟩ | ⟨hk', -⟩
    · rw [he, hde]
    · exact ht
    · exact absurd hk' (by decide)

/-- Settles O49: each item that differs singles out one of the four cases that write the sequencer. -/
theorem sequencerChangesOnlyAsNamed : Obligations.SequencerChangesOnlyAsNamed := by
  intro i s t h
  rcases (exec_cases h).keepsSequencer_or with
    ⟨hwait, hmsg, hint, hmode, hskip, hsleep⟩ | ⟨hif, rfl⟩ | ⟨rfl, rfl⟩ | ⟨o, m, rfl, rfl⟩ | ⟨rfl, rfl⟩
  · simp [hwait, hmsg, hint, hmode, hskip, hsleep]
  · simp [hif]
  · simp
  · simp
  · simp [State.returnFromInterrupt]

end Sys2Proof.Machine
end

section
/-! The invariant (10_state R33): canonical memory, never both asleep and skipping. Reset has it; interrupt processing, `Step`, `Tick`
and every ordinary host operation keep it. -/

namespace Sys2Proof.Machine

variable {s t : State}

/-! ## Reset -/

/-- Settles O43. -/
theorem resetValues : Obligations.ResetValues := by
  refine ⟨fun s => ⟨fun r => ?_, rfl, rfl, rfl, rfl, rfl, rfl, rfl, ⟨fun _ => rfl, rfl⟩, ⟨rfl, rfl, rfl, rfl⟩⟩, rfl⟩
  exact Vector.getElem_replicate r.isLt

/-- Settles O44: memory lists nothing, and the core is awake. -/
theorem resetHasInvariant : Obligations.ResetHasInvariant :=
  ⟨Memory.wf_reset, fun h => Bool.false_ne_true h.1⟩

/-! ## The parts of a step -/

theorem State.Inv.of_awake (hwf : s.mem.wf = true) (ha : s.sleeping = false) : s.Inv :=
  ⟨hwf, fun h => by simp [ha] at h⟩

/-- A pending interrupt is taken or dropped without a skip begun or sleep entered (60 R336, R337). -/
theorem State.Inv.processInterrupt (h : s.Inv) : s.processInterrupt.Inv := by
  obtain ⟨hwf, hss⟩ := h
  refine ⟨s.processInterrupt_wf hwf, fun ⟨hsleep, hskip⟩ => hss ⟨?_, by simpa using hskip⟩⟩
  by_contra ha
  simp [s.processInterrupt_sleeping (by simpa using ha)] at hsleep

/-- Latching an interrupt touches neither memory nor the two bits (60 R332). -/
theorem State.Inv.sendInterrupt (h : s.Inv) (msg : Word) : (s.sendInterrupt msg).2.Inv := by
  cases he : s.flag bitEI with
  | true => rw [s.sendInterrupt_enabled msg he]; exact h
  | false => rw [s.sendInterrupt_disabled msg he]; exact h

theorem State.Inv.endOfStep (h : s.Inv) (if0 : Bool) : (s.endOfStep if0).Inv := by
  apply State.Inv.processInterrupt
  rcases s.stepModeInterrupt_cases if0 with e | ⟨-, -, -, e⟩ <;> rw [e] <;> exact h

theorem State.hostReset_inv (h : s.Inv) : s.hostReset.Inv :=
  .of_awake h.1 rfl

/-- Only SLEEP enters sleep and only an IFxx begins a skip, and no instruction is both. -/
theorem exec_inv {i : Instr} (h : exec i s = .next t) (hwf : s.mem.wf = true) (ha : s.sleeping = false)
    (hk : s.skiping = false) : t.Inv := by
  obtain ⟨-, -, hsleep, hskip, -, -⟩ := sequencerChangesOnlyAsNamed i s t h
  refine ⟨(exec_cases h).mem_wf hwf, fun ⟨hts, htk⟩ => ?_⟩
  obtain rfl : i = .sleep := hsleep (by simp [hts, ha])
  exact hskip (by simp [htk, hk])

theorem execDecoded_inv {i : Option Instr} (h : execDecoded i s = .next t) (hwf : s.mem.wf = true)
    (ha : s.sleeping = false) (hk : s.skiping = false) : t.Inv := by
  cases i with
  | some i => exact exec_inv h hwf ha hk
  | none =>
    obtain rfl : s = t := by simpa [execDecoded] using h
    exact .of_awake hwf ha

/-! ## `RealStep` and `Step` -/

/-- What an executed word answers is the end of step of what its instruction answers (40_step_engine R123). -/
theorem State.executeWord_next {c : Timing} {w : Word} {n : Nat} (h : s.executeWord c w = .next (t, n)) :
    ∃ i u if0, execDecoded i (s.fetchLiteral (header w)).2 = .next u ∧ t = u.endOfStep if0 := by
  simp only [State.executeWord] at h
  split at h
  · rename_i u hu
    simp only [Host.Outcome.next.injEq, Prod.mk.injEq] at h
    exact ⟨_, u, _, hu, h.1.symm⟩
  · cases h
  · cases h

/-- The literal fetch writes the pc and the log only (40_step_engine R125). -/
theorem State.fetchLiteral_frame (s : State) (h : Header) :
    (s.fetchLiteral h).2.mem = s.mem ∧ (s.fetchLiteral h).2.sleeping = s.sleeping ∧
      (s.fetchLiteral h).2.skiping = s.skiping := by
  cases hb : h.big with
  | true => rw [s.fetchLiteral_big h hb]; exact ⟨rfl, rfl, rfl⟩
  | false => rw [s.fetchLiteral_short h hb]; exact ⟨rfl, rfl, rfl⟩

theorem State.executeWord_inv {c : Timing} {w : Word} {n : Nat} (h : s.executeWord c w = .next (t, n))
    (hwf : s.mem.wf = true) (ha : s.sleeping = false) (hk : s.skiping = false) : t.Inv := by
  obtain ⟨i, u, if0, hu, rfl⟩ := State.executeWord_next h
  obtain ⟨hmem, hsleep, hskip⟩ := s.fetchLiteral_frame (header w)
  have hui : u.Inv := execDecoded_inv hu (by rw [hmem, hwf]) (by rw [hsleep, ha]) (by rw [hskip, hk])
  exact hui.endOfStep if0

/-- An awake core keeps the invariant in each of the three ways `RealStep` can go (40_step_engine R121). -/
theorem State.realStep_inv {c : Timing} {n : Nat} (h : s.realStep c = .next (t, n)) (hwf : s.mem.wf = true)
    (ha : s.sleeping = false) : t.Inv := by
  cases hd : s.debugAbort with
  | true =>
    rw [s.realStep_abort c hd] at h
    cases h
    exact .of_awake hwf ha
  | false =>
    cases hk : s.skiping with
    | true =>
      rw [s.realStep_skip c hd hk] at h
      cases h
      rw [State.skipOver_eq]
      exact State.Inv.processInterrupt (.of_awake hwf ha)
    | false =>
      rw [s.realStep_execute c hd hk] at h
      exact State.executeWord_inv h hwf ha hk

theorem State.stepCycles_inv {c : Timing} {n : Nat} (h : s.stepCycles c = .next (t, n)) (hs : s.Inv) : t.Inv := by
  cases hb : s.busAttached with
  | false => simp [s.stepCycles_noBus c hb] at h
  | true =>
    cases ha : s.sleeping with
    | true =>
      rw [s.stepCycles_asleep c hb ha] at h
      cases h
      exact hs.processInterrupt
    | false =>
      rw [s.stepCycles_awake c hb ha] at h
      exact State.realStep_inv h hs.1 ha

theorem dropCycles_next {r : Host.Outcome (State × Nat) Fault Refusal} (h : dropCycles r = .next t) :
    ∃ n, r = .next (t, n) := by
  cases r with
  | next p => exact ⟨p.2, by simpa [dropCycles, Prod.ext_iff] using h⟩
  | fault r => cases r
  | refused r => cases h

/-- Settles O45: `Step` is `stepCycles` without its count. -/
theorem stepKeepsInvariant : Obligations.StepKeepsInvariant := by
  intro s t hs h
  obtain ⟨n, hn⟩ := dropCycles_next h
  exact State.stepCycles_inv hn hs

/-! ## `Tick` and the host -/

theorem State.tickCycle_inv {c : Timing} (h : s.tickCycle c = .next t) (hs : s.Inv) : t.Inv := by
  unfold State.tickCycle at h
  split at h
  · cases h
    exact hs.processInterrupt
  · rename_i ha
    split at h
    · split at h
      · rename_i u n hu
        have hui : u.Inv := State.realStep_inv hu hs.1 (by simpa using ha)
        cases h
        split <;> exact hui
      · cases h
      · cases h
    · cases h
      exact hs

theorem State.tickCycles_inv {c : Timing} {n : Nat} (h : s.tickCycles c n = .next t) (hs : s.Inv) : t.Inv := by
  induction n generalizing s with
  | zero => cases h; exact hs
  | succ n ih =>
    simp only [State.tickCycles] at h
    split at h
    · rename_i u hu
      exact ih h (State.tickCycle_inv hu hs)
    · cases h
    · cases h

theorem State.tick_inv {c : Timing} {n : Nat} (h : s.tick c n = .next t) (hs : s.Inv) : t.Inv := by
  cases hb : s.busAttached with
  | false => simp [s.tick_noBus c n hb] at h
  | true => exact State.tickCycles_inv (by simpa [State.tick, hb] using h) hs

theorem State.hostOp_inv {c : Timing} {op : HostOp} (h : s.hostOp c op = .next t) (ho : op.Ordinary) (hs : s.Inv) :
    t.Inv := by
  cases op with
  | reset => cases h; exact State.hostReset_inv hs
  | step =>
    obtain ⟨n, hn⟩ := dropCycles_next h
    exact State.stepCycles_inv hn hs
  | tick n => exact State.tick_inv h hs
  | sendInterrupt msg => cases h; exact hs.sendInterrupt msg
  | getState _ => cases h; exact hs
  | setState _ => exact ho.elim
  | clock => cases h; exact hs
  | changeBus mem devices probes attached => cases h; exact ⟨ho, hs.2⟩

/-- Settles O46, by induction on the operations of the run. -/
theorem hostRunKeepsInvariant : Obligations.HostRunKeepsInvariant := by
  intro c ops
  induction ops with
  | nil => intro s t hs _ h; cases h; exact hs
  | cons op ops ih =>
    intro s t hs ho h
    simp only [State.hostRun] at h
    obtain ⟨hop, hops⟩ := List.forall_mem_cons.1 ho
    split at h
    · rename_i u hu
      exact ih u t (State.hostOp_inv hu hop hs) hops h
    · cases h
    · cases h

end Sys2Proof.Machine
end

section
/-! Little-endian plain memory (20_memory R53, R55): the bytes of a bus write and of the reads that meet them, each at an offset from
the address of the write, so that an address past the top of memory needs no case of its own. -/

namespace Sys2Proof.Machine

/-! ## Offsets modulo 2^32 -/

theorem above_zero (a : Word) : above a 0 = a := BitVec.add_zero a

theorem above_above (a : Word) (j k : Nat) : above (above a j) k = above a (j + k) := by
  rw [above, above, above, BitVec.add_assoc, ← BitVec.ofNat_add]

theorem above_sub_toNat (a : Word) {k : Nat} (hk : k < 2 ^ 32) : (above a k - a).toNat = k := by
  rw [above, BitVec.add_comm, BitVec.add_sub_cancel, BitVec.toNat_ofNat, Nat.mod_eq_of_lt hk]

/-! ## Bytes of a value -/

theorem byteOf_append_byteOf (v : Word) (k : Nat) : byteOf v (k + 1) ++ byteOf v k = v.extractLsb' (8 * k) 16 :=
  BitVec.extractLsb'_append_extractLsb'_eq_extractLsb' rfl

variable {s : State} {a : Word} {n : Nat}

/-! ## Plain addresses -/

theorem State.PlainAt.mono (h : s.PlainAt a n) {m : Nat} (hm : m ≤ n) : s.PlainAt a m :=
  fun k hk => h k (Nat.lt_of_lt_of_le hk hm)

theorem State.PlainAt.shift (h : s.PlainAt a n) {j m : Nat} (hj : j + m ≤ n) : s.PlainAt (above a j) m := by
  intro k hk
  rw [above_above]
  exact h _ (by omega)

theorem State.PlainAt.busWrite (h : s.PlainAt a n) (w : Width) (b v : Word) : (s.busWrite w b v).PlainAt a n := by
  intro k hk
  rw [State.busWrite_isDevice]
  exact h k hk

/-! ## What a write leaves in memory -/

theorem State.PlainAt.busWrite_peek_of_lt {w : Width} (h : s.PlainAt a w.bytes) (v : Word) {k : Nat} (hk : k < w.bytes) :
    (s.busWrite w a v).peek (above a k) = byteOf v k := by
  have hlt : k < 2 ^ 32 := by cases w <;> simp only [Width.bytes] at hk <;> omega
  rw [State.busWrite_peek, above_sub_toNat a hlt, if_pos ⟨hk, h k hk⟩]

theorem State.busWrite_peek_of_le (s : State) (w : Width) (a v : Word) {k : Nat} (hk : w.bytes ≤ k) (hlt : k < 2 ^ 32) :
    (s.busWrite w a v).peek (above a k) = s.peek (above a k) := by
  rw [State.busWrite_peek, above_sub_toNat a hlt, if_neg fun h => Nat.not_lt.2 hk h.1]

/-! ## What a read answers at an offset -/

theorem State.PlainAt.readValue_byte (h : s.PlainAt a n) {j : Nat} (hj : j < n) :
    s.readValue .byte (above a j) = (s.peek (above a j)).setWidth 32 :=
  s.readValue_byte_plain _ (h j hj)

theorem State.PlainAt.readValue_word (h : s.PlainAt a n) {j : Nat} (hj : j + 2 ≤ n) :
    s.readValue .word (above a j) =
      (s.peek (above a (j + 1)) ++ s.peek (above a j)).setWidth 32 := by
  rw [s.readValue_word_plain _ (h.shift hj), ← above_above]

theorem State.PlainAt.readValue_dword (h : s.PlainAt a 4) :
    s.readValue .dword a =
      wordOfBytes (s.peek (above a 0)) (s.peek (above a 1)) (s.peek (above a 2)) (s.peek (above a 3)) := by
  rw [s.readValue_dword_plain a h, above_zero]

/-! ## Reads that meet a write -/

/-- A byte read inside a write. -/
theorem State.PlainAt.readValue_byte_busWrite {w : Width} (h : s.PlainAt a w.bytes) (v : Word) {k : Nat} (hk : k < w.bytes) :
    (s.busWrite w a v).readValue .byte (above a k) = (byteOf v k).setWidth 32 := by
  rw [(h.busWrite w a v).readValue_byte hk, h.busWrite_peek_of_lt v hk]

/-- A half word read wholly inside a write. -/
theorem State.PlainAt.readValue_word_busWrite {w : Width} (h : s.PlainAt a w.bytes) (v : Word) {j : Nat}
    (hj : j + 2 ≤ w.bytes) :
    (s.busWrite w a v).readValue .word (above a j) = (v.extractLsb' (8 * j) 16).setWidth 32 := by
  rw [(h.busWrite w a v).readValue_word hj, h.busWrite_peek_of_lt v (by omega), h.busWrite_peek_of_lt v (by omega),
    byteOf_append_byteOf]

/-- A half word read that begins at the last byte of a half-word write. -/
theorem State.PlainAt.readValue_word_above_busWrite_word (h : s.PlainAt a 4) (v : Word) :
    (s.busWrite .word a v).readValue .word (above a 1) =
      (s.peek (above a 2) ++ byteOf v 1).setWidth 32 := by
  have hw : s.PlainAt a Width.word.bytes := h.mono (by decide)
  rw [(h.busWrite .word a v).readValue_word (j := 1) (by decide), s.busWrite_peek_of_le .word a v (by decide) (by decide),
    hw.busWrite_peek_of_lt v (by decide)]

/-- A word read over a half-word write: the half word below the two bytes above it. -/
theorem State.PlainAt.readValue_dword_busWrite_word (h : s.PlainAt a 4) (v : Word) :
    (s.busWrite .word a v).readValue .dword a =
      s.peek (above a 3) ++ s.peek (above a 2) ++ v.extractLsb' 0 16 := by
  have hw : s.PlainAt a Width.word.bytes := h.mono (by decide)
  rw [(h.busWrite .word a v).readValue_dword, hw.busWrite_peek_of_lt v (by decide), hw.busWrite_peek_of_lt v (by decide),
    s.busWrite_peek_of_le .word a v (by decide) (by decide), s.busWrite_peek_of_le .word a v (by decide) (by decide)]
  have hlow : byteOf v 1 ++ byteOf v 0 = v.extractLsb' 0 16 := byteOf_append_byteOf v 0
  rw [← hlow, wordOfBytes, BitVec.append_assoc, BitVec.cast_eq]

/-- A word read back where it was written. -/
theorem State.PlainAt.readValue_dword_busWrite_dword (h : s.PlainAt a 4) (v : Word) :
    (s.busWrite .dword a v).readValue .dword a = v := by
  have hd : s.PlainAt a Width.dword.bytes := h
  rw [(h.busWrite .dword a v).readValue_dword, hd.busWrite_peek_of_lt v (by decide), hd.busWrite_peek_of_lt v (by decide),
    hd.busWrite_peek_of_lt v (by decide), hd.busWrite_peek_of_lt v (by decide)]
  exact wordOfBytes_bytesOfWord v

/-- Settles O54: one lemma per width of the read, at each offset inside the write. -/
theorem memoryIsLittleEndian : Obligations.MemoryIsLittleEndian := by
  intro s a v
  refine ⟨fun h => ?_, fun h => ?_, fun h => ?_⟩
  · have hw : s.PlainAt a Width.word.bytes := h
    refine ⟨fun k hk => ⟨hw.busWrite_peek_of_lt v hk, hw.readValue_byte_busWrite v hk⟩, ?_⟩
    simpa only [above_zero] using hw.readValue_word_busWrite v (j := 0) (by decide)
  · exact ⟨h.readValue_word_above_busWrite_word v, h.readValue_dword_busWrite_word v⟩
  · have hd : s.PlainAt a Width.dword.bytes := h
    refine ⟨fun k hk => ⟨hd.busWrite_peek_of_lt v hk, hd.readValue_byte_busWrite v hk⟩, ?_,
      hd.readValue_word_busWrite v (by decide), hd.readValue_word_busWrite v (by decide),
      h.readValue_dword_busWrite_dword v⟩
    simpa only [above_zero] using hd.readValue_word_busWrite v (j := 0) (by decide)

end Sys2Proof.Machine
end

section
/-! The canonical form of memory (20_memory R52, notes/assumptions/1.md): what a memory reads as determines its listing. -/

namespace Sys2Proof.Machine

theorem Memory.wfFrom_cons {lo x : Nat} {b : Byte} {m : Memory} :
    Memory.wfFrom lo ((x, b) :: m) = true ↔ lo ≤ x ∧ x < 2 ^ 32 ∧ b ≠ Memory.unwritten ∧ Memory.wfFrom (x + 1) m = true := by
  simp only [Memory.wfFrom, Bool.and_eq_true, decide_eq_true_eq, and_assoc]

theorem Memory.read_cons_self (x : Nat) (b : Byte) (m : Memory) : Memory.read ((x, b) :: m) x = b := if_pos rfl

theorem Memory.read_cons_of_ne {x y : Nat} (h : y ≠ x) (b : Byte) (m : Memory) :
    Memory.read ((x, b) :: m) y = Memory.read m y := if_neg h

/-- Nothing is listed below the first address of the form. -/
theorem Memory.read_of_lt {lo : Nat} {m : Memory} (hm : Memory.wfFrom lo m = true) {x : Nat} (hx : x < lo) :
    Memory.read m x = Memory.unwritten := by
  induction m generalizing lo with
  | nil => rfl
  | cons c m ih =>
    obtain ⟨y, b⟩ := c
    obtain ⟨hlo, -, -, htail⟩ := Memory.wfFrom_cons.1 hm
    rw [Memory.read_cons_of_ne (by omega)]
    exact ih htail (by omega)

/-- The first listed address of a memory is at or below every address that reads as a written byte. -/
theorem Memory.head_le_of_read {x y lo : Nat} {b : Byte} {m : Memory} (hm : Memory.wfFrom lo ((y, b) :: m) = true)
    (hx : Memory.read ((y, b) :: m) x ≠ Memory.unwritten) : y ≤ x := by
  obtain ⟨-, hy, hb, htail⟩ := Memory.wfFrom_cons.1 hm
  have hfrom : Memory.wfFrom y ((y, b) :: m) = true := Memory.wfFrom_cons.2 ⟨Nat.le_refl y, hy, hb, htail⟩
  exact Nat.le_of_not_lt fun hlt => hx (Memory.read_of_lt hfrom hlt)

/-- Each listing's first address is at or below the other's, so the heads agree, and then the tails do. -/
theorem Memory.eq_of_read_eq {lo : Nat} {m k : Memory} (hm : Memory.wfFrom lo m = true) (hk : Memory.wfFrom lo k = true)
    (h : ∀ a, Memory.read m a = Memory.read k a) : m = k := by
  induction m generalizing lo k with
  | nil =>
    cases k with
    | nil => rfl
    | cons c k =>
      obtain ⟨y, b⟩ := c
      obtain ⟨-, -, hb, -⟩ := Memory.wfFrom_cons.1 hk
      exact absurd ((h y).trans (Memory.read_cons_self y b k)).symm hb
  | cons c m ih =>
    obtain ⟨x, b⟩ := c
    obtain ⟨-, -, hb, hmtail⟩ := Memory.wfFrom_cons.1 hm
    cases k with
    | nil => exact absurd ((Memory.read_cons_self x b m).symm.trans (h x)) hb
    | cons d k =>
      obtain ⟨y, b'⟩ := d
      obtain ⟨-, -, hb', hktail⟩ := Memory.wfFrom_cons.1 hk
      have hyx : y ≤ x := Memory.head_le_of_read hk (by rwa [← h, Memory.read_cons_self])
      have hxy : x ≤ y := Memory.head_le_of_read hm (by rwa [h, Memory.read_cons_self])
      obtain rfl : x = y := Nat.le_antisymm hxy hyx
      obtain rfl : b = b' := by simpa only [Memory.read_cons_self] using h x
      have htail : ∀ a, Memory.read m a = Memory.read k a := by
        intro a
        by_cases ha : a = x
        · rw [ha, Memory.read_of_lt hmtail (Nat.lt_succ_self x), Memory.read_of_lt hktail (Nat.lt_succ_self x)]
        · simpa only [Memory.read_cons_of_ne ha] using h a
      rw [ih hmtail hktail htail]

/-- Settles O55. -/
theorem memoryFormIsCanonical : Obligations.MemoryFormIsCanonical :=
  fun _ _ hm hk h => Memory.eq_of_read_eq hm hk h

end Sys2Proof.Machine
end

section
/-! Classes, fields and operands of an instruction word (30_encoding R81 to R93): the class by the opcode byte, the operand by M and L,
and which fields an opcode's instruction has. -/

namespace Sys2Proof

/-! ## Classes -/

/-- The class of an opcode, by its range (30_encoding R82). -/
def Class.ofOpcode (op : BitVec 8) : Class :=
  if 0x80 ≤ op.toNat then .p3 else if 0x40 ≤ op.toNat then .p2 else if 0x20 ≤ op.toNat then .p1 else .np

/-- The width of a class's literal field; NP has none (30_encoding R84 to R87). -/
def Class.literalBits : Class → Nat
  | .np => 0
  | .p1 => 22
  | .p2 => 18
  | .p3 => 14

theorem Class.literalBits_le (c : Class) : c.literalBits ≤ 22 := by
  cases c <;> decide

theorem Class.four_le_literalBits {c : Class} (hc : c ≠ .np) : 4 ≤ c.literalBits := by
  cases c with
  | np => exact absurd rfl hc
  | p1 | p2 | p3 => decide

theorem inlineLiteral_eq (c : Class) (w : Word) :
    inlineLiteral c w = (w.extractLsb' 0 c.literalBits).signExtend 32 := by
  cases c with
  | np =>
    have hnone : w.extractLsb' 0 0 = 0#0 := Subsingleton.elim _ _
    exact (congrArg (BitVec.signExtend 32) hnone).symm
  | p1 | p2 | p3 => rfl

/-- The bits that choose the class are those of the opcode byte, so its range tells the class. -/
theorem Class.ofWord_eq_ofOpcode (w : Word) : Class.ofWord w = Class.ofOpcode (w.extractLsb' 24 8) := by
  have byRange : ∀ op : BitVec 8, (if op.getLsbD 7 then Class.p3 else if op.getLsbD 6 then .p2
      else if op.getLsbD 5 then .p1 else .np) = Class.ofOpcode op := by decide
  rw [Class.ofWord_opcode, byRange]

theorem Class.ofOpcode_iff_range (op : BitVec 8) :
    (Class.ofOpcode op = .p3 ↔ 0x80 ≤ op.toNat) ∧
    (Class.ofOpcode op = .p2 ↔ 0x40 ≤ op.toNat ∧ op.toNat ≤ 0x7F) ∧
    (Class.ofOpcode op = .p1 ↔ 0x20 ≤ op.toNat ∧ op.toNat ≤ 0x3F) ∧
    (Class.ofOpcode op = .np ↔ op.toNat ≤ 0x1F) := by
  unfold Class.ofOpcode
  split_ifs <;> simp only [true_iff, false_iff] <;> omega

/-- The mask conditions of the classes, on the opcode byte (30_encoding R81). -/
theorem Class.ofOpcode_iff_mask (op : BitVec 8) :
    (Class.ofOpcode op = .p3 ↔ op &&& 0x80#8 = 0x80#8) ∧
    (Class.ofOpcode op = .p2 ↔ op &&& 0xC0#8 = 0x40#8) ∧
    (Class.ofOpcode op = .p1 ↔ op &&& 0xE0#8 = 0x20#8) ∧
    (Class.ofOpcode op = .np ↔ op &&& 0xE0#8 = 0x00#8) := by
  revert op; decide

/-- A mask of opcode bits looks at the opcode byte alone. -/
theorem and_opcodeMask_iff (w : Word) (m v : BitVec 8) :
    w &&& (m ++ 0#24) = v ++ 0#24 ↔ w.extractLsb' 24 8 &&& m = v := by
  have hw : w = w.extractLsb' 24 8 ++ w.extractLsb' 0 24 := (BitVec.extractLsb'_append_extractLsb' (w := 8) (len := 24)).symm
  have hand : w &&& (m ++ 0#24) = (w.extractLsb' 24 8 &&& m) ++ 0#24 := by
    conv_lhs => rw [hw, BitVec.and_append, BitVec.and_zero]
  rw [hand, BitVec.append_left_inj]

/-! ## The operand, by M and L -/

variable {w v : Word}

theorem header_big (w : Word) :
    (header w).big = (decide (Class.ofWord w ≠ .np) && w.getLsbD 23 && w.getLsbD 22) := rfl

theorem header_operand_np (hc : Class.ofWord w = .np) (l : Word) : (header w).operand l = .reg (header w).rn := by
  simp [Header.operand, header, hc]

theorem header_operand_register (hM : w.getLsbD 23 = false) (l : Word) :
    (header w).operand l = .reg (w.extractLsb' 0 4).toFin := by
  simp only [Header.operand, header, hM, Bool.and_false, Bool.false_eq_true, if_false]

theorem header_operand_inline (hc : Class.ofWord w ≠ .np) (hM : w.getLsbD 23 = true) (hL : w.getLsbD 22 = false)
    (l : Word) : (header w).operand l = .lit (inlineLiteral (Class.ofWord w) w) := by
  simp only [Header.operand, header, hM, hL, decide_eq_true hc, Bool.and_true, Bool.and_false, Bool.false_eq_true, if_true,
    if_false]

theorem header_operand_big (hc : Class.ofWord w ≠ .np) (hM : w.getLsbD 23 = true) (hL : w.getLsbD 22 = true)
    (l : Word) : (header w).operand l = .big l := by
  simp only [Header.operand, header, hM, hL, decide_eq_true hc, Bool.and_true, if_true]

/-- The operand of a word fits the literal field of the word's class (30_encoding R93). -/
theorem header_operand_fits (w l : Word) : ((header w).operand l).fits (Class.ofWord w).literalBits = true := by
  by_cases hc : Class.ofWord w = .np
  · rw [header_operand_np hc]; rfl
  cases hM : w.getLsbD 23 with
  | false => rw [header_operand_register hM]; rfl
  | true =>
    cases hL : w.getLsbD 22 with
    | true => rw [header_operand_big hc hM hL]; rfl
    | false =>
      have hpos := Class.four_le_literalBits hc
      have hle := (Class.ofWord w).literalBits_le
      rw [header_operand_inline hc hM hL, inlineLiteral_eq]
      exact fits_signExtend _ (by omega) (by omega) _

/-! ## The fields an opcode's instruction has -/

/-- NP has no operand, only P2 and P3 have `rd`, only P3 has `rs` (30_encoding R84 to R87, R94). -/
theorem instrOf_congr {op : BitVec 8} {rd rd' rs rs' : Reg} {o o' : Operand}
    (ho : Class.ofOpcode op ≠ .np → o = o') (hrd : Class.ofOpcode op = .p2 ∨ Class.ofOpcode op = .p3 → rd = rd')
    (hrs : Class.ofOpcode op = .p3 → rs = rs') : instrOf op rd rs o = instrOf op rd' rs' o' := by
  unfold instrOf
  split <;> simp_all [Class.ofOpcode]

theorem decodeWords_congr {l k : Word} (hop : w.extractLsb' 24 8 = v.extractLsb' 24 8)
    (ho : Class.ofWord w ≠ .np → (header w).operand l = (header v).operand k)
    (hrd : Class.ofWord w = .p2 ∨ Class.ofWord w = .p3 → w.extractLsb' 18 4 = v.extractLsb' 18 4)
    (hrs : Class.ofWord w = .p3 → w.extractLsb' 14 4 = v.extractLsb' 14 4) : decodeWords w l = decodeWords v k := by
  rw [Class.ofWord_eq_ofOpcode] at ho hrd hrs
  have hv : decodeWords v k = instrOf (header w).op (header v).rd (header v).rs ((header v).operand k) :=
    congrArg (instrOf · _ _ _) hop.symm
  rw [hv]
  exact instrOf_congr ho (fun h => congrArg BitVec.toFin (hrd h)) (fun h => congrArg BitVec.toFin (hrs h))

end Sys2Proof
end

section
/-! The form of every encoding: a word of class NP alone, or a word that carries an operand, followed by the operand's literal word.
Decoding undoes both, and both are as long as the word says (30_encoding R80, R84 to R87). -/

namespace Sys2Proof

/-! ## Bits M and L -/

/-- Bit M (30_encoding R89). -/
def Operand.isLiteral : Operand → Bool
  | .reg _ => false
  | .lit _ | .big _ => true

/-- Bit L (30_encoding R90). -/
def Operand.isBig : Operand → Bool
  | .reg _ | .lit _ => false
  | .big _ => true

theorem Operand.ml_bits (o : Operand) : o.ml.getLsbD 1 = o.isLiteral ∧ o.ml.getLsbD 0 = o.isBig := by
  cases o with
  | reg _ | lit _ | big _ => exact ⟨by simp [ml, isLiteral], by simp [ml, isBig]⟩

/-! ## The four formats -/

/-- What the encoder writes for `i`, and what the word says to the decoder. -/
inductive EncodeCase (i : Instr) : Prop
  | noOperand (w : Word) (henc : encode i = [w]) (hc : Class.ofWord w = .np) (hmap : ∀ l, decodeWords w l = some i)
  | operand {c : Class} (w : Word) (o : Operand) (henc : encode i = w :: o.literalWord) (hclass : Class.ofWord w = c)
      (hc : c ≠ .np) (hM : w.getLsbD 23 = o.isLiteral) (hL : w.getLsbD 22 = o.isBig)
      (hlow : w.extractLsb' 0 c.literalBits = o.low c.literalBits) (hwf : i.wf = o.fits c.literalBits)
      (hmap : instrOf (header w).op (header w).rd (header w).rs o = some i)

section Formats

variable {i : Instr} {op : BitVec 8} {rd rs : Reg} {o : Operand}

theorem EncodeCase.np (henc : encode i = encodeNP op) (hc : Class.ofOpcode op = .np)
    (hmap : ∀ rd rs o, instrOf op rd rs o = some i) : EncodeCase i := by
  have hop := opcodeNP op
  refine .noOperand _ henc (by rw [Class.ofWord_eq_ofOpcode, hop, hc]) fun l => ?_
  simp only [decodeWords, header, hop, hmap]

theorem EncodeCase.p1 (henc : encode i = encodeP1 op o) (hc : Class.ofOpcode op = .p1) (hwf : i.wf = o.fits 22)
    (hmap : ∀ rd rs, instrOf op rd rs o = some i) : EncodeCase i := by
  obtain ⟨hop, hlow, hM, hL⟩ := fieldsP1 op o.ml (o.low 22)
  obtain ⟨hisLit, hisBig⟩ := o.ml_bits
  refine .operand (c := .p1) _ o henc ?_ nofun (hM.trans hisLit) (hL.trans hisBig) hlow hwf ?_
  · rw [Class.ofWord_eq_ofOpcode, hop, hc]
  · simp only [header, hop, hmap]

theorem EncodeCase.p2 (henc : encode i = encodeP2 op rd o) (hc : Class.ofOpcode op = .p2) (hwf : i.wf = o.fits 18)
    (hmap : ∀ rs, instrOf op rd rs o = some i) : EncodeCase i := by
  obtain ⟨hop, hlow, hrd, hM, hL⟩ := fieldsP2 op o.ml (BitVec.ofNat 4 rd.val) (o.low 18)
  obtain ⟨hisLit, hisBig⟩ := o.ml_bits
  refine .operand (c := .p2) _ o henc ?_ nofun (hM.trans hisLit) (hL.trans hisBig) hlow hwf ?_
  · rw [Class.ofWord_eq_ofOpcode, hop, hc]
  · simp only [header, hop, hrd, regField, hmap]

theorem EncodeCase.p3 (henc : encode i = encodeP3 op rd rs o) (hc : Class.ofOpcode op = .p3) (hwf : i.wf = o.fits 14)
    (hmap : instrOf op rd rs o = some i) : EncodeCase i := by
  obtain ⟨hop, hlow, hrd, hrs, hM, hL⟩ := fieldsP3 op o.ml (BitVec.ofNat 4 rd.val) (BitVec.ofNat 4 rs.val) (o.low 14)
  obtain ⟨hisLit, hisBig⟩ := o.ml_bits
  refine .operand (c := .p3) _ o henc ?_ nofun (hM.trans hisLit) (hL.trans hisBig) hlow hwf ?_
  · rw [Class.ofWord_eq_ofOpcode, hop, hc]
  · simp only [header, hop, hrd, hrs, regField, hmap]

end Formats

theorem encode_cases (i : Instr) : EncodeCase i := by
  cases i with
  | sleep | ret | rfi => exact .np rfl rfl fun _ _ _ => rfl
  | xchgb _ | xchgw _ | getpc _ | pop _ | push _ | jmp _ | call _ | rjmp _ | rcall _ | int _ =>
    exact .p1 rfl rfl rfl fun _ _ => rfl
  | mov _ _ | swp _ _ | not _ _ | sigxb _ _ | sigxw _ _ | load2 _ _ | loadw2 _ _ | loadb2 _ _ | store2 _ _
  | storew2 _ _ | storeb2 _ _ | ifeq _ _ | ifneq _ _ | ifl _ _ | ifsl _ _ | ifle _ _ | ifsle _ _ | ifbits _ _
  | ifclear _ _ | jmp2 _ _ | call2 _ _ =>
    exact .p2 rfl rfl rfl fun _ => rfl
  | and _ _ _ | or _ _ _ | xor _ _ _ | bitc _ _ _ | add _ _ _ | addc _ _ _ | sub _ _ _ | subb _ _ _ | rsb _ _ _
  | rsbb _ _ _ | lls _ _ _ | rls _ _ _ | ars _ _ _ | rotl _ _ _ | rotr _ _ _ | mul _ _ _ | smul _ _ _ | div _ _ _
  | sdiv _ _ _ | load _ _ _ | loadw _ _ _ | loadb _ _ _ | store _ _ _ | storew _ _ _ | storeb _ _ _ =>
    exact .p3 rfl rfl rfl rfl

/-! ## What the decoder sees of an operand -/

section Carried

variable {w : Word} {o : Operand}

/-- Bit L stands only beside bit M (30_encoding R83), so L alone tells a big literal. -/
theorem header_big_of_fields (hc : Class.ofWord w ≠ .np) (hM : w.getLsbD 23 = o.isLiteral)
    (hL : w.getLsbD 22 = o.isBig) : (header w).big = o.isBig := by
  rw [header_big, hM, hL]
  cases o with
  | reg _ | lit _ => exact Bool.and_false _
  | big _ => simp [Operand.isLiteral, Operand.isBig, hc]

/-- An operand that fits its field is read back from the fields and the literal word (30_encoding R89, R90). -/
theorem header_operand_of_fields (hc : Class.ofWord w ≠ .np) (hM : w.getLsbD 23 = o.isLiteral)
    (hL : w.getLsbD 22 = o.isBig)
    (hlow : w.extractLsb' 0 (Class.ofWord w).literalBits = o.low (Class.ofWord w).literalBits)
    (hfits : o.fits (Class.ofWord w).literalBits = true) : (header w).operand (o.literalWord.headD 0#32) = o := by
  have hpos := Class.four_le_literalBits hc
  have hle := (Class.ofWord w).literalBits_le
  cases o with
  | reg r => rw [header_operand_register hM, rnField _ hpos w r hlow]
  | lit v =>
    rw [header_operand_inline hc hM hL, inlineLiteral_eq, hlow]
    exact congrArg _ (signExtend_of_fits _ (by omega) (by omega) v hfits)
  | big v => exact header_operand_big hc hM hL v

/-- The decoder takes the literal word exactly where the encoder writes one (30_encoding R80). -/
theorem decodeBytes_of_operand (hbig : (header w).big = o.isBig) (rest : List Byte) :
    decodeBytes ((w :: o.literalWord).flatMap bytesOfWord ++ rest) =
      (decodeOrReject w (o.literalWord.headD 0#32)).map fun i => (i, rest) := by
  cases o with
  | reg _ | lit _ => simpa [Operand.literalWord] using decodeBytes_short w rest hbig
  | big v => simpa [Operand.literalWord] using decodeBytes_big w v rest hbig

/-- The bytes of a word and its literal word are as many as the word says (30_encoding R80). -/
theorem length_of_operand (hbig : (header w).big = o.isBig) :
    ((w :: o.literalWord).flatMap bytesOfWord).length = (header w).length := by
  rw [Header.length, hbig]
  cases o <;> rfl

end Carried

theorem header_big_np {w : Word} (hc : Class.ofWord w = .np) : (header w).big = false := by
  simp [header_big, hc]

theorem decodeOrReject_ok {w l : Word} {i : Instr} (h : decodeWords w l = some i) : decodeOrReject w l = .ok i := by
  simp [decodeOrReject, h]

/-! ## The obligations -/

/-- Settles O1: the operand is read back from the fields, and the opcode map gives back the constructor. -/
theorem decodingUndoesEncoding : Obligations.DecodingUndoesEncoding := by
  intro i rest hi
  cases encode_cases i with
  | noOperand w henc hc hmap =>
    rw [encodeBytes, henc, List.flatMap_singleton, decodeBytes_short w rest (header_big_np hc),
      decodeOrReject_ok (hmap _)]
    rfl
  | operand w o henc hclass hc hM hL hlow hwf hmap =>
    subst hclass
    have ho := header_operand_of_fields hc hM hL hlow (hwf ▸ hi)
    have hdec : decodeWords w (o.literalWord.headD 0#32) = some i := by rw [decodeWords, ho, hmap]
    rw [encodeBytes, henc, decodeBytes_of_operand (header_big_of_fields hc hM hL), decodeOrReject_ok hdec]
    rfl

/-- Settles O7: the length is the header's by M and L, and an encoding has a literal word exactly where its word says so. -/
theorem firstWordTellsLength : Obligations.FirstWordTellsLength := by
  refine ⟨fun w => ?_, fun i => ?_⟩
  · simp only [Header.length, header_big, Bool.and_eq_true, decide_eq_true_eq, and_assoc]
  · cases encode_cases i with
    | noOperand w henc hc hmap =>
      refine ⟨w, [], henc, ?_⟩
      rw [encodeBytes, henc, Header.length, header_big_np hc]
      rfl
    | operand w o henc hclass hc hM hL hlow hwf hmap =>
      subst hclass
      refine ⟨w, o.literalWord, henc, ?_⟩
      rw [encodeBytes, henc, length_of_operand (header_big_of_fields hc hM hL)]

end Sys2Proof
end

section
/-! What words decode to: classes, unassigned opcodes, well-formed instructions, ignored bits, literal ranges (30_encoding R81, R93,
R96, R97). -/

namespace Sys2Proof

/-- Settles O4: both conditions are conditions on the opcode byte. -/
theorem eachWordHasOneClass : Obligations.EachWordHasOneClass := by
  intro w
  obtain ⟨m3, m2, m1, m0⟩ := Class.ofOpcode_iff_mask (w.extractLsb' 24 8)
  rw [Class.ofWord_eq_ofOpcode]
  exact ⟨m3.trans (and_opcodeMask_iff w 0x80#8 0x80#8).symm, m2.trans (and_opcodeMask_iff w 0xC0#8 0x40#8).symm,
    m1.trans (and_opcodeMask_iff w 0xE0#8 0x20#8).symm, m0.trans (and_opcodeMask_iff w 0xE0#8 0x00#8).symm,
    Class.ofOpcode_iff_range (w.extractLsb' 24 8)⟩

/-- The gaps of the opcode map (30_encoding R96). -/
theorem instrOf_isNone_iff (op : BitVec 8) (rd rs : Reg) (o : Operand) :
    (instrOf op rd rs o).isNone = true ↔ (0x03 ≤ op.toNat ∧ op.toNat ≤ 0x1F) ∨ (0x2A ≤ op.toNat ∧ op.toNat ≤ 0x3F) ∨
      (0x55 ≤ op.toNat ∧ op.toNat ≤ 0x7F) ∨ 0x99 ≤ op.toNat := by
  rw [instrOf_isNone]
  revert op; decide

/-- Settles O5: the other fields do not decide whether an opcode is mapped, so the opcode's range does. -/
theorem unassignedOpcodes : Obligations.UnassignedOpcodes := by
  intro w l
  rw [← Option.isNone_iff_eq_none]
  exact instrOf_isNone_iff _ _ _ _

/-- Settles O2: an instruction's operand is that of the word, which fits the field of the word's class. -/
theorem decodedInstructionIsWellFormed : Obligations.DecodedInstructionIsWellFormed := by
  intro w l i h
  have hfits := header_operand_fits w l
  obtain ⟨c3, c2, c1, -⟩ := Class.ofOpcode_iff_range (header w).op
  rw [show Class.ofWord w = Class.ofOpcode (header w).op from Class.ofWord_eq_ofOpcode w] at hfits
  rcases instrOf_wf _ _ _ _ i h with ⟨-, hwf⟩ | ⟨hlo, hhi, hwf⟩ | ⟨hlo, hhi, hwf⟩ | ⟨hlo, -, hwf⟩
  · exact hwf
  · rwa [c1.2 ⟨hlo, by omega⟩, Class.literalBits, ← hwf] at hfits
  · rwa [c2.2 ⟨hlo, by omega⟩, Class.literalBits, ← hwf] at hfits
  · rwa [c3.2 hlo, Class.literalBits, ← hwf] at hfits

/-! ## Ignored bits -/

section Masks

variable {w v m : Word}

/-- Words that agree under a mask agree on every field that the mask covers. -/
theorem field_eq_of_mask (h : w &&& m = v &&& m) {start len : Nat} (hm : m.extractLsb' start len = BitVec.allOnes len) :
    w.extractLsb' start len = v.extractLsb' start len := by
  simpa only [BitVec.extractLsb'_and, hm, BitVec.and_allOnes] using congrArg (BitVec.extractLsb' start len) h

theorem bit_eq_of_mask (h : w &&& m = v &&& m) {k : Nat} (hm : m.getLsbD k = true) : w.getLsbD k = v.getLsbD k := by
  simpa only [BitVec.getLsbD_and, hm, Bool.and_true] using congrArg (BitVec.getLsbD · k) h

/-- The mask covers the register fields that the class of `w` has before its last operand. -/
def CoversRegisters (w m : Word) : Prop :=
  (Class.ofWord w = .p2 ∨ Class.ofWord w = .p3 → m.extractLsb' 18 4 = BitVec.allOnes 4) ∧
    (Class.ofWord w = .p3 → m.extractLsb' 14 4 = BitVec.allOnes 4)

theorem coversRegisters_p3 (hrd : m.extractLsb' 18 4 = BitVec.allOnes 4) (hrs : m.extractLsb' 14 4 = BitVec.allOnes 4) :
    CoversRegisters w m :=
  ⟨fun _ => hrd, fun _ => hrs⟩

theorem coversRegisters_p2 (hc : Class.ofWord w = .p2) (hrd : m.extractLsb' 18 4 = BitVec.allOnes 4) :
    CoversRegisters w m :=
  ⟨fun _ => hrd, fun h3 => by simp [hc] at h3⟩

theorem coversRegisters_of_none (h2 : Class.ofWord w ≠ .p2) (h3 : Class.ofWord w ≠ .p3) : CoversRegisters w m :=
  ⟨fun h => absurd h (not_or_intro h2 h3), fun h => absurd h h3⟩

/-- With the opcode and the registers covered, only the operand is left to agree. -/
theorem decodeWords_eq_of_mask {l k : Word} (h : w &&& m = v &&& m) (hop : m.extractLsb' 24 8 = BitVec.allOnes 8)
    (hregs : CoversRegisters w m) (ho : Class.ofWord w ≠ .np → (header w).operand l = (header v).operand k) :
    decodeWords w l = decodeWords v k :=
  decodeWords_congr (field_eq_of_mask h hop) ho (fun hc => field_eq_of_mask h (hregs.1 hc))
    (fun hc => field_eq_of_mask h (hregs.2 hc))

/-- With M = 0 the operand is `rn` (30_encoding R89). -/
theorem decodeWords_eq_of_register_mask (hM : w.getLsbD 23 = false) (h : w &&& m = v &&& m)
    (hregs : CoversRegisters w m) (hop : m.extractLsb' 24 8 = BitVec.allOnes 8) (hm : m.getLsbD 23 = true)
    (hrn : m.extractLsb' 0 4 = BitVec.allOnes 4) (l k : Word) : decodeWords w l = decodeWords v k := by
  refine decodeWords_eq_of_mask h hop hregs fun _ => ?_
  rw [header_operand_register hM, header_operand_register ((bit_eq_of_mask h hm).symm.trans hM), field_eq_of_mask h hrn]

/-- With M = L = 1 the operand is the word after the instruction word (30_encoding R90). -/
theorem decodeWords_eq_of_big_mask (hM : w.getLsbD 23 = true) (hL : w.getLsbD 22 = true) (h : w &&& m = v &&& m)
    (hregs : CoversRegisters w m) (hop : m.extractLsb' 24 8 = BitVec.allOnes 8) (hm : m.getLsbD 23 = true)
    (hl : m.getLsbD 22 = true) (l : Word) : decodeWords w l = decodeWords v l := by
  refine decodeWords_eq_of_mask h hop hregs fun hc => ?_
  have hcv : Class.ofWord v ≠ .np := by
    rwa [Class.ofWord_eq_ofOpcode, ← field_eq_of_mask h hop, ← Class.ofWord_eq_ofOpcode]
  rw [header_operand_big hc hM hL,
    header_operand_big hcv ((bit_eq_of_mask h hm).symm.trans hM) ((bit_eq_of_mask h hl).symm.trans hL)]

end Masks

/-- Settles O6: each clause's mask covers every field that its format and operand form read. -/
theorem ignoredBitsChangeNothing : Obligations.IgnoredBitsChangeNothing := by
  intro w v l k
  refine ⟨fun hc h => ?_, fun hM => ⟨fun _ h => ?_, fun hc h => ?_, fun hc h => ?_⟩, fun hM hL => ?_,
    fun hM hL => ⟨fun _ h => ?_, fun hc h => ?_, fun hc h => ?_⟩⟩
  · exact decodeWords_eq_of_mask h rfl (coversRegisters_of_none (by simp [hc]) (by simp [hc])) fun hnp => absurd hc hnp
  · exact decodeWords_eq_of_register_mask hM h (coversRegisters_p3 rfl rfl) rfl rfl rfl l k
  · exact decodeWords_eq_of_register_mask hM h (coversRegisters_p2 hc rfl) rfl rfl rfl l k
  · exact decodeWords_eq_of_register_mask hM h (coversRegisters_of_none (by simp [hc]) (by simp [hc])) rfl rfl rfl l k
  · refine decodeWords_congr rfl (fun hc => ?_) (fun _ => rfl) fun _ => rfl
    rw [header_operand_inline hc hM hL, header_operand_inline hc hM hL]
  · exact decodeWords_eq_of_big_mask hM hL h (coversRegisters_p3 rfl rfl) rfl rfl rfl l
  · exact decodeWords_eq_of_big_mask hM hL h (coversRegisters_p2 hc rfl) rfl rfl rfl l
  · exact decodeWords_eq_of_big_mask hM hL h (coversRegisters_of_none (by simp [hc]) (by simp [hc])) rfl rfl rfl l

/-! ## Literal ranges -/

/-- The values of a class's inline literals are those that fit its field: such a value stands in the low bits of a word of any
opcode of the class (30_encoding R93). -/
theorem exists_inlineLiteral_iff_fits {op : BitVec 8} {c : Class} (hc : Class.ofOpcode op = c) (hnp : c ≠ .np) (v : Word) :
    (∃ w, Class.ofWord w = c ∧ inlineLiteral c w = v) ↔ (Operand.lit v).fits c.literalBits = true := by
  have hpos := Class.four_le_literalBits hnp
  have hle := c.literalBits_le
  constructor
  · rintro ⟨w, -, rfl⟩
    rw [inlineLiteral_eq]
    exact fits_signExtend _ (by omega) (by omega) _
  · intro hfits
    have hlow : (op ++ v.setWidth 24 : Word).extractLsb' 0 c.literalBits = v.setWidth c.literalBits := by
      rw [BitVec.extractLsb'_append_eq_of_add_le (by omega), ← BitVec.setWidth_eq_extractLsb' (by omega),
        BitVec.setWidth_setWidth_of_le _ (by omega)]
    refine ⟨op ++ v.setWidth 24, ?_, ?_⟩
    · rw [Class.ofWord_eq_ofOpcode, BitVec.extractLsb'_append_eq_left, hc]
    · rw [inlineLiteral_eq, hlow, signExtend_of_fits _ (by omega) (by omega) v hfits]

theorem Operand.fits_lit_iff (n : Nat) (v : Word) :
    (Operand.lit v).fits n = true ↔ -(2 ^ (n - 1) : Int) ≤ v.toInt ∧ v.toInt < 2 ^ (n - 1) :=
  decide_eq_true_iff

/-- Settles O8: fitting a field of 14, 18 or 22 bits is lying in its signed range. -/
theorem inlineLiteralRanges : Obligations.InlineLiteralRanges := by
  intro v
  rw [exists_inlineLiteral_iff_fits (op := 0x80#8) (c := .p3) rfl nofun,
    exists_inlineLiteral_iff_fits (op := 0x40#8) (c := .p2) rfl nofun,
    exists_inlineLiteral_iff_fits (op := 0x20#8) (c := .p1) rfl nofun]
  simp only [Operand.fits_lit_iff, Class.literalBits]
  omega

end Sys2Proof
end

section
/-! A fetched instruction word that is executed, and the no-op of an unassigned opcode (40_step_engine R123 to R125, 30_encoding
R96). -/

namespace Sys2Proof.Machine

variable (s : State)

/-- The fetch moves the pc past the instruction and makes the bus reads of its words, and does nothing else
(40_step_engine R124, R125). -/
theorem State.fetch_frame (h : Header) :
    let u := (s.fetchWord.2.fetchLiteral h).2
    u.pc = above s.pc h.length ∧ KeepsRegsBut [] s u ∧ KeepsMemory s u ∧ KeepsSequencer s u ∧ KeepsPlatform s u ∧
      u.busLog = s.busLog ++ (if h.big then [.read .dword s.pc, .read .dword (above s.pc 4)] else [.read .dword s.pc]) := by
  cases hb : h.big with
  | false =>
    rw [State.fetchLiteral_short _ h hb, Header.length, hb]
    exact ⟨rfl, fun _ _ => rfl, fun _ => rfl, ⟨rfl, rfl, rfl, rfl, rfl, rfl⟩, ⟨rfl, rfl, rfl, rfl⟩, rfl⟩
  | true =>
    rw [State.fetchLiteral_big _ h hb, Header.length, hb]
    refine ⟨?_, fun _ _ => rfl, fun _ => rfl, ⟨rfl, rfl, rfl, rfl, rfl, rfl⟩, ⟨rfl, rfl, rfl, rfl⟩, ?_⟩
    · simp [BitVec.add_assoc]
    · simp

/-- A step of a ready core executes the fetched word (40_step_engine R123, R134). -/
theorem State.stepCycles_ready (hs : s.Ready) (c : Timing) :
    s.stepCycles c = s.fetchWord.2.executeWord c s.fetchWord.1 := by
  obtain ⟨hbus, hsleep, hskip, hdebug⟩ := hs
  rw [s.stepCycles_awake c hbus hsleep, s.realStep_execute c hdebug hskip]

/-- A word that decodes to no instruction leaves the fetched state to the end of the step (30_encoding R96). -/
theorem State.executeWord_unassigned (c : Timing) (w : Word)
    (hnone : decodeWords w (s.fetchLiteral (header w)).1 = none) :
    let u := (s.fetchLiteral (header w)).2
    s.executeWord c w = .next (u.endOfStep (u.flag bitIF), cyclesOf c (header w) u) := by
  simp only [State.executeWord, hnone, execDecoded]

/-- Settles O10: nothing runs between the fetch, whose frame is known, and the end of the step. -/
theorem unassignedOpcodeRunsAsNoOp : Obligations.UnassignedOpcodeRunsAsNoOp := by
  intro s c hs w h litWord hnone
  have hframe := s.fetch_frame h
  refine ⟨(s.fetchWord.2.fetchLiteral h).2, ?_, hframe⟩
  obtain ⟨-, hregs, -, ⟨-, -, -, -, hskip, -⟩, -, -⟩ := hframe
  have hflag := flag_eq_of_reg_eq (hregs .flags List.not_mem_nil) bitIF
  have hcost : cyclesOf c h (s.fetchWord.2.fetchLiteral h).2 = c.cost h.op + (if h.big then 1 else 0) := by
    obtain ⟨-, -, hskiping, -⟩ := hs
    simp only [cyclesOf, hskip, hskiping, Bool.false_eq_true, if_false, Nat.add_zero]
  rw [s.stepCycles_ready hs c, State.executeWord_unassigned _ c w hnone, hflag, hcost]

end Sys2Proof.Machine
end

section
/-! Everything a `RealStep` can do, said once for every cost table (40_step_engine R121 to R129): it aborts, steps over a word, or
executes one. -/

namespace Sys2Proof.Machine

variable {s t : State}

/-! ## What the platform keeps -/

theorem KeepsPlatform.refl (s : State) : KeepsPlatform s s := ⟨rfl, rfl, rfl, rfl⟩

theorem KeepsPlatform.trans {u : State} (hst : KeepsPlatform s t) (htu : KeepsPlatform t u) : KeepsPlatform s u := by
  obtain ⟨hbus, hprobes, hdevices, hparams⟩ := hst
  obtain ⟨hbus', hprobes', hdevices', hparams'⟩ := htu
  exact ⟨hbus'.trans hbus, hprobes'.trans hprobes, hdevices'.trans hdevices, hparams'.trans hparams⟩

theorem State.processInterrupt_keepsPlatform (s : State) : KeepsPlatform s s.processInterrupt :=
  ⟨s.processInterrupt_busAttached, s.processInterrupt_busProbes, s.processInterrupt_devices, s.processInterrupt_params⟩

/-! ## The end of a step -/

/-- The latch is all that the step-mode interrupt writes (40_step_engine R127). -/
theorem State.stepModeInterrupt_frame (s : State) (if0 : Bool) :
    KeepsPlatform s (s.stepModeInterrupt if0) ∧ (s.stepModeInterrupt if0).skiping = s.skiping := by
  rcases s.stepModeInterrupt_cases if0 with e | ⟨-, -, -, e⟩
  · rw [e]; exact ⟨.refl s, rfl⟩
  · rw [e]; exact ⟨.refl s, rfl⟩

theorem State.endOfStep_keepsPlatform (s : State) (if0 : Bool) : KeepsPlatform s (s.endOfStep if0) :=
  (s.stepModeInterrupt_frame if0).1.trans (State.processInterrupt_keepsPlatform _)

theorem State.endOfStep_skiping (s : State) (if0 : Bool) : (s.endOfStep if0).skiping = s.skiping :=
  (State.processInterrupt_skiping _).trans (s.stepModeInterrupt_frame if0).2

/-! ## The parts of a step -/

/-- The state after the fetch of an instruction that is executed (40_step_engine R124, R125). -/
def State.fetched (s : State) : State := (s.fetchWord.2.fetchLiteral (header s.fetchWord.1)).2

/-- What the fetched words decode to; `none` for an unassigned opcode (40_step_engine R123, 30_encoding R96). -/
def State.decoded (s : State) : Option Instr :=
  decodeWords s.fetchWord.1 (s.fetchWord.2.fetchLiteral (header s.fetchWord.1)).1

/-- The state after an instruction is stepped over, before the interrupt check (40_step_engine R131). -/
def State.skipped (s : State) : State := s.fetchWord.2.skipOver (header s.fetchWord.1)

theorem State.fetched_flag (s : State) (k : Nat) : s.fetched.flag k = s.flag k := by
  obtain ⟨-, hregs, -⟩ := s.fetch_frame (header s.fetchWord.1)
  exact flag_eq_of_reg_eq (hregs .flags List.not_mem_nil) k

theorem State.fetched_skiping (s : State) : s.fetched.skiping = s.skiping := by
  obtain ⟨-, -, -, ⟨-, -, -, -, hskip, -⟩, -⟩ := s.fetch_frame (header s.fetchWord.1)
  exact hskip

theorem State.fetched_keepsPlatform (s : State) : KeepsPlatform s s.fetched := by
  obtain ⟨-, -, -, -, hplatform, -⟩ := s.fetch_frame (header s.fetchWord.1)
  exact hplatform

theorem State.skipped_keepsPlatform (s : State) : KeepsPlatform s s.skipped := by
  rw [State.skipped, State.skipOver_eq]
  exact .refl s

theorem execDecoded_next (i : Option Instr) (s : State) : ∃ t, execDecoded i s = .next t := by
  cases i with
  | none => exact ⟨s, rfl⟩
  | some j =>
    obtain ⟨t, ht, -⟩ := exec_next j s
    exact ⟨t, ht⟩

/-- An executed word keeps the platform, and begins a skip only if it is a conditional (40_step_engine R130). -/
theorem execDecoded_frame {i : Option Instr} (h : execDecoded i s = .next t) :
    KeepsPlatform s t ∧ (t.skiping ≠ s.skiping → ∃ j, i = some j ∧ IsConditional j) := by
  cases i with
  | none =>
    obtain rfl : s = t := by simpa [execDecoded] using h
    exact ⟨.refl s, fun hne => absurd rfl hne⟩
  | some j =>
    obtain ⟨-, -, -, hskip, -⟩ := sequencerChangesOnlyAsNamed j s t h
    exact ⟨(exec_cases h).keepsPlatform, fun hne => ⟨j, rfl, hskip hne⟩⟩

/-! ## The three ways of a `RealStep` -/

/-- What a `RealStep` leaves, and its cycles as a function of the costs. -/
inductive RealStepCase (s : State) : State → (Timing → Nat) → Prop
  | abort (hdebug : s.debugAbort = true) : RealStepCase s s fun _ => 0
  | skip (hdebug : s.debugAbort = false) (hskip : s.skiping = true) :
      RealStepCase s s.skipped.processInterrupt Timing.skipCost
  | execute (u : State) (hdebug : s.debugAbort = false) (hskip : s.skiping = false)
      (hu : execDecoded s.decoded s.fetched = .next u) :
      RealStepCase s (u.endOfStep (s.flag bitIF)) fun c => cyclesOf c (header s.fetchWord.1) u

theorem State.executeWord_fetched {u : State} (hu : execDecoded s.decoded s.fetched = .next u) (c : Timing) :
    s.fetchWord.2.executeWord c s.fetchWord.1 =
      .next (u.endOfStep (s.flag bitIF), cyclesOf c (header s.fetchWord.1) u) := by
  rw [← s.fetched_flag bitIF]
  simp only [State.decoded, State.fetched] at hu ⊢
  simp only [State.executeWord, hu]

/-- The state a `RealStep` leaves is the same for all costs, and it always leaves one. -/
theorem State.realStep_next (s : State) : ∃ t n, RealStepCase s t n ∧ ∀ c, s.realStep c = .next (t, n c) := by
  cases hdebug : s.debugAbort with
  | true => exact ⟨_, _, .abort hdebug, fun c => s.realStep_abort c hdebug⟩
  | false =>
    cases hskip : s.skiping with
    | true => exact ⟨_, _, .skip hdebug hskip, fun c => s.realStep_skip c hdebug hskip⟩
    | false =>
      obtain ⟨u, hu⟩ := execDecoded_next s.decoded s.fetched
      exact ⟨_, _, .execute u hdebug hskip hu, fun c =>
        (s.realStep_execute c hdebug hskip).trans (State.executeWord_fetched hu c)⟩

theorem State.realStep_cases {c : Timing} {k : Nat} (h : s.realStep c = .next (t, k)) :
    ∃ n, RealStepCase s t n ∧ k = n c := by
  obtain ⟨t', n, hcase, hstep⟩ := s.realStep_next
  obtain ⟨rfl, rfl⟩ : t' = t ∧ n c = k := by simpa [hstep] using h
  exact ⟨n, hcase, rfl⟩

theorem RealStepCase.keepsPlatform {n : Timing → Nat} (h : RealStepCase s t n) : KeepsPlatform s t := by
  cases h with
  | abort => exact .refl s
  | skip => exact s.skipped_keepsPlatform.trans (State.processInterrupt_keepsPlatform _)
  | execute u _ _ hu =>
    exact (s.fetched_keepsPlatform.trans (execDecoded_frame hu).1).trans (u.endOfStep_keepsPlatform _)

/-! ## The words that start a skip -/

/-- The conditionals are the opcodes 0x4B to 0x52 (30_encoding R95). -/
theorem opcode_of_isConditional {op : BitVec 8} {rd rs : Reg} {o : Operand} {i : Instr} (h : instrOf op rd rs o = some i)
    (hi : IsConditional i) : 0x4B#8 ≤ op ∧ op ≤ 0x52#8 := by
  unfold instrOf at h
  split at h <;> cases h
  all_goals simp only [IsConditional] at hi
  all_goals decide

/-- A word that decodes to a conditional is an IFxx (30_encoding R95). -/
theorem isIFxx_of_isConditional {w l : Word} {i : Instr} (h : decodeWords w l = some i) (hi : IsConditional i) :
    (header w).isIFxx = true := by
  obtain ⟨hlo, hhi⟩ := opcode_of_isConditional h hi
  obtain ⟨-, hp2, -⟩ := Class.ofOpcode_iff_range (header w).op
  have hcls : (header w).cls = .p2 := (Class.ofWord_eq_ofOpcode w).trans (hp2.2 (by bv_omega))
  simp only [Header.isIFxx, hcls, hlo, hhi, decide_true, Bool.and_self]

/-- An executed word that leaves the core skipping is an IFxx (40_step_engine R130). -/
theorem isIFxx_of_skiping {u : State} (hskip : s.skiping = false) (hu : execDecoded s.decoded s.fetched = .next u)
    (hus : u.skiping = true) : (header s.fetchWord.1).isIFxx = true := by
  obtain ⟨-, hcond⟩ := execDecoded_frame hu
  obtain ⟨i, hi, hif⟩ := hcond (by simp [hus, s.fetched_skiping, hskip])
  exact isIFxx_of_isConditional hi hif

end Sys2Proof.Machine
end

section
/-! One `Step` of an awake core: the decoded instruction, the debug probes, the step-mode interrupt, and the cycles
(40_step_engine R122 to R129, R136, R137). -/

namespace Sys2Proof.Machine

/-- Settles O50: every `RealStep` leaves one state for all cost tables, and asleep or without a bus none is looked at. -/
theorem costsChangeNoState : Obligations.CostsChangeNoState := by
  have hsame : ∀ (s : State) (c d : Timing), dropCycles (s.stepCycles c) = dropCycles (s.stepCycles d) := by
    intro s c d
    cases hbus : s.busAttached with
    | false => rw [s.stepCycles_noBus c hbus, s.stepCycles_noBus d hbus]
    | true =>
      cases hsleep : s.sleeping with
      | true => rw [s.stepCycles_asleep c hbus hsleep, s.stepCycles_asleep d hbus hsleep]
      | false =>
        obtain ⟨t, n, -, hstep⟩ := s.realStep_next
        rw [s.stepCycles_awake c hbus hsleep, s.stepCycles_awake d hbus hsleep, hstep, hstep]
        rfl
  exact fun s c d => ⟨hsame s c d, (step_eq_dropCycles s).trans (hsame s _ c)⟩

/-- Settles O51: the count of each case; the end of the step leaves `skiping` as the instruction did. -/
theorem cycleCounts : Obligations.CycleCounts := by
  intro s t c k hstep
  obtain ⟨n, hcase, rfl⟩ := State.realStep_cases hstep
  cases hcase with
  | abort hdebug => simp [hdebug]
  | skip hdebug hskip => simp [hdebug, hskip]
  | execute u hdebug hskip hu =>
    rw [u.endOfStep_skiping]
    exact ⟨by simp [hdebug], by simp [hskip], fun _ _ => ⟨rfl, isIFxx_of_skiping hskip hu⟩⟩

/-- A word fetched where no device answers is memory's (20_memory R54). -/
theorem State.PlainAt.readValue_eq_peekWord {s : State} {a : Word} (h : s.PlainAt a 4) :
    s.readValue .dword a = s.peekWord a := by
  rw [h.readValue_dword, above_zero, State.peekWord]

theorem State.fetchLiteral_eq_peekWord (s : State) {h : Header} (hb : h.big = true)
    (hplain : s.PlainAt (above s.pc 4) 4) : (s.fetchWord.2.fetchLiteral h).1 = s.peekWord (above s.pc 4) := by
  have hplain' : s.fetchWord.2.PlainAt (above s.pc 4) 4 := hplain
  rw [State.fetchLiteral_big _ h hb]
  exact hplain'.readValue_eq_peekWord

/-- Settles O9: the fetch has its frame, and `exec` of what was fetched always answers a state. -/
theorem stepRunsTheDecodedInstruction : Obligations.StepRunsTheDecodedInstruction := by
  intro s i hs w h litWord u hdecode
  obtain ⟨hpc, hregs, hmem, hseq, hplatform, hlog⟩ := s.fetch_frame h
  refine ⟨?_, hpc, hregs, hmem, hseq, hplatform, hlog, State.PlainAt.readValue_eq_peekWord,
    s.fetchLiteral_eq_peekWord⟩
  obtain ⟨t, ht, -⟩ := exec_next i u
  have hexec : execDecoded s.decoded s.fetched = .next t := by
    have hdecoded : s.decoded = some i := hdecode
    rw [hdecoded]
    exact ht
  rw [step_eq_dropCycles, s.stepCycles_ready hs, State.executeWord_fetched hexec, ht]
  rfl

theorem State.debugAbort_iff_of_probes {s : State} {p : Probes} (hp : s.busProbes = some p) :
    s.debugAbort = true ↔ p.halted = true ∨ s.pc ∈ p.breakPoints := by
  simp [State.debugAbort, hp]

theorem State.debugAbort_of_no_probes {s : State} (hp : s.busProbes = none) : s.debugAbort = false := by
  simp [State.debugAbort, hp]

/-- Settles O13. -/
theorem debugAbortChangesNothing : Obligations.DebugAbortChangesNothing := by
  intro s c hbus hsleep
  refine ⟨fun p hp htrue => ?_, fun p hp hhalted hbreak => ?_, State.debugAbort_of_no_probes⟩
  · have habort := (State.debugAbort_iff_of_probes hp).2 htrue
    have hstep : ∀ c, s.stepCycles c = .next (s, 0) := fun c =>
      (s.stepCycles_awake c hbus hsleep).trans (s.realStep_abort c habort)
    exact ⟨hstep c, by rw [step_eq_dropCycles, hstep]; rfl⟩
  · rw [← Bool.not_eq_true, State.debugAbort_iff_of_probes hp, hhalted]
    simpa using hbreak

/-- With all its conditions the step-mode interrupt latches `STEP_INT_MSG` (40_step_engine R127). -/
theorem State.stepModeInterrupt_latches {s : State} (hmode : s.stepMode = true) (hei : s.flag bitEI = true) :
    s.stepModeInterrupt false = (s.setInterrupt true).setIntMsg s.params.stepIntMsg := by
  have hmsg : (s.params.stepIntMsg.setWidth 32 : Word).setWidth 8 = s.params.stepIntMsg :=
    BitVec.setWidth_setWidth_of_le _ (by decide)
  simp only [State.stepModeInterrupt, hmode, Bool.not_false, Bool.and_self, if_true, s.sendInterrupt_enabled _ hei, hmsg]

/-- Settles O40. -/
theorem stepModeInterrupts : Obligations.StepModeInterrupts := by
  intro s if0
  refine ⟨fun hmode hif hei => ?_, fun hnot => ?_⟩
  · rw [hif, State.endOfStep, State.stepModeInterrupt_latches hmode hei]
    rfl
  · rcases s.stepModeInterrupt_cases if0 with e | ⟨hmode, hif, hei, -⟩
    · rw [State.endOfStep, e]
    · exact absurd ⟨hmode, hif, hei⟩ hnot

end Sys2Proof.Machine
end

section
/-! Skipping (40_step_engine R130 to R133): one step over an instruction, and a chain of them. -/

namespace Sys2Proof.Machine

variable {s t : State}

/-! ## One step over an instruction -/

/-- Stepping over an instruction reads its first word, moves the pc past the whole of it, sets `skiping`, and does nothing else
(40_step_engine R131). -/
theorem State.skipped_frame (s : State) :
    let h := header (s.readValue .dword s.pc)
    s.skipped.pc = above s.pc h.length ∧ s.skipped.skiping = h.isIFxx ∧ KeepsRegsBut [] s s.skipped ∧
      KeepsMemory s s.skipped ∧ s.skipped.busLog = s.busLog ++ [.read .dword s.pc] ∧
      s.skipped.waitCycles = s.waitCycles ∧ s.skipped.intMsg = s.intMsg ∧ s.skipped.interrupt = s.interrupt ∧
      s.skipped.stepMode = s.stepMode ∧ s.skipped.sleeping = s.sleeping ∧ KeepsPlatform s s.skipped := by
  rw [State.skipped, State.skipOver_eq]
  refine ⟨?_, rfl, fun _ _ => rfl, fun _ => rfl, rfl, rfl, rfl, rfl, rfl, rfl, ⟨rfl, rfl, rfl, rfl⟩⟩
  rw [Header.length, s.fetchWord_fst]
  cases (header (s.readValue .dword s.pc)).big with
  | false => simp
  | true => simp [BitVec.add_assoc]

theorem step_of_skiping (hbus : s.busAttached = true) (hsleep : s.sleeping = false) (hskip : s.skiping = true)
    (hdebug : s.debugAbort = false) : step s = .next s.skipped.processInterrupt := by
  rw [step_eq_dropCycles, s.stepCycles_awake _ hbus hsleep, s.realStep_skip _ hdebug hskip]
  rfl

/-- In a skip no interrupt is accepted (60 R334). -/
theorem State.processInterrupt_of_skiping (h : s.skiping = true) : s.processInterrupt = s :=
  s.processInterrupt_of_not_accepts (by simp [State.accepts, h])

theorem State.processInterrupt_of_not_pending (h : s.interrupt = false) : s.processInterrupt = s :=
  s.processInterrupt_of_not_accepts (by simp [State.accepts, h])

/-- Settles O11. -/
theorem skippedInstructionIsSteppedOver : Obligations.SkippedInstructionIsSteppedOver := by
  intro s hbus hsleep hskip hdebug h
  have hstep := step_of_skiping hbus hsleep hskip hdebug
  obtain ⟨-, hskiping, -⟩ := s.skipped_frame
  refine ⟨s.skipped, hstep, fun hif => ?_, s.skipped_frame⟩
  rw [hstep, State.processInterrupt_of_skiping (hskiping.trans hif)]

/-! ## A chain of instructions -/

theorem KeepsRegsBut.trans {ds : List Reg} {u : State} (hst : KeepsRegsBut ds s t) (htu : KeepsRegsBut ds t u) :
    KeepsRegsBut ds s u :=
  fun q hq => (htu q hq).trans (hst q hq)

theorem KeepsMemory.trans {u : State} (hst : KeepsMemory s t) (htu : KeepsMemory t u) : KeepsMemory s u :=
  fun x => (htu x).trans (hst x)

theorem KeepsPlatform.isDevice (h : KeepsPlatform s t) (x : Word) : t.isDevice x = s.isDevice x := by
  obtain ⟨-, -, hdevices, -⟩ := h
  rw [State.isDevice, hdevices, State.isDevice]

/-- Code stays where it lies while memory and the devices do. -/
theorem State.CodeAt.of_kept (hmem : KeepsMemory s t) (hplatform : KeepsPlatform s t) {ws : List Word} {a : Word}
    (h : s.CodeAt a ws) : t.CodeAt a ws := by
  induction ws generalizing a with
  | nil => trivial
  | cons w ws ih =>
    obtain ⟨hplain, hword, hrest⟩ := h
    refine ⟨fun k hk => (hplatform.isDevice _).trans (hplain k hk), ?_, ih hrest⟩
    rw [State.peekWord, hmem, hmem, hmem, hmem]
    exact hword

/-- A core that steps over the next instruction, with no probe to abort it and no interrupt to take after it. -/
structure State.SkipsQuietly (s : State) : Prop where
  bus : s.busAttached = true
  awake : s.sleeping = false
  skiping : s.skiping = true
  noProbes : s.busProbes = none
  notPending : s.interrupt = false

/-- One link of a skip chain: the word at the pc is stepped over, and the core skips on exactly over an IFxx. -/
theorem State.SkipsQuietly.step_over (hs : s.SkipsQuietly) {w : Word} {ws : List Word} (hcode : s.CodeAt s.pc (w :: ws)) :
    ∃ t, step s = .next t ∧ t.skiping = (header w).isIFxx ∧ ((header w).isIFxx = true → t.SkipsQuietly) ∧
      t.pc = above s.pc (header w).length ∧ t.CodeAt t.pc ws ∧ KeepsRegsBut [] s t ∧ KeepsMemory s t := by
  obtain ⟨hplain, hword, hrest⟩ := hcode
  obtain ⟨hpc, hskip, hregs, hmem, -, -, -, hint, -, hsleep, hplatform⟩ := s.skipped_frame
  rw [hplain.readValue_eq_peekWord, hword] at hpc hskip
  have hpending : s.skipped.interrupt = false := hint.trans hs.notPending
  have hstep := step_of_skiping hs.bus hs.awake hs.skiping (State.debugAbort_of_no_probes hs.noProbes)
  rw [State.processInterrupt_of_not_pending hpending] at hstep
  refine ⟨s.skipped, hstep, hskip, fun hif => ?_, hpc, ?_, hregs, hmem⟩
  · obtain ⟨hbus, hprobes, -⟩ := hplatform
    exact ⟨hbus.trans hs.bus, hsleep.trans hs.awake, hskip.trans hif, hprobes.trans hs.noProbes, hpending⟩
  · rw [hpc]
    exact hrest.of_kept hmem hplatform

theorem core_run_succ (h : step s = .next t) (k : Nat) : Sys2Proof.core.run (k + 1) s = Sys2Proof.core.run k t := by
  have hcore : Sys2Proof.core.step s = .next t := h
  simp only [Host.Core.run, hcore]

/-- A skip chain, link by link. -/
theorem State.SkipsQuietly.run_chain {conds : List Word} {x : Word} (hs : s.SkipsQuietly)
    (hconds : ∀ c ∈ conds, (header c).isIFxx = true) (hx : (header x).isIFxx = false)
    (hcode : s.CodeAt s.pc (conds ++ [x])) :
    ∃ t, Sys2Proof.core.run (conds.length + 1) s = .next t ∧ t.skiping = false ∧
      t.pc = above s.pc (codeLength (conds ++ [x])) ∧ KeepsRegsBut [] s t ∧ KeepsMemory s t := by
  induction conds generalizing s with
  | nil =>
    obtain ⟨t, hstep, hskip, -, hpc, -, hregs, hmem⟩ := hs.step_over hcode
    exact ⟨t, core_run_succ hstep 0, hskip.trans hx, by simpa [codeLength] using hpc, hregs, hmem⟩
  | cons c conds ih =>
    obtain ⟨hc, hconds⟩ := List.forall_mem_cons.1 hconds
    obtain ⟨u, hstep, -, hquiet, hpc, hcode, hregs, hmem⟩ := hs.step_over hcode
    obtain ⟨t, hrun, hskip, hpc', hregs', hmem'⟩ := ih (hquiet hc) hconds hcode
    refine ⟨t, (core_run_succ hstep _).trans hrun, hskip, ?_, hregs.trans hregs', hmem.trans hmem'⟩
    rw [hpc', hpc, above_above]
    rfl

/-- Settles O12. -/
theorem skipChainStepsOverOneInstruction : Obligations.SkipChainStepsOverOneInstruction :=
  fun _ _ _ hbus hsleep hskip hprobes hint hconds hx hcode =>
    State.SkipsQuietly.run_chain ⟨hbus, hsleep, hskip, hprobes, hint⟩ hconds hx hcode

end Sys2Proof.Machine
end

section
/-! What a push stored a pop reads back (40_step_engine R138 to R142), so POP undoes PUSH and RET undoes the calls. -/

namespace Sys2Proof.Machine

variable {s t : State}

/-- A word stored to plain bytes is read back whole (20_memory R53). -/
theorem StoresBytes.readValue_dword {a v : Word} (h : StoresBytes s t a v 4) (hs : s.PlainAt a 4) (ht : t.PlainAt a 4) :
    t.readValue .dword a = v := by
  obtain ⟨hbytes, -⟩ := h
  have hbyte : ∀ k, k < 4 → t.peek (above a k) = byteOf v k := fun k hk => hbytes k hk (hs k hk)
  rw [ht.readValue_dword, hbyte 0 (by decide), hbyte 1 (by decide), hbyte 2 (by decide), hbyte 3 (by decide)]
  exact wordOfBytes_bytesOfWord v

/-- After a push below SP on plain memory, the word at SP is the one pushed, and popping it brings SP back. -/
theorem PushEffect.popped {v pc : Word} (h : PushEffect s t v pc) (hs : s.PlainAt (s.reg .sp - 4#32) 4) :
    t.readValue .dword (t.reg .sp) = v ∧ t.reg .sp + 4#32 = s.reg .sp := by
  obtain ⟨hsp, -, hstore, -, -, -, hplatform⟩ := h
  rw [hsp]
  exact ⟨hstore.readValue_dword hs fun k hk => (hplatform.isDevice _).trans (hs k hk), BitVec.sub_add_cancel _ _⟩

/-- POP writes the register first and SP after it, from SP as it then is (45_p1 R283). -/
theorem exec_pop_reg (rn : Reg) (s : State) :
    ∃ u, exec (.pop (.reg rn)) s = .next u ∧
      ∀ q, u.reg q = if q = .sp then (if rn = .sp then s.readValue .dword (s.reg .sp) else s.reg .sp) + 4#32
        else if q = rn then s.readValue .dword (s.reg .sp) else s.reg q := by
  refine ⟨_, rfl, fun q => ?_⟩
  simp [eq_comm]

/-- POP of a register after a push (45_p1 R283). -/
theorem PushEffect.pop_effect {v pc : Word} (h : PushEffect s t v pc) (hs : s.PlainAt (s.reg .sp - 4#32) 4) (rn : Reg) :
    ∃ u, exec (.pop (.reg rn)) t = .next u ∧ u.reg rn = (if rn = .sp then v + 4#32 else v) ∧ KeepsRegsBut [rn] s u := by
  obtain ⟨hread, hsp⟩ := h.popped hs
  obtain ⟨-, hregs, -⟩ := h
  obtain ⟨u, hpop, hu⟩ := exec_pop_reg rn t
  refine ⟨u, hpop, ?_, fun q hq => ?_⟩
  · by_cases hrn : rn = .sp <;> simp [hu, hread, hrn]
  · have hne : q ≠ rn := by simpa using hq
    by_cases hq' : q = .sp
    · subst hq'
      simp [hu, Ne.symm hne, hsp]
    · rw [hu, if_neg hq', if_neg hne, hregs q (by simpa using hq')]

/-- RET after a call (46_np R311). -/
theorem PushEffect.ret_effect {v pc : Word} (h : PushEffect s t v pc) (hs : s.PlainAt (s.reg .sp - 4#32) 4) :
    ∃ u, exec .ret t = .next u ∧ u.pc = v &&& 0xFFFFFFFC#32 ∧ KeepsRegsBut [] s u := by
  obtain ⟨hread, hsp⟩ := h.popped hs
  obtain ⟨-, hregs, -⟩ := h
  refine ⟨_, rfl, congrArg (· &&& 0xFFFFFFFC#32) hread, fun q _ => ?_⟩
  by_cases hq : q = .sp
  · subst hq
    simpa [State.jump_eq] using hsp
  · simp [State.jump_eq, hq, hregs q (by simpa using hq)]

/-- Settles O37: PUSH and the three calls have the effect of a push, which POP and RET undo. -/
theorem stackRoundTrips : Obligations.StackRoundTrips := by
  intro s hplain
  refine ⟨fun o rn => ?_, fun rd o i hi => ?_⟩
  · obtain ⟨u, hpop, hu⟩ := (s.push32_effect (s.op2 o)).pop_effect hplain rn
    exact ⟨_, u, rfl, hpop, hu⟩
  · have hcall : ∃ target, exec i s = .next (s.call target) := by
      simp only [List.mem_cons, List.not_mem_nil, or_false] at hi
      rcases hi with rfl | rfl | rfl <;> exact ⟨_, rfl⟩
    obtain ⟨target, hcall⟩ := hcall
    obtain ⟨u, hret, hu⟩ := (s.call_effect target).ret_effect hplain
    exact ⟨_, u, hcall, hret, hu⟩

end Sys2Proof.Machine
end

section
/-! Sleep and ticks (40_step_engine R134, R135): what one cycle of `Tick` does, asleep, waiting and issuing, and what a run of cycles
adds up to. -/

namespace Sys2Proof.Machine

variable {s t : State}

/-! ## One cycle -/

theorem State.tickCycle_asleep (c : Timing) (hsleep : s.sleeping = true) : s.tickCycle c = .next s.processInterrupt := by
  simp [State.tickCycle, hsleep]

/-- A cycle of an awake core with cycles left to wait. -/
theorem State.tickCycle_waiting (c : Timing) (hsleep : s.sleeping = false) (hwait : s.waitCycles ≠ 0#32) :
    s.tickCycle c = .next (s.setWaitCycles (s.waitCycles - 1#32)) := by
  simp [State.tickCycle, hsleep, hwait]

/-- A cycle in which an instruction is issued, or aborted: then nothing is left to wait for. -/
theorem State.tickCycle_issuing {c : Timing} {n : Nat} (hsleep : s.sleeping = false) (hwait : s.waitCycles = 0#32)
    (hstep : s.realStep c = .next (t, n)) :
    s.tickCycle c = .next (if 0 < n then t.setWaitCycles (BitVec.ofNat 32 (n - 1)) else t) := by
  simp [State.tickCycle, hsleep, hwait, hstep]

theorem State.tickCycle_next (s : State) (c : Timing) : ∃ t, s.tickCycle c = .next t ∧ KeepsPlatform s t := by
  cases hsleep : s.sleeping with
  | true => exact ⟨_, State.tickCycle_asleep c hsleep, s.processInterrupt_keepsPlatform⟩
  | false =>
    by_cases hwait : s.waitCycles = 0#32
    · obtain ⟨t, n, hcase, hstep⟩ := s.realStep_next
      refine ⟨_, State.tickCycle_issuing hsleep hwait (hstep c), ?_⟩
      split <;> exact hcase.keepsPlatform
    · exact ⟨_, State.tickCycle_waiting c hsleep hwait, .refl s⟩

/-! ## A run of cycles -/

theorem State.tickCycles_succ {c : Timing} (h : s.tickCycle c = .next t) (n : Nat) :
    s.tickCycles c (n + 1) = t.tickCycles c n := by
  simp only [State.tickCycles, h]

theorem State.tick_attached (h : s.busAttached = true) (c : Timing) (n : Nat) : s.tick c n = s.tickCycles c n := by
  simp [State.tick, h]

/-- A run of cycles ends in some state with the same platform, and a longer run goes on from there. -/
theorem State.tickCycles_next (s : State) (c : Timing) (m : Nat) :
    ∃ t, s.tickCycles c m = .next t ∧ KeepsPlatform s t ∧ ∀ n, s.tickCycles c (m + n) = t.tickCycles c n := by
  induction m generalizing s with
  | zero => exact ⟨s, rfl, .refl s, fun n => by rw [Nat.zero_add]⟩
  | succ m ih =>
    obtain ⟨u, hcycle, hsu⟩ := s.tickCycle_next c
    obtain ⟨t, hrun, hut, hadd⟩ := ih u
    refine ⟨t, (State.tickCycles_succ hcycle m).trans hrun, hsu.trans hut, fun n => ?_⟩
    rw [Nat.succ_add, State.tickCycles_succ hcycle, hadd]

/-- Settles O53: the cycles of the longer run are those of the shorter and then the rest, on a bus that stays attached. -/
theorem ticksAddUp : Obligations.TicksAddUp := by
  intro s t c m n h
  cases hbus : s.busAttached with
  | false => simp [s.tick_noBus c m hbus] at h
  | true =>
    obtain ⟨u, hrun, ⟨hattached, -⟩, hadd⟩ := s.tickCycles_next c m
    obtain rfl : u = t := by simpa [State.tick_attached hbus, hrun] using h
    rw [State.tick_attached hbus, hadd, State.tick_attached (hattached.trans hbus)]

/-! ## Waiting -/

/-- One cycle of the wait. -/
theorem State.tickCycle_countdown (c : Timing) (hsleep : s.sleeping = false) {m : Nat} (hm : m + 1 < 2 ^ 32) :
    (s.setWaitCycles (BitVec.ofNat 32 (m + 1))).tickCycle c = .next (s.setWaitCycles (BitVec.ofNat 32 m)) := by
  have hne : BitVec.ofNat 32 (m + 1) ≠ 0#32 := by bv_omega
  have hpred : BitVec.ofNat 32 (m + 1) - 1#32 = BitVec.ofNat 32 m := by bv_omega
  rw [← hpred]
  exact State.tickCycle_waiting (s := s.setWaitCycles _) c hsleep hne

/-- As many cycles as are left to wait only count them down (40_step_engine R135). -/
theorem State.tickCycles_countdown (c : Timing) (hsleep : s.sleeping = false) {m k : Nat} (hm : m < 2 ^ 32) (hk : k ≤ m) :
    (s.setWaitCycles (BitVec.ofNat 32 m)).tickCycles c k = .next (s.setWaitCycles (BitVec.ofNat 32 (m - k))) := by
  induction k generalizing m with
  | zero => rfl
  | succ k ih =>
    cases m with
    | zero => exact absurd hk (Nat.not_succ_le_zero k)
    | succ m =>
      rw [State.tickCycles_succ (State.tickCycle_countdown c hsleep hm), ih (by omega) (by omega), Nat.add_sub_add_right]

/-- Settles O52: the first cycle issues the instruction, every other one counts. -/
theorem instructionOccupiesItsCycles : Obligations.InstructionOccupiesItsCycles := by
  intro s t c n j hbus hsleep hwait hstep htsleep hn hj hjn
  obtain ⟨k, rfl⟩ : ∃ k, j = k + 1 := ⟨j - 1, by omega⟩
  have hissue := State.tickCycle_issuing hsleep hwait hstep
  rw [if_pos (by omega)] at hissue
  rw [State.tick_attached hbus, State.tickCycles_succ hissue,
    State.tickCycles_countdown c htsleep (by omega) (by omega), Nat.sub_sub, Nat.add_comm 1 k]
  rfl

/-! ## Sleeping -/

/-- Asleep with EI clear nothing is accepted (60 R334). -/
theorem State.Quiescent.processInterrupt (h : s.Quiescent) : s.processInterrupt = s := by
  obtain ⟨-, hei⟩ := h
  exact s.processInterrupt_of_not_accepts (by simp [State.accepts, hei])

theorem State.Quiescent.tickCycles (h : s.Quiescent) (c : Timing) (n : Nat) : s.tickCycles c n = .next s := by
  have hcycle : s.tickCycle c = .next s := by rw [State.tickCycle_asleep c h.1, h.processInterrupt]
  induction n with
  | zero => rfl
  | succ n ih => rw [State.tickCycles_succ hcycle, ih]

/-- Settles O42. -/
theorem sleepingCore : Obligations.SleepingCore := by
  intro s c hbus
  refine ⟨s.stepCycles_asleep c hbus, fun hquiet => ⟨?_, fun n => ?_⟩⟩
  · rw [step_eq_dropCycles, s.stepCycles_asleep _ hbus hquiet.1, hquiet.processInterrupt]
    rfl
  · rw [State.tick_attached hbus, hquiet.tickCycles]

end Sys2Proof.Machine
end

section
/-! The P3 instructions that end in rd, CF and OF (41_p3_alu R160 to R174, R179 to R183): bitwise results, sums, differences, the
overflow flag, shifts and rotates. -/

namespace Sys2Proof.Machine

variable {s t : State}

/-- Settles O16: the result is written with both flags 0. -/
theorem bitwiseResults : Obligations.BitwiseResults := fun rd _ _ s =>
  ⟨⟨_, rfl, s.writeAlu_effect rd (plainOut _)⟩, ⟨_, rfl, s.writeAlu_effect rd (plainOut _)⟩,
    ⟨_, rfl, s.writeAlu_effect rd (plainOut _)⟩, ⟨_, rfl, s.writeAlu_effect rd (plainOut _)⟩⟩

/-! ## Sums and differences -/

/-- What ADD and ADDC write (41_p3_alu R181). -/
theorem State.writeAlu_addOut_effect (s : State) (rd : Reg) (a b : Word) (c : Bool) :
    SumEffect s (s.writeAlu rd (addOut a b c)) rd a b c := by
  dsimp only [SumEffect]
  rw [← addOut_result, ← addOut_cf, ← addOut_of]
  exact s.writeAlu_effect rd _

/-- What SUB, SUBB, RSB and RSBB write (41_p3_alu R182). -/
theorem State.writeAlu_subOut_effect (s : State) (rd : Reg) (m u : Word) (c : Bool) :
    DifferenceEffect s (s.writeAlu rd (subOut m u c)) rd m u c := by
  dsimp only [DifferenceEffect]
  rw [← subOut_result, ← subOut_cf, ← subOut_of]
  exact s.writeAlu_effect rd _

/-- Settles O17: without an incoming carry for ADD, with CF for ADDC. -/
theorem additionResults : Obligations.AdditionResults := fun rd _ _ s =>
  ⟨⟨_, rfl, s.writeAlu_addOut_effect rd _ _ _⟩, ⟨_, rfl, s.writeAlu_addOut_effect rd _ _ _⟩⟩

/-- Settles O18: the minuend is rs for SUB and SUBB, the operand for RSB and RSBB. -/
theorem subtractionResults : Obligations.SubtractionResults := fun rd _ _ s =>
  ⟨⟨_, rfl, s.writeAlu_subOut_effect rd _ _ _⟩, ⟨_, rfl, s.writeAlu_subOut_effect rd _ _ _⟩,
    ⟨_, rfl, s.writeAlu_subOut_effect rd _ _ _⟩, ⟨_, rfl, s.writeAlu_subOut_effect rd _ _ _⟩⟩

/-! ## Signed overflow -/

/-- Bit 31 is the sign. -/
theorem getLsbD_31_eq (w : Word) : w.getLsbD 31 = decide (w.toInt < 0) :=
  (BitVec.msb_eq_getLsbD_last w).symm.trans BitVec.msb_eq_toInt

/-- A word's signed value: its unsigned value up to multiples of 2^32, in the signed range. -/
theorem toInt_spec (w : Word) : (∃ k, w.toInt = w.toNat + 2 ^ 32 * k) ∧ -2 ^ 31 ≤ w.toInt ∧ w.toInt < 2 ^ 31 := by
  obtain ⟨k, hk⟩ : (2 ^ 32 : Int) ∣ w.toInt - w.toNat := by
    rw [BitVec.toInt_eq_toNat_bmod]
    exact Int.dvd_bmod_sub_self
  exact ⟨⟨k, by omega⟩, BitVec.le_toInt w, BitVec.toInt_lt⟩

theorem AluEffect.flag_of {rd : Reg} {r : Word} {c o : Bool} (h : AluEffect s t rd r c o) : t.flag bitOF = o := by
  obtain ⟨-, hflag, -⟩ := h
  rw [hflag]
  rfl

/-- An incoming carry or borrow as a number. -/
theorem cast_toNat_eq_ite (c : Bool) : (c.toNat : Int) = if c = true then 1 else 0 := by cases c <;> rfl

/-- Operands of one sign and a result of the other: the exact sum is out of range (41_p3_alu R181). -/
theorem SumEffect.overflow {rd : Reg} {a b : Word} {c : Bool} (h : SumEffect s t rd a b c) :
    OverflowSays t (a.toInt + b.toInt + if c = true then 1 else 0) := by
  refine (AluEffect.flag_of h).trans ?_
  have hsum : (BitVec.ofNat 32 (a.toNat + b.toNat + c.toNat)).toNat = (a.toNat + b.toNat + c.toNat) % 2 ^ 32 :=
    BitVec.toNat_ofNat _ _
  generalize BitVec.ofNat 32 (a.toNat + b.toNat + c.toNat) = r at hsum
  obtain ⟨⟨ka, ha⟩, hale, halt⟩ := toInt_spec a
  obtain ⟨⟨kb, hb⟩, hble, hblt⟩ := toInt_spec b
  obtain ⟨⟨kr, hr⟩, hrle, hrlt⟩ := toInt_spec r
  have hc := c.toNat_le
  rw [← cast_toNat_eq_ite, Bool.eq_iff_iff]
  simp only [getLsbD_31_eq, Bool.and_eq_true, decide_eq_true_eq, ne_eq, decide_eq_decide]
  omega

/-- A minuend and a subtrahend of different signs and a result of the subtrahend's: the exact difference is out of range
(41_p3_alu R182). -/
theorem DifferenceEffect.overflow {rd : Reg} {m u : Word} {c : Bool} (h : DifferenceEffect s t rd m u c) :
    OverflowSays t (m.toInt - u.toInt - if c = true then 1 else 0) := by
  refine (AluEffect.flag_of h).trans ?_
  have hdiff : ((BitVec.ofInt 32 (m.toNat - u.toNat - c.toNat)).toNat : Int) = (m.toNat - u.toNat - c.toNat) % 2 ^ 32 := by
    rw [BitVec.toNat_ofInt]
    omega
  generalize BitVec.ofInt 32 (m.toNat - u.toNat - c.toNat) = r at hdiff
  obtain ⟨⟨km, hm⟩, hmle, hmlt⟩ := toInt_spec m
  obtain ⟨⟨ku, hu⟩, hule, hult⟩ := toInt_spec u
  obtain ⟨⟨kr, hr⟩, hrle, hrlt⟩ := toInt_spec r
  have hc := c.toNat_le
  rw [← cast_toNat_eq_ite, Bool.eq_iff_iff]
  simp only [getLsbD_31_eq, Bool.and_eq_true, decide_eq_true_eq, ne_eq, decide_eq_decide]
  omega

/-- Settles O19, from the effects of the six instructions. -/
theorem overflowFlagIsExact : Obligations.OverflowFlagIsExact := by
  intro rd rs o s a b c
  obtain ⟨add, addc⟩ := additionResults rd rs o s
  obtain ⟨sub, subb, rsb, rsbb⟩ := subtractionResults rd rs o s
  exact ⟨add.imp fun _ ⟨h, sum⟩ => ⟨h, by simpa using sum.overflow⟩, addc.imp fun _ ⟨h, sum⟩ => ⟨h, sum.overflow⟩,
    sub.imp fun _ ⟨h, diff⟩ => ⟨h, by simpa using diff.overflow⟩, subb.imp fun _ ⟨h, diff⟩ => ⟨h, diff.overflow⟩,
    rsb.imp fun _ ⟨h, diff⟩ => ⟨h, by simpa using diff.overflow⟩, rsbb.imp fun _ ⟨h, diff⟩ => ⟨h, diff.overflow⟩⟩

/-! ## Shifts and rotates -/

/-- Settles O20: the laws speak of the shift amount and of the two carries by name. -/
theorem shiftAndRotateResults : Obligations.ShiftAndRotateResults := by
  intro rd rs o s
  dsimp only
  rw [← shiftAmount_eq, ← leftCarry_eq, ← rightCarry_eq]
  exact ⟨⟨_, _, rfl, s.writeAlu_effect rd _, llsOut_bit _ _⟩,
    ⟨_, _, rfl, s.writeAlu_effect rd _, fun k _ => rlsOut_bit _ _ k⟩,
    ⟨_, _, rfl, s.writeAlu_effect rd _, arsOut_bit _ _⟩,
    ⟨_, _, rfl, s.writeAlu_effect rd _, rotlOut_bit _ _⟩,
    ⟨_, _, rfl, s.writeAlu_effect rd _, rotrOut_bit _ _⟩⟩

end Sys2Proof.Machine
end

section
/-! The P3 instructions that end in rd and Y (41_p3_alu R175 to R179): products, quotients with their remainders, the divide error. -/

namespace Sys2Proof.Machine

variable {s : State} {o : Operand}

/-! ## Products -/

/-- Settles O21: the two halves of a 64-bit value that is the exact product. -/
theorem productResults : Obligations.ProductResults := fun rd _ _ s =>
  ⟨⟨_, _, _, rfl, s.writeAluY_effect rd _, mulOut_exact _ _⟩, ⟨_, _, _, rfl, s.writeAluY_effect rd _, smulOut_exact _ _⟩⟩

/-! ## Division -/

theorem exec_div_zero (rd rs : Reg) (h : s.op2 o = 0#32) : exec (.div rd rs o) s = .next s.divideError :=
  congrArg Host.Outcome.next (if_pos h)

theorem exec_div_nonzero (rd rs : Reg) (h : s.op2 o ≠ 0#32) :
    exec (.div rd rs o) s = .next (s.writeAluY rd (divOut (s.reg rs) (s.op2 o))) :=
  congrArg Host.Outcome.next (if_neg h)

theorem exec_sdiv_zero (rd rs : Reg) (h : s.op2 o = 0#32) : exec (.sdiv rd rs o) s = .next s.divideError :=
  congrArg Host.Outcome.next (if_pos h)

theorem exec_sdiv_nonzero (rd rs : Reg) (h : s.op2 o ≠ 0#32) :
    exec (.sdiv rd rs o) s =
      .next (s.writeAluY rd (sdivOut ⟨s.params.sdivOvfQuotient, s.params.sdivOvfRemainder⟩ (s.reg rs) (s.op2 o))) :=
  congrArg Host.Outcome.next (if_neg h)

/-- Settles O22: the divisor decides between the divide error and the two results. -/
theorem unsignedDivision : Obligations.UnsignedDivision := fun rd rs _ s =>
  ⟨fun h => ⟨_, exec_div_zero rd rs h, s.divideError_effect⟩,
    fun h => ⟨_, _, _, exec_div_nonzero rd rs h, s.writeAluY_effect rd _, divOut_exact _ _⟩⟩

theorem tmod_nonpos {a : Int} (b : Int) (h : a ≤ 0) : a.tmod b ≤ 0 := by
  have hneg := Int.tmod_nonneg b (neg_nonneg.2 h)
  rwa [Int.neg_tmod, neg_nonneg] at hneg

/-- The remainder of a division toward zero is smaller than the divisor in magnitude. -/
theorem natAbs_tmod_lt (a : Int) {b : Int} (hb : b ≠ 0) : (a.tmod b).natAbs < b.natAbs := by
  rw [Int.natAbs_tmod]
  exact Nat.mod_lt _ (Int.natAbs_pos.2 hb)

/-- Settles O23: what `a - q * b` leaves of a quotient toward zero is `tmod`, which has the dividend's sign. -/
theorem signedDivision : Obligations.SignedDivision := by
  refine ⟨fun rd rs o s => ⟨fun hb => ?_, fun ha hb => ?_, fun hb hovf => ?_⟩, rfl, rfl⟩
  · exact ⟨_, exec_sdiv_zero rd rs hb, s.divideError_effect⟩
  · have hb0 : s.op2 o ≠ 0#32 := by rw [hb]; decide
    refine ⟨_, exec_sdiv_nonzero rd rs hb0, ?_⟩
    rw [ha, hb, sdivOut_ovf]
    exact s.writeAluY_effect rd _
  · obtain ⟨hq, hr⟩ := sdivOut_exact ⟨s.params.sdivOvfQuotient, s.params.sdivOvfRemainder⟩ (s.reg rs) (s.op2 o) hb hovf
    have hb0 : (s.op2 o).toInt ≠ 0 := fun h => hb (BitVec.eq_of_toInt_eq h)
    refine ⟨_, _, _, exec_sdiv_nonzero rd rs hb, s.writeAluY_effect rd _, hq, ?_, ?_, ?_, ?_⟩
    · rw [hr, hq, Int.tmod_def, Int.mul_comm]
    · rw [hr]
      exact fun h => Int.tmod_nonneg _ h
    · rw [hr]
      exact tmod_nonpos _
    · rw [hr]
      exact natAbs_tmod_lt _ hb0

end Sys2Proof.Machine
end

section
/-! Loads and stores (42_p3_load_store R200 to R207, 43_p2_data R225 to R232): one bus call at the effective address of the form. -/

namespace Sys2Proof.Machine

/-! ## Effective addresses -/

theorem State.ea3_eq (s : State) (rs : Reg) (o : Operand) : s.ea3 rs o = s.reg rs + s.op2 o := rfl

theorem State.ea2_eq (s : State) (o : Operand) : s.ea2 o = s.op2 o := rfl

/-! ## The obligations -/

/-- Settles O24: each of the six is a `loadTo` of its width at its form's address. -/
theorem loadResults : Obligations.LoadResults := fun rd rs o s =>
  ⟨s.ea3_eq rs o, s.ea2_eq o,
    ⟨_, rfl, s.loadTo_effect .dword rd _⟩, ⟨_, rfl, s.loadTo_effect .word rd _⟩, ⟨_, rfl, s.loadTo_effect .byte rd _⟩,
    ⟨_, rfl, s.loadTo_effect .dword rd _⟩, ⟨_, rfl, s.loadTo_effect .word rd _⟩, ⟨_, rfl, s.loadTo_effect .byte rd _⟩⟩

/-- Settles O25: each of the six is a `storeFrom` of its width at its form's address. -/
theorem storeResults : Obligations.StoreResults := fun rd rs o s =>
  ⟨s.ea3_eq rs o, s.ea2_eq o,
    ⟨_, rfl, s.storeFrom_effect .dword rd _⟩, ⟨_, rfl, s.storeFrom_effect .word rd _⟩,
    ⟨_, rfl, s.storeFrom_effect .byte rd _⟩, ⟨_, rfl, s.storeFrom_effect .dword rd _⟩,
    ⟨_, rfl, s.storeFrom_effect .word rd _⟩, ⟨_, rfl, s.storeFrom_effect .byte rd _⟩⟩

end Sys2Proof.Machine
end

section
/-! Moves, exchanges and GETPC (43_p2_data R220 to R224, R231; 45_p1 R280 to R282): each writes registers and nothing else, so its
effect is the frame of a register write together with the value written. -/

namespace Sys2Proof.Machine

variable {s t : State}

/-! ## The frame of a register write -/

theorem OnlyRegs.refl (s : State) : OnlyRegs s s :=
  ⟨rfl, ⟨fun _ => rfl, rfl⟩, ⟨rfl, rfl, rfl, rfl, rfl, rfl⟩, KeepsPlatform.refl s⟩

theorem OnlyRegs.setReg (h : OnlyRegs s t) (r : Reg) (v : Word) : OnlyRegs s (t.setReg r v) := by
  obtain ⟨hpc, hbus, hseq, hplatform⟩ := h
  exact ⟨hpc, hbus, hseq, hplatform⟩

theorem State.setReg_effect (s : State) (rd : Reg) (v : Word) : RegEffect s (s.setReg rd v) rd v := by
  refine ⟨by simp, fun q hq => ?_, (OnlyRegs.refl s).setReg rd v⟩
  have hne : q ≠ rd := by simpa using hq
  simp [hne]

/-- What SWP of two registers does; rd = rn is included (43 R221). -/
theorem State.setReg_setReg_exchange (s : State) (rd rn : Reg) :
    let t := (s.setReg rd (s.reg rn)).setReg rn (s.reg rd)
    t.reg rd = s.reg rn ∧ t.reg rn = s.reg rd ∧ KeepsRegsBut [rd, rn] s t ∧ OnlyRegs s t := by
  refine ⟨?_, by simp, fun q hq => ?_, ((OnlyRegs.refl s).setReg rd _).setReg rn _⟩
  · by_cases h : rd = rn <;> simp [h]
  · have hne : q ≠ rd ∧ q ≠ rn := by simpa using hq
    simp [hne.1, hne.2]

/-! ## The values written -/

/-- The low bits of a word, sign-extended, have the signed value of those bits alone (43 R223, R224). -/
theorem toInt_signExtend_setWidth (v : Word) {n : Nat} (hn : n ≤ 32) :
    ((v.setWidth n).signExtend 32).toInt = (v.extractLsb' 0 n).toInt := by
  rw [BitVec.toInt_signExtend_of_le hn, BitVec.setWidth_eq_extractLsb' hn]

theorem byteOf_wordOfBytes (b0 b1 b2 b3 : Byte) :
    byteOf (wordOfBytes b0 b1 b2 b3) 0 = b0 ∧ byteOf (wordOfBytes b0 b1 b2 b3) 1 = b1 ∧
      byteOf (wordOfBytes b0 b1 b2 b3) 2 = b2 ∧ byteOf (wordOfBytes b0 b1 b2 b3) 3 = b3 := by
  simpa [bytesOfWord] using bytesOfWord_wordOfBytes b0 b1 b2 b3

/-- XCHGB reorders the bytes of its register (45_p1 R280). -/
theorem exec_xchgb_reg (rn : Reg) (s : State) :
    exec (.xchgb (.reg rn)) s = .next (s.setReg rn
      (wordOfBytes (byteOf (s.reg rn) 1) (byteOf (s.reg rn) 0) (byteOf (s.reg rn) 2) (byteOf (s.reg rn) 3))) := by
  rw [wordOfBytes, byteOf_append_byteOf _ 2]
  rfl

/-- XCHGW reorders the bytes of its register (45_p1 R281). -/
theorem exec_xchgw_reg (rn : Reg) (s : State) :
    exec (.xchgw (.reg rn)) s = .next (s.setReg rn
      (wordOfBytes (byteOf (s.reg rn) 2) (byteOf (s.reg rn) 3) (byteOf (s.reg rn) 0) (byteOf (s.reg rn) 1))) := by
  rw [wordOfBytes, BitVec.append_assoc, byteOf_append_byteOf _ 0, byteOf_append_byteOf _ 2]
  rfl

/-! ## The obligations -/

/-- Settles O26: each is one write of rd, and the sign extensions keep the signed value of the low bits. -/
theorem moveResults : Obligations.MoveResults := fun rd o s =>
  ⟨⟨_, rfl, s.setReg_effect rd _⟩, ⟨_, rfl, s.setReg_effect rd _⟩,
    ⟨_, _, rfl, s.setReg_effect rd _, toInt_signExtend_setWidth (s.op2 o) (by decide)⟩,
    ⟨_, _, rfl, s.setReg_effect rd _, toInt_signExtend_setWidth (s.op2 o) (by decide)⟩⟩

/-- Settles O27: SWP is two writes, the others one; a literal operand names no register to write. -/
theorem exchangeResults : Obligations.ExchangeResults := fun rd rn s =>
  ⟨⟨_, rfl, s.setReg_setReg_exchange rd rn⟩,
    ⟨_, _, exec_xchgb_reg rn s, s.setReg_effect rn _, byteOf_wordOfBytes _ _ _ _⟩,
    ⟨_, _, exec_xchgw_reg rn s, s.setReg_effect rn _, byteOf_wordOfBytes _ _ _ _⟩,
    ⟨_, rfl, s.setReg_effect rn _⟩,
    fun _ => ⟨rfl, rfl, rfl, rfl, rfl, rfl, rfl, rfl⟩⟩

end Sys2Proof.Machine
end

section
/-! The conditionals (44_p2_conditional_jump R250 to R257, R260): each is `skipUnless` of its condition on rd and the operand. -/

namespace Sys2Proof.Machine

/-! ## The end of a conditional -/

@[simp] theorem State.skipUnless_true (s : State) : s.skipUnless true = s := rfl

@[simp] theorem State.skipUnless_false (s : State) : s.skipUnless false = s.setSkiping true := rfl

/-- A tested condition that means `c` has the effect R260 gives to `c`. -/
theorem State.skipUnless_effect (s : State) {tested : Bool} {c : Prop} (h : tested = true ↔ c) :
    CondEffect s (s.skipUnless tested) c := by
  cases tested with
  | true => exact ⟨fun _ => s.skipUnless_true, fun hc => absurd (h.1 rfl) hc⟩
  | false => exact ⟨fun hc => absurd (h.2 hc) Bool.false_ne_true, fun _ => s.skipUnless_false⟩

/-! ## Bit tests -/

/-- What IFCLEAR tests, bit by bit (44 R257). -/
theorem and_eq_zero_iff_bits (a b : Word) : a &&& b = 0#32 ↔ ∀ k, b.getLsbD k = true → a.getLsbD k = false := by
  constructor
  · intro h k hb
    have hk : (a &&& b).getLsbD k = false := by rw [h, BitVec.getLsbD_zero]
    simpa [hb] using hk
  · intro h
    refine BitVec.eq_of_getLsbD_eq fun k _ => ?_
    cases hb : b.getLsbD k with
    | true => simp [h k hb]
    | false => simp [hb]

/-- What IFBITS tests, bit by bit: the complement of IFCLEAR (44 R256, R257). -/
theorem and_ne_zero_iff_bits (a b : Word) : a &&& b ≠ 0#32 ↔ ∃ k, a.getLsbD k = true ∧ b.getLsbD k = true := by
  simp [and_eq_zero_iff_bits, and_comm]

/-! ## The obligation -/

/-- Settles O36: six conditions are tested as they are stated, the two on `a & b` bit by bit. -/
theorem conditionalResults : Obligations.ConditionalResults := fun _ _ s =>
  ⟨⟨_, rfl, s.skipUnless_effect decide_eq_true_iff⟩, ⟨_, rfl, s.skipUnless_effect decide_eq_true_iff⟩,
    ⟨_, rfl, s.skipUnless_effect decide_eq_true_iff⟩, ⟨_, rfl, s.skipUnless_effect decide_eq_true_iff⟩,
    ⟨_, rfl, s.skipUnless_effect decide_eq_true_iff⟩, ⟨_, rfl, s.skipUnless_effect decide_eq_true_iff⟩,
    ⟨_, rfl, s.skipUnless_effect (decide_eq_true_iff.trans (and_ne_zero_iff_bits _ _))⟩,
    ⟨_, rfl, s.skipUnless_effect (decide_eq_true_iff.trans (and_eq_zero_iff_bits _ _))⟩⟩

end Sys2Proof.Machine
end

section
/-! Stack and control transfer of P1 and P2 (45_p1 R283 to R289, 44_p2_conditional_jump R258, R259): POP is a load at SP and a step
of SP, PUSH and the calls are one push, the jumps write the pc alone, and INT is the core's own `SendInterrupt`. -/

namespace Sys2Proof.Machine

/-! ## POP -/

/-- POP loads rn from SP, and adds 4 to SP as the load left it (45_p1 R283). -/
theorem exec_pop_reg_eq_loadTo (rn : Reg) (s : State) :
    let u := s.loadTo .dword rn (s.reg .sp)
    exec (.pop (.reg rn)) s = .next (u.setReg .sp (u.reg .sp + 4#32)) := rfl

/-- Settles O28: the frame is that of the load; rn = SP is the case in which the load has written SP. -/
theorem popResults : Obligations.PopResults := by
  refine fun rn s => ⟨⟨_, s.readValue .dword (s.reg .sp), exec_pop_reg_eq_loadTo rn s, ?_⟩, fun _ => ⟨rfl, rfl⟩⟩
  obtain ⟨-, -, hregs, hpc, hmem, hlog, hseq, hplatform⟩ := s.loadTo_effect .dword rn (s.reg .sp)
  refine ⟨?_, fun hrn => by simp [hrn], State.PlainAt.readValue_eq_peekWord, fun q hq => ?_, hpc, hmem, hlog, hseq, hplatform⟩
  · by_cases hrn : rn = .sp
    · simp [hrn]
    · simp [hrn, Ne.symm hrn]
  · have hne : q ≠ rn ∧ q ≠ .sp := by simpa using hq
    rw [State.reg_setReg, if_neg hne.2, hregs q (by simpa using hne.1)]

/-! ## PUSH and the calls -/

/-- Settles O29: PUSH is a push of the operand read before it. -/
theorem pushResults : Obligations.PushResults := fun o s =>
  ⟨_, rfl, s.push32_effect (s.op2 o)⟩

/-- Settles O31: the three are one call, each to the target of its form. -/
theorem callResults : Obligations.CallResults := fun rd o s =>
  ⟨⟨_, rfl, s.call_effect (s.op2 o)⟩, ⟨_, rfl, s.call_effect (s.targetRel o)⟩, ⟨_, rfl, s.call_effect (s.target2 rd o)⟩⟩

/-! ## Jumps -/

/-- A jump writes the masked target to the pc and keeps everything else (40_step_engine R142). -/
theorem State.jump_effect (s : State) (target : Word) : JumpEffect s (s.jump target) target := by
  rw [State.jump_eq]
  exact ⟨rfl, masked_aligned target, fun _ _ => rfl, ⟨fun _ => rfl, rfl⟩, ⟨rfl, rfl, rfl, rfl, rfl, rfl⟩, KeepsPlatform.refl s⟩

/-- Settles O30: the three are one jump, each to the target of its form. -/
theorem jumpResults : Obligations.JumpResults := fun rd o s =>
  ⟨⟨_, rfl, s.jump_effect (s.op2 o)⟩, ⟨_, rfl, s.jump_effect (s.targetRel o)⟩, ⟨_, rfl, s.jump_effect (s.target2 rd o)⟩⟩

/-! ## INT -/

/-- INT sends its operand to the core's own interrupt controller and drops the answer (45_p1 R289). -/
theorem exec_int (o : Operand) (s : State) : exec (.int o) s = .next (s.sendInterrupt (s.op2 o)).2 := rfl

/-- What an accepted `SendInterrupt` latches, the message as bits 7:0 (60_exceptions R332). -/
theorem State.sendInterrupt_latches {s : State} (msg : Word) (h : s.flag bitEI = true) :
    s.sendInterrupt msg = (true, { s with interrupt := true, intMsg := msg.extractLsb' 0 8 }) := by
  rw [s.sendInterrupt_enabled msg h, BitVec.setWidth_eq_extractLsb' (by decide)]
  rfl

/-- Settles O35: EI decides whether the message sent is latched. -/
theorem softwareInterruptResult : Obligations.SoftwareInterruptResult := by
  refine fun o s => ⟨fun hei => ?_, fun hei => ?_⟩
  · rw [exec_int, State.sendInterrupt_latches _ hei]
  · rw [exec_int, s.sendInterrupt_disabled _ hei]

end Sys2Proof.Machine
end

section
/-! SLEEP, RET and RFI (46_np R310 to R312): RET is one pop and a jump, RFI two pops and the writes that end an interrupt. What each
keeps is the frame of its case in `ExecCase`. -/

namespace Sys2Proof.Machine

/-! ## SLEEP -/

/-- Settles O34: SLEEP is that one write. -/
theorem sleepResult : Obligations.SleepResult := fun _ => rfl

/-! ## RET -/

/-- RET jumps to the word it pops (46_np R311). -/
theorem exec_ret (s : State) : exec .ret s = .next (s.pop32.2.jump s.pop32.1) := rfl

/-- Settles O32: one pop, whose word is the jump's target. -/
theorem returnResults : Obligations.ReturnResults := by
  intro s
  have hframe := exec_cases (exec_ret s)
  have hsp : (s.pop32.2.jump s.pop32.1).reg .sp = s.reg .sp + 4#32 := by simp [State.jump_eq]
  exact ⟨_, s.pop32.1, exec_ret s, rfl, masked_aligned _, State.PlainAt.readValue_eq_peekWord, hsp, hframe.keepsRegs,
    hframe.keepsMemory rfl, rfl, ⟨rfl, rfl, rfl, rfl, rfl, rfl⟩, hframe.keepsPlatform⟩

/-! ## RFI -/

theorem exec_rfi (s : State) : exec .rfi s = .next s.returnFromInterrupt := rfl

/-- The pc is no part of what a bus read answers (20_memory R51). -/
theorem State.readValue_setPc (s : State) (pc : Word) (w : Width) (a : Word) :
    (s.setPc pc).readValue w a = s.readValue w a := rfl

/-- A second pop reads 4 above the first, from the same memory. -/
theorem State.PlainAt.pop32_pop32 {s : State} (h : s.PlainAt (above (s.reg .sp) 4) 4) :
    s.pop32.2.pop32.1 = s.peekWord (above (s.reg .sp) 4) := by
  have hplain : s.pop32.2.PlainAt (above (s.reg .sp) 4) 4 := h
  have hsp : s.pop32.2.reg .sp = above (s.reg .sp) 4 := by simp [above]
  rw [State.pop32_fst, hsp]
  exact hplain.readValue_eq_peekWord

/-- RFI pops the pc, unmasked, and then r0 (46_np R312). -/
theorem State.returnFromInterrupt_pops (s : State) :
    let t := s.returnFromInterrupt
    t.pc = s.pop32.1 ∧ t.reg .r0 = s.pop32.2.pop32.1 ∧ t.reg .sp = s.reg .sp + 8#32 ∧
      t.busLog = s.busLog ++ [.read .dword (s.reg .sp), .read .dword (above (s.reg .sp) 4)] := by
  refine ⟨rfl, ?_, ?_, ?_⟩
  · simp [State.returnFromInterrupt, State.readValue_setPc]
  · simp [State.returnFromInterrupt, BitVec.add_assoc]
  · simp [State.returnFromInterrupt, above]

/-- Settles O33: the two pops, IF as the only flag written, and the pending bit dropped. -/
theorem returnFromInterruptResults : Obligations.ReturnFromInterruptResults := by
  intro s
  have hframe := exec_cases (exec_rfi s)
  obtain ⟨hpc, hr0, hsp, hlog⟩ := s.returnFromInterrupt_pops
  have hregs : KeepsRegsBut [.r0, .sp, .flags] s s.returnFromInterrupt := fun q hq =>
    hframe.keepsRegs q (by simpa [destinations, implicitWrites, and_left_comm] using hq)
  exact ⟨_, _, _, exec_rfi s, hpc, hr0, hsp, State.PlainAt.readValue_eq_peekWord, State.PlainAt.pop32_pop32,
    s.returnFromInterrupt_flag, hregs, rfl, rfl, rfl, rfl, rfl, rfl, hframe.keepsMemory rfl, hframe.keepsPlatform, hlog⟩

end Sys2Proof.Machine
end

section
/-! No step without an answer (60_exceptions R330): every `Step` and `Tick` on a bus ends in a state. -/

namespace Sys2Proof.Machine

variable {s : State}

theorem State.stepCycles_next (h : s.busAttached = true) (c : Timing) : ∃ t n, s.stepCycles c = .next (t, n) := by
  cases hsleep : s.sleeping with
  | true => exact ⟨_, _, s.stepCycles_asleep c h hsleep⟩
  | false =>
    obtain ⟨t, n, -, hstep⟩ := s.realStep_next
    exact ⟨t, n c, (s.stepCycles_awake c h hsleep).trans (hstep c)⟩

/-- Settles O15: `exec` answers in each of its cases, a `RealStep` in each of its three, and a run of cycles cycle by cycle. -/
theorem nothingFaults : Obligations.NothingFaults := by
  refine ⟨fun i s => ?_, fun s hbus => ?_, fun s c n hbus => ?_⟩
  · obtain ⟨t, ht, -⟩ := exec_next i s
    exact ⟨t, ht⟩
  · obtain ⟨t, n, ht⟩ := State.stepCycles_next hbus Config.timing
    exact ⟨t, by rw [step_eq_dropCycles, ht]; rfl⟩
  · obtain ⟨t, ht, -⟩ := s.tickCycles_next c n
    exact ⟨t, (State.tick_attached hbus c n).trans ht⟩

end Sys2Proof.Machine
end

section
/-! The interrupt controller (60_exceptions R332 to R341): latching a message, entry through its vector, and the RFI that undoes an
entry. -/

namespace Sys2Proof.Machine

variable {s t : State}

/-! ## Latching -/

/-- Settles O38: EI alone decides. -/
theorem sendInterruptLatches : Obligations.SendInterruptLatches := fun s msg =>
  ⟨State.sendInterrupt_latches msg, s.sendInterrupt_disabled msg⟩

/-! ## Entry -/

/-- The vector address on unbounded numbers (60 R335). -/
theorem State.vectorAddress_eq (s : State) : s.vectorAddress = s.reg .ia + BitVec.ofNat 32 (4 * s.intMsg.toNat) := by
  have hshift : (s.intMsg.setWidth 32 <<< 2 : Word) = BitVec.ofNat 32 (4 * s.intMsg.toNat) := by bv_omega
  rw [State.vectorAddress, hshift]

theorem State.accepts_iff (s : State) :
    s.accepts = true ↔ s.flag bitEI = true ∧ s.interrupt = true ∧ s.skiping = false := by
  simp [State.accepts, and_assoc]

/-- The word that the first push of an entry stores lies 4 above the one of the second. -/
theorem above_sub_eight_four (sp : Word) : above (sp - 8#32) 4 = sp - 4#32 := by
  bv_omega

/-- The second push of an entry: the pc at the new SP (60 R336). -/
theorem State.enterInterrupt_peek_pc (s : State) (vec : Word) {k : Nat} (hk : k < 4)
    (hd : s.isDevice (above (s.reg .sp - 8#32) k) = false) :
    (s.enterInterrupt vec).peek (above (s.reg .sp - 8#32) k) = byteOf s.pc k := by
  rw [State.enterInterrupt_peek, above_sub_toNat _ (by omega), if_pos ⟨by omega, hd⟩, if_pos hk]

/-- The first push of an entry: r0 above the pc (60 R336). -/
theorem State.enterInterrupt_peek_r0 (s : State) (vec : Word) {k : Nat} (hk : k < 4)
    (hd : s.isDevice (above (s.reg .sp - 4#32) k) = false) :
    (s.enterInterrupt vec).peek (above (s.reg .sp - 4#32) k) = byteOf (s.reg .r0) k := by
  rw [← above_sub_eight_four, above_above] at hd ⊢
  rw [State.enterInterrupt_peek, above_sub_toNat _ (by omega), if_pos ⟨by omega, hd⟩, if_neg (by omega),
    Nat.add_sub_cancel_left]

/-- Outside the eight bytes below SP, and behind a device, an entry keeps memory. -/
theorem State.enterInterrupt_peek_of_kept (s : State) (vec : Word) {x : Word}
    (hx : ¬(InBytes (s.reg .sp - 8#32) 8 x ∧ s.isDevice x = false)) : (s.enterInterrupt vec).peek x = s.peek x := by
  rw [State.enterInterrupt_peek]
  exact if_neg hx

theorem State.enterInterrupt_reg (s : State) (vec : Word) {q : Reg} (hq : q ≠ .flags) :
    (s.enterInterrupt vec).reg q =
      if q = .r0 then s.intMsg.setWidth 32 else if q = .sp then s.reg .sp - 8#32 else s.reg q := by
  by_cases hsp : q = .sp
  · simp [State.enterInterrupt_eq, hsp, BitVec.sub_sub]
  · simp [State.enterInterrupt_eq, hq, hsp]

/-- The bus calls of an entry: the two pushes (60 R336). -/
theorem State.enterInterrupt_busLog (s : State) (vec : Word) :
    (s.enterInterrupt vec).busLog =
      s.busLog ++ pushCalls (s.reg .sp) (s.reg .r0) ++ pushCalls (s.reg .sp - 4#32) s.pc := by
  simp [State.enterInterrupt_eq, State.push32_busLog]

/-- Everything an entry does after its vector is read (60 R336). -/
theorem State.enterInterrupt_effect (s : State) (vec : Word) :
    EntryEffect s ((s.logCall (.read .dword s.vectorAddress)).enterInterrupt vec) vec := by
  refine ⟨State.enterInterrupt_reg _ vec (by decide), State.enterInterrupt_reg _ vec (by decide),
    State.enterInterrupt_pc _ vec, State.enterInterrupt_flag _ vec, fun q hq => ?_, State.enterInterrupt_interrupt _ vec,
    State.enterInterrupt_sleeping _ vec, State.enterInterrupt_waitCycles _ vec, State.enterInterrupt_intMsg _ vec,
    State.enterInterrupt_stepMode _ vec, State.enterInterrupt_skiping _ vec,
    ⟨State.enterInterrupt_busAttached _ vec, State.enterInterrupt_busProbes _ vec, State.enterInterrupt_devices _ vec,
      State.enterInterrupt_params _ vec⟩,
    fun k hk hd => State.enterInterrupt_peek_r0 _ vec hk hd, fun k hk hd => State.enterInterrupt_peek_pc _ vec hk hd,
    fun x hx => State.enterInterrupt_peek_of_kept _ vec fun h => hx h.1,
    fun x hx => State.enterInterrupt_peek_of_kept _ vec fun h => ?_, State.enterInterrupt_busLog _ vec⟩
  · obtain ⟨hr0, hsp, hflags⟩ : q ≠ .r0 ∧ q ≠ .sp ∧ q ≠ .flags := by simpa using hq
    rw [State.enterInterrupt_reg _ _ hflags, if_neg hr0, if_neg hsp, State.logCall_reg]
  · exact Bool.false_ne_true (h.2.symm.trans hx)

/-- Settles O39: the three cases of `ProcessInterrupt`, and acceptance says which. -/
theorem interruptIsProcessed : Obligations.InterruptIsProcessed := by
  intro s
  rw [← s.vectorAddress_eq]
  refine ⟨State.PlainAt.readValue_eq_peekWord, ?_⟩
  rcases s.processInterrupt_cases with ⟨hno, h⟩ | ⟨hyes, hvec, h⟩ | ⟨hyes, hvec, h⟩
  · have hnot : ¬(s.flag bitEI = true ∧ s.interrupt = true ∧ s.skiping = false) := by simp [← s.accepts_iff, hno]
    exact ⟨fun hei hint hskip => absurd ⟨hei, hint, hskip⟩ hnot, fun hei hint hskip => absurd ⟨hei, hint, hskip⟩ hnot,
      fun _ => h⟩
  · exact ⟨fun _ _ _ hne => absurd hvec hne, fun _ _ _ _ => h, fun hnot => absurd (s.accepts_iff.1 hyes) hnot⟩
  · exact ⟨fun _ _ _ _ => h ▸ s.enterInterrupt_effect _, fun _ _ _ hnull => absurd hnull hvec,
      fun hnot => absurd (s.accepts_iff.1 hyes) hnot⟩

/-! ## Return -/

theorem State.peekWord_of_bytes {a v : Word} (h : ∀ k, k < 4 → t.peek (above a k) = byteOf v k) : t.peekWord a = v := by
  rw [State.peekWord, ← above_zero a, above_above, above_above, above_above, h _ (by decide), h _ (by decide),
    h _ (by decide), h _ (by decide)]
  exact wordOfBytes_bytesOfWord v

/-- On plain memory the words at SP and above it are, after an entry, the pc and r0 that RFI pops. -/
theorem EntryEffect.pushed {vec : Word} (h : EntryEffect s t vec) (hplain : s.PlainAt (s.reg .sp - 8#32) 8) :
    t.PlainAt (t.reg .sp) 8 ∧ t.peekWord (t.reg .sp) = s.pc ∧ t.peekWord (above (t.reg .sp) 4) = s.reg .r0 := by
  obtain ⟨-, hsp, -, -, -, -, -, -, -, -, -, hplatform, hr0, hpc, -⟩ := h
  rw [hsp]
  refine ⟨fun k hk => (hplatform.isDevice _).trans (hplain k hk),
    State.peekWord_of_bytes fun k hk => hpc k hk (hplain k (by omega)), State.peekWord_of_bytes fun k hk => ?_⟩
  have hplain' : s.PlainAt (above (s.reg .sp - 8#32) 4) 4 := hplain.shift (by decide)
  rw [above_sub_eight_four] at hplain' ⊢
  exact hr0 k hk (hplain' k hk)

/-- RFI on an entered state (46_np R312, 60 R341). -/
theorem EntryEffect.rfi_effect {vec : Word} (h : EntryEffect s t vec) (hplain : s.PlainAt (s.reg .sp - 8#32) 8) :
    ∃ u, exec .rfi t = .next u ∧ u.pc = s.pc ∧ KeepsRegsBut [.flags] s u ∧
      (∀ k, u.flag k = if k = bitIF then false else s.flag k) ∧ u.interrupt = false ∧ u.sleeping = false := by
  obtain ⟨hplain', hpcWord, hr0Word⟩ := h.pushed hplain
  obtain ⟨-, hsp, -, hflag, hregs, -, hsleep, -⟩ := h
  obtain ⟨u, p, r, hexec, hp, hr, husp, hpopPc, hpopR0, huflag, huregs, huint, -, -, -, -, husleep, -⟩ :=
    returnFromInterruptResults t
  refine ⟨u, hexec, ?_, fun q hq => ?_, fun k => ?_, huint, husleep.trans hsleep⟩
  · rw [hp, hpopPc (hplain'.mono (by decide)), hpcWord]
  · have hflags : q ≠ .flags := by simpa using hq
    by_cases hq0 : q = .r0
    · rw [hq0, hr, hpopR0 (hplain'.shift (by decide)), hr0Word]
    by_cases hqsp : q = .sp
    · rw [hqsp, husp, hsp, BitVec.sub_add_cancel]
    · have hother : q ∉ [Reg.r0, .sp, .flags] := by simp [hq0, hqsp, hflags]
      rw [huregs q hother, hregs q hother]
  · rw [huflag, hflag]
    split <;> rfl

/-- Settles O41: the accepted interrupt is an entry, whose two pushes RFI pops in the opposite order. -/
theorem returnUndoesEntry : Obligations.ReturnUndoesEntry := by
  intro s hei hint hskip hvec hplain
  obtain ⟨-, hentry, -⟩ := interruptIsProcessed s
  rw [← s.vectorAddress_eq] at hentry
  exact (hentry hei hint hskip hvec).rfi_effect hplain

end Sys2Proof.Machine
end

section
/-! Snapshots (70_reset_and_hazards R385 to R388): the words of one in a row, the two bytes after them, and what loading them
restores. -/

namespace Sys2Proof.Machine

/-! ## Words in a row -/

/-- Past one word, the bytes of a row are those of the rest. -/
theorem getD_bytesOfWord_append (w : Word) (bs : List Byte) (i : Nat) :
    (bytesOfWord w ++ bs).getD (i + 4) 0#8 = bs.getD i 0#8 := rfl

theorem getD_flatMap_bytesOfWord_append (ws : List Word) (bs : List Byte) (i : Nat) :
    (ws.flatMap bytesOfWord ++ bs).getD (4 * ws.length + i) 0#8 = bs.getD i 0#8 := by
  induction ws with
  | nil => simp
  | cons w ws ih =>
    rw [List.flatMap_cons, List.append_assoc, List.length_cons, Nat.mul_succ, Nat.add_right_comm,
      getD_bytesOfWord_append, ih]

theorem snapshotWord_append (w : Word) (bs : List Byte) : snapshotWord (bytesOfWord w ++ bs) 0 = w :=
  wordOfBytes_bytesOfWord w

theorem snapshotWord_append_add_four (w : Word) (bs : List Byte) (i : Nat) :
    snapshotWord (bytesOfWord w ++ bs) (i + 4) = snapshotWord bs i := rfl

/-- Word `i` of a row lies at offset `4 * i`. -/
theorem snapshotWord_flatMap_bytesOfWord (ws : List Word) (bs : List Byte) {i : Nat} (hi : i < ws.length) :
    snapshotWord (ws.flatMap bytesOfWord ++ bs) (4 * i) = ws[i] := by
  induction ws generalizing i with
  | nil => exact absurd hi (Nat.not_lt_zero i)
  | cons w ws ih =>
    rw [List.flatMap_cons, List.append_assoc]
    cases i with
    | zero => exact snapshotWord_append w _
    | succ i => exact (snapshotWord_append_add_four w _ (4 * i)).trans (ih (Nat.lt_of_succ_lt_succ hi))

/-! ## The layout of a snapshot -/

/-- The words of a snapshot: the registers, the pc and the cycles to wait (70 R387). -/
def State.snapshotWords (s : State) : List Word := s.regs.toList ++ [s.pc, s.waitCycles]

theorem State.snapshotWords_length (s : State) : s.snapshotWords.length = 18 := by simp [State.snapshotWords]

theorem State.snapshot_eq (s : State) :
    s.snapshot = s.snapshotWords.flatMap bytesOfWord ++ [s.intMsg, s.snapshotBits] := by
  simp [State.snapshot, State.snapshotWords]

theorem State.snapshot_length (s : State) : s.snapshot.length = snapLen := by
  have hword : ∀ w : Word, (bytesOfWord w).length = 4 := fun _ => rfl
  simp [State.snapshot, List.length_flatMap, hword, snapLen]

/-- The last byte of a snapshot, bit by bit. -/
theorem State.snapshotBits_bits (s : State) :
    s.snapshotBits.getLsbD 0 = s.interrupt ∧ s.snapshotBits.getLsbD 1 = s.stepMode ∧
      s.snapshotBits.getLsbD 2 = s.skiping ∧ s.snapshotBits.getLsbD 3 = s.sleeping := by
  have hconcat : s.snapshotBits =
      ((((0#4).concat s.sleeping).concat s.skiping).concat s.stepMode).concat s.interrupt := rfl
  simp [hconcat]

/-! ## Reading a snapshot, whatever bytes follow it -/

theorem State.snapshotWord_snapshot (s : State) (rest : List Byte) {i : Nat} (hi : i < s.snapshotWords.length) :
    snapshotWord (s.snapshot ++ rest) (4 * i) = s.snapshotWords[i] := by
  rw [s.snapshot_eq, List.append_assoc]
  exact snapshotWord_flatMap_bytesOfWord _ _ hi

theorem State.snapshot_reg (s : State) (rest : List Byte) (r : Fin 16) :
    snapshotWord (s.snapshot ++ rest) (4 * r.val) = s.regs[r.val] := by
  rw [s.snapshotWord_snapshot rest (by rw [s.snapshotWords_length]; omega)]
  simp [State.snapshotWords]

theorem State.snapshot_pc (s : State) (rest : List Byte) : snapshotWord (s.snapshot ++ rest) 64 = s.pc :=
  (s.snapshotWord_snapshot rest (i := 16) (by simp [s.snapshotWords_length])).trans (by simp [State.snapshotWords])

theorem State.snapshot_waitCycles (s : State) (rest : List Byte) :
    snapshotWord (s.snapshot ++ rest) 68 = s.waitCycles :=
  (s.snapshotWord_snapshot rest (i := 17) (by simp [s.snapshotWords_length])).trans (by simp [State.snapshotWords])

/-- The two bytes after the 18 words. -/
theorem State.snapshot_bytes (s : State) (rest : List Byte) :
    (s.snapshot ++ rest).getD 72 0#8 = s.intMsg ∧ (s.snapshot ++ rest).getD 73 0#8 = s.snapshotBits := by
  have hbyte := getD_flatMap_bytesOfWord_append s.snapshotWords ([s.intMsg, s.snapshotBits] ++ rest)
  rw [s.snapshotWords_length] at hbyte
  rw [s.snapshot_eq, List.append_assoc]
  exact ⟨hbyte 0, hbyte 1⟩

/-- A loaded snapshot restores every field of the core (70 R386). -/
theorem State.loadSnapshot_snapshot (s u : State) (rest : List Byte) :
    u.loadSnapshot (s.snapshot ++ rest) =
      { s with
        mem := u.mem, busLog := u.busLog, busAttached := u.busAttached, busProbes := u.busProbes,
        devices := u.devices, params := u.params } := by
  have hregs : (Vector.ofFn fun r : Fin 16 => snapshotWord (s.snapshot ++ rest) (4 * r.val)) = s.regs := by
    ext i hi
    rw [Vector.getElem_ofFn, s.snapshot_reg]
  obtain ⟨hmsg, hbits⟩ := s.snapshot_bytes rest
  obtain ⟨hint, hmode, hskip, hsleep⟩ := s.snapshotBits_bits
  simp only [State.loadSnapshot, hregs, s.snapshot_pc, s.snapshot_waitCycles, hmsg, hbits, hint, hmode, hskip, hsleep]

/-- Settles O56: a snapshot is `SNAP_LEN` bytes long, and loading it restores the core. -/
theorem snapshotRoundTrip : Obligations.SnapshotRoundTrip := by
  refine ⟨fun s u buf hbuf => ⟨s.snapshot ++ buf.drop snapLen, ?_, ?_, ?_⟩, fun u buf hbuf => ?_, fun u => ⟨rfl, rfl⟩⟩
  · simp [State.getState, hbuf]
  · simp [s.snapshot_length, hbuf]
  · simp [State.setState, s.snapshot_length, s.loadSnapshot_snapshot]
  · have hshort : ¬ snapLen ≤ buf.length := Nat.not_le.2 hbuf
    simp [State.getState, State.setState, hshort]

end Sys2Proof.Machine
end

section
/-! Words of 95_test_vectors: one of each class and operand form. -/

namespace Sys2Proof

/-- Settles O3: the decoder evaluated at each word. -/
theorem specWordsDecode : Obligations.SpecWordsDecode :=
  ⟨rfl, rfl, rfl, rfl, rfl, rfl, rfl⟩

end Sys2Proof
end
